-- ==== Sys2Proof/Config.lean ====
section
/-! DEFINITION. What an implementation of the block fixes (spec rule R5). The spec leaves no value and no behaviour
non-deterministic (93_implementation_defined.md), so there is no free value here. -/

namespace Sys2Proof

/-- The parameters of a block. State holds one of these, no step changes it, and every meaning and statement is for each
value of it (93 U12: the model takes the value as an argument; log 1). -/
structure Config where
  /-- The width of every host register and of the data word of a host operation: open, at least 16 (R5, D6). -/
  REGW : Nat
  deriving DecidableEq, Repr

/-- The values of the parameter that a block may have (R5). -/
def Config.legal (c : Config) : Bool := decide (16 ≤ c.REGW)

/-- The default of the parameter, 32 (R5), which is also the width for which spec/opcode_table.json writes its
descriptors (R106). -/
def Config.default : Config := { REGW := 32 }

end Sys2Proof
end

