-- ==== Sys2Proof/Word.lean ====
section
/-! DEFINITION. The words of the hardware: bytes, token words, phase codes, and the descriptors of the opcode table. All
are unsigned (R9). A word of `REGW` bits, whose width is a parameter, is a natural number below `2 ^ REGW`, as the spec
writes its values and its arithmetic (R9, R143; log 18). -/

namespace Sys2Proof

/-- A byte of the packed block, a colour index, or an 8-bit data path register (R5 `IDXW`, R62). -/
abbrev Byte := BitVec 8

/-- A descriptor as spec/opcode_table.json writes it, for `REGW` = 32: 40 bits (R101, R106). -/
abbrev TableWord := BitVec 40

/-- The bit-level form of a token, 9 bits (R99). -/
abbrev TokenWord := BitVec 9

/-- A phase code, 4 bits (R37). -/
abbrev PhaseCode := BitVec 4

end Sys2Proof
end

