-- ==== Sys2Proof/Syntax.lean ====
section
/-! DEFINITION. The syntax of the model: units, tokens, the operations of spec/opcode_table.json (one constructor a row),
the codes they are decoded from, and the moves of the agents. -/

namespace Sys2Proof

/-- The two units, the packer (number 0) and the unpacker (number 1) (R2). -/
inductive UnitId where
  | PK
  | UP
  deriving DecidableEq, Repr

/-- A channel token (R62): a data token with an 8-bit payload, or an end token with a 4-bit code. -/
inductive Token where
  | D (v : Byte)
  | END (c : BitVec 4)
  deriving DecidableEq, Repr

/-- A host operation descriptor (R101): the 8 bits `A` (unit, direction, register number) and the `REGW`-bit data word
`D`. -/
structure Descriptor where
  A : BitVec 8
  D : Nat
  deriving DecidableEq, Repr

/-- The operations of the block, one constructor for each row of spec/opcode_table.json (R106, R107). -/
inductive Instr where
  -- host operations on unit PK (R131 to R141)
  | pkNop
  | pkStart
  | pkReset
  | pkCmdIllegal (d : Nat)
  | pkWrWidth (v : Nat)
  | pkWrHeight (v : Nat)
  | pkWrDepth (v : Nat)
  | pkWrIgnored (reg : BitVec 6) (v : Nat)
  | pkRd (reg : BitVec 6)
  -- host operations on unit UP (R131 to R141)
  | upNop
  | upStart
  | upReset
  | upCmdIllegal (d : Nat)
  | upWrWidth (v : Nat)
  | upWrHeight (v : Nat)
  | upWrDepth (v : Nat)
  | upWrPalLen (v : Nat)
  | upWrIgnored (reg : BitVec 6) (v : Nat)
  | upRd (reg : BitVec 6)
  -- micro-operations of unit PK (R161 to R167)
  | pkAccum
  | pkEmit
  | pkFlush
  | pkPad
  | pkOkterm
  | pkFailterm
  -- micro-operations of unit UP (R191 to R195)
  | upFetch
  | upExtract
  | upSkip
  | upOkterm
  | upFailterm
  -- the phases in which a unit has no micro-operation (R168, R196)
  | pkIdle
  | pkDone
  | pkErr
  | upIdle
  | upDone
  | upErr
  deriving DecidableEq, Repr

/-- What an operation is decoded from: a host operation descriptor (format `HOSTOP`, R101), or the phase code of a unit
(format `PHASECODE`, R107). -/
inductive Code where
  | hostop (d : Descriptor)
  | phase (u : UnitId) (p : PhaseCode)
  deriving DecidableEq, Repr

/-- Why the decoder gives no operation. -/
inductive DecodeError where
  /-- Phase codes 9 to 15, and 4 in `UP`: no rule writes them (R37, R108). -/
  | reservedPhase (u : UnitId) (p : PhaseCode)
  deriving DecidableEq, Repr

/-- One move of one agent (R7, R65). A list of moves is one interleaving of the agents (log 2). -/
inductive Move where
  /-- The host does the host operation of this descriptor (R130). -/
  | host (d : Descriptor)
  /-- The unit takes the micro-operation its phase selects, if it is enabled (R107). -/
  | microOp (u : UnitId)
  /-- The source of `In(u)` appends the token of this token word (R65). -/
  | feed (u : UnitId) (w : TokenWord)
  /-- The sink of `Out(u)` removes the head token (R65). -/
  | drain (u : UnitId)
  /-- The environment removes a left-over token from the head of `In(u)` (R66, R257; log 10). -/
  | discard (u : UnitId)
  deriving DecidableEq, Repr

/-- The other unit. -/
def UnitId.other : UnitId → UnitId
  | .PK => .UP
  | .UP => .PK

end Sys2Proof
end

