-- ==== Sys2Proof/WellFormed.lean ====
section
/-! DEFINITION. Which terms of `Instr` are operations of the table: the checks that the rows' operands must pass. -/

namespace Sys2Proof

/-- The register numbers a write to which is ignored (R133): every number but 0, 2, 3, 4, and but 5 in `UP`. -/
def ignoredReg (u : UnitId) (reg : BitVec 6) : Bool :=
  reg.toNat != 0 && reg.toNat != 2 && reg.toNat != 3 && reg.toNat != 4 && (u == .PK || reg.toNat != 5)

/-- A command word that is no legal command: `OPC = 3` or a reserved bit set, that is any value from 3 on (R102, R106). -/
def illegalCommandWord (d : Nat) : Bool := decide (3 ≤ d)

/-- A data word of `regw` bits (R101). -/
def fitsWord (regw v : Nat) : Bool := decide (v < 2 ^ regw)

/-- An operation of the table on a block with `REGW = regw`: its data word has `regw` bits, an illegal command carries a
word that is no command, an ignored write a register number that is read-only or reserved; every other operation has
operands of its full range. -/
def Instr.wellFormed (regw : Nat) : Instr → Bool
  | .pkCmdIllegal d => fitsWord regw d && illegalCommandWord d
  | .upCmdIllegal d => fitsWord regw d && illegalCommandWord d
  | .pkWrIgnored reg v => fitsWord regw v && ignoredReg .PK reg
  | .upWrIgnored reg v => fitsWord regw v && ignoredReg .UP reg
  | .pkWrWidth v | .pkWrHeight v | .pkWrDepth v => fitsWord regw v
  | .upWrWidth v | .upWrHeight v | .upWrDepth v | .upWrPalLen v => fitsWord regw v
  | .pkNop | .pkStart | .pkReset | .pkRd _ => true
  | .upNop | .upStart | .upReset | .upRd _ => true
  | .pkAccum | .pkEmit | .pkFlush | .pkPad | .pkOkterm | .pkFailterm => true
  | .upFetch | .upExtract | .upSkip | .upOkterm | .upFailterm => true
  | .pkIdle | .pkDone | .pkErr | .upIdle | .upDone | .upErr => true

end Sys2Proof
end

