-- ==== Sys2Proof/Decode.lean ====
section
/-! DEFINITION. Decoding and encoding: tokens (R99), host operation descriptors and command words (R101, R102, R106,
R134), phase codes (R37, R107), the table's own rows (R106), and the words of spec/opcode_table.json. -/

namespace Sys2Proof

/-! ### Phase codes (R37) -/

namespace Phase

@[simp] abbrev idle : PhaseCode := 0#4
/-- `ACCUM` in `PK`. -/
@[simp] abbrev accum : PhaseCode := 1#4
/-- `FETCH` in `UP`. -/
@[simp] abbrev fetch : PhaseCode := 1#4
/-- `EMIT` in `PK`. -/
@[simp] abbrev emit : PhaseCode := 2#4
/-- `EXTRACT` in `UP`. -/
@[simp] abbrev extract : PhaseCode := 2#4
/-- `FLUSH` in `PK`. -/
@[simp] abbrev flush : PhaseCode := 3#4
/-- `SKIP` in `UP`. -/
@[simp] abbrev skip : PhaseCode := 3#4
/-- `PAD`, in `PK` only. -/
@[simp] abbrev pad : PhaseCode := 4#4
@[simp] abbrev okterm : PhaseCode := 5#4
@[simp] abbrev done : PhaseCode := 6#4
@[simp] abbrev failterm : PhaseCode := 7#4
@[simp] abbrev err : PhaseCode := 8#4

end Phase

/-! ### Tokens (R99) -/

/-- The token word of a token: `D(v)` has bit 8 clear, `END(c)` has bit 8 set and bits 7:4 zero (R99). -/
def encodeToken : Token → TokenWord
  | .D v => 0#1 ++ v
  | .END c => 1#1 ++ (0#4 ++ c)

/-- The token a unit reads from a token word: with bit 8 set it is `END(bits 3:0)`, whatever bits 7:4 are (R99). -/
def decodeToken (w : TokenWord) : Token :=
  if w.getLsbD 8 then .END (w.extractLsb' 0 4) else .D (w.extractLsb' 0 8)

/-! ### Host operation descriptors (R101) -/

/-- Field `UNIT`, bit 7 of `A`: 0 is `PK`, 1 is `UP`. -/
def Descriptor.unit (d : Descriptor) : UnitId := if d.A.getLsbD 7 then .UP else .PK

/-- Field `WR`, bit 6 of `A`: 0 is a read, 1 a write. -/
def Descriptor.isWrite (d : Descriptor) : Bool := d.A.getLsbD 6

/-- Field `REG`, bits 5:0 of `A`. -/
def Descriptor.reg (d : Descriptor) : BitVec 6 := d.A.extractLsb' 0 6

/-- The descriptor with these fields. -/
def descriptor (u : UnitId) (wr : Bool) (reg : BitVec 6) (v : Nat) : Descriptor :=
  { A := (BitVec.ofBool (u == .UP) ++ BitVec.ofBool wr ++ reg).cast (by decide), D := v }

/-- The bits of a descriptor, `8 + regw` of them: `A`, then `D` below it. -/
def Descriptor.bits (regw : Nat) (d : Descriptor) : Nat := d.A.toNat * 2 ^ regw + d.D

/-- The descriptor with these bits. -/
def Descriptor.ofBits (regw x : Nat) : Descriptor := { A := BitVec.ofNat 8 (x / 2 ^ regw), D := x % 2 ^ regw }

/-- The descriptor as a block of `regw`-bit registers gets it: the data word has `regw` bits (R67, R101,
log 18). -/
def Descriptor.atWidth (regw : Nat) (d : Descriptor) : Descriptor := { d with D := d.D % 2 ^ regw }

/-- The field `OPC` of a command word, bits 1:0 (R102). -/
def cmdOpc (v : Nat) : Nat := v % 4

/-- The reserved field of a command word, bits `REGW`−1:2 (R102). -/
def cmdReserved (v : Nat) : Nat := v / 4

/-- A write of `v` to `CMD` of `PK`, decoded in the order of R134. -/
def decodePkCommand (v : Nat) : Instr :=
  if cmdReserved v ≠ 0 ∨ cmdOpc v = 3 then .pkCmdIllegal v
  else if cmdOpc v = 0 then .pkNop
  else if cmdOpc v = 1 then .pkStart
  else .pkReset

/-- A write of `v` to `CMD` of `UP`, decoded in the order of R134. -/
def decodeUpCommand (v : Nat) : Instr :=
  if cmdReserved v ≠ 0 ∨ cmdOpc v = 3 then .upCmdIllegal v
  else if cmdOpc v = 0 then .upNop
  else if cmdOpc v = 1 then .upStart
  else .upReset

/-- A write of `v` to register `reg` of `PK` (R106). -/
def decodePkWrite (reg : BitVec 6) (v : Nat) : Instr :=
  if reg = 0#6 then decodePkCommand v
  else if reg = 2#6 then .pkWrWidth v
  else if reg = 3#6 then .pkWrHeight v
  else if reg = 4#6 then .pkWrDepth v
  else .pkWrIgnored reg v

/-- A write of `v` to register `reg` of `UP` (R106). -/
def decodeUpWrite (reg : BitVec 6) (v : Nat) : Instr :=
  if reg = 0#6 then decodeUpCommand v
  else if reg = 2#6 then .upWrWidth v
  else if reg = 3#6 then .upWrHeight v
  else if reg = 4#6 then .upWrDepth v
  else if reg = 5#6 then .upWrPalLen v
  else .upWrIgnored reg v

/-- The operation a host descriptor selects: every descriptor selects exactly one (R106). The data word of a read is
ignored (R101). -/
def decodeHostOp (d : Descriptor) : Instr :=
  match d.unit, d.isWrite with
  | .PK, true => decodePkWrite d.reg d.D
  | .PK, false => .pkRd d.reg
  | .UP, true => decodeUpWrite d.reg d.D
  | .UP, false => .upRd d.reg

/-! ### Phase codes (R107) -/

/-- The micro-operation of `PK` that a phase code selects (R107). -/
def decodePkPhase (p : PhaseCode) : Except DecodeError Instr :=
  match p.toNat with
  | 0 => .ok .pkIdle
  | 1 => .ok .pkAccum
  | 2 => .ok .pkEmit
  | 3 => .ok .pkFlush
  | 4 => .ok .pkPad
  | 5 => .ok .pkOkterm
  | 6 => .ok .pkDone
  | 7 => .ok .pkFailterm
  | 8 => .ok .pkErr
  | _ => .error (.reservedPhase .PK p)

/-- The micro-operation of `UP` that a phase code selects (R107). -/
def decodeUpPhase (p : PhaseCode) : Except DecodeError Instr :=
  match p.toNat with
  | 0 => .ok .upIdle
  | 1 => .ok .upFetch
  | 2 => .ok .upExtract
  | 3 => .ok .upSkip
  | 5 => .ok .upOkterm
  | 6 => .ok .upDone
  | 7 => .ok .upFailterm
  | 8 => .ok .upErr
  | _ => .error (.reservedPhase .UP p)

/-- The decoder: total, rejecting the reserved phase codes by name. -/
def decode : Code → Except DecodeError Instr
  | .hostop d => .ok (decodeHostOp d)
  | .phase .PK p => decodePkPhase p
  | .phase .UP p => decodeUpPhase p

/-! ### The encoder -/

/-- The code of a well-formed operation: its descriptor (R101, R102, R110) or its phase code (R37). A read is written with
the data word 0 (R101). -/
def encode : Instr → Code
  | .pkNop => .hostop (descriptor .PK true 0#6 0)
  | .pkStart => .hostop (descriptor .PK true 0#6 1)
  | .pkReset => .hostop (descriptor .PK true 0#6 2)
  | .pkCmdIllegal d => .hostop (descriptor .PK true 0#6 d)
  | .pkWrWidth v => .hostop (descriptor .PK true 2#6 v)
  | .pkWrHeight v => .hostop (descriptor .PK true 3#6 v)
  | .pkWrDepth v => .hostop (descriptor .PK true 4#6 v)
  | .pkWrIgnored reg v => .hostop (descriptor .PK true reg v)
  | .pkRd reg => .hostop (descriptor .PK false reg 0)
  | .upNop => .hostop (descriptor .UP true 0#6 0)
  | .upStart => .hostop (descriptor .UP true 0#6 1)
  | .upReset => .hostop (descriptor .UP true 0#6 2)
  | .upCmdIllegal d => .hostop (descriptor .UP true 0#6 d)
  | .upWrWidth v => .hostop (descriptor .UP true 2#6 v)
  | .upWrHeight v => .hostop (descriptor .UP true 3#6 v)
  | .upWrDepth v => .hostop (descriptor .UP true 4#6 v)
  | .upWrPalLen v => .hostop (descriptor .UP true 5#6 v)
  | .upWrIgnored reg v => .hostop (descriptor .UP true reg v)
  | .upRd reg => .hostop (descriptor .UP false reg 0)
  | .pkAccum => .phase .PK 1#4
  | .pkEmit => .phase .PK 2#4
  | .pkFlush => .phase .PK 3#4
  | .pkPad => .phase .PK 4#4
  | .pkOkterm => .phase .PK 5#4
  | .pkFailterm => .phase .PK 7#4
  | .upFetch => .phase .UP 1#4
  | .upExtract => .phase .UP 2#4
  | .upSkip => .phase .UP 3#4
  | .upOkterm => .phase .UP 5#4
  | .upFailterm => .phase .UP 7#4
  | .pkIdle => .phase .PK 0#4
  | .pkDone => .phase .PK 6#4
  | .pkErr => .phase .PK 8#4
  | .upIdle => .phase .UP 0#4
  | .upDone => .phase .UP 6#4
  | .upErr => .phase .UP 8#4

/-! ### The rows of spec/opcode_table.json -/

/-- The mnemonic of an operation's row, as the table spells it. -/
def mnemonicOf : Instr → String
  | .pkNop => "PK.NOP"
  | .pkStart => "PK.START"
  | .pkReset => "PK.RESET"
  | .pkCmdIllegal _ => "PK.CMD.ILLEGAL"
  | .pkWrWidth _ => "PK.WR_WIDTH"
  | .pkWrHeight _ => "PK.WR_HEIGHT"
  | .pkWrDepth _ => "PK.WR_DEPTH"
  | .pkWrIgnored _ _ => "PK.WR__ro_or_reserved"
  | .pkRd _ => "PK.RD__reg"
  | .upNop => "UP.NOP"
  | .upStart => "UP.START"
  | .upReset => "UP.RESET"
  | .upCmdIllegal _ => "UP.CMD.ILLEGAL"
  | .upWrWidth _ => "UP.WR_WIDTH"
  | .upWrHeight _ => "UP.WR_HEIGHT"
  | .upWrDepth _ => "UP.WR_DEPTH"
  | .upWrPalLen _ => "UP.WR_PAL_LEN"
  | .upWrIgnored _ _ => "UP.WR__ro_or_reserved"
  | .upRd _ => "UP.RD__reg"
  | .pkAccum => "PK.ACCUM"
  | .pkEmit => "PK.EMIT"
  | .pkFlush => "PK.FLUSH"
  | .pkPad => "PK.PAD"
  | .pkOkterm => "PK.OKTERM"
  | .pkFailterm => "PK.FAILTERM"
  | .upFetch => "UP.FETCH"
  | .upExtract => "UP.EXTRACT"
  | .upSkip => "UP.SKIP"
  | .upOkterm => "UP.OKTERM"
  | .upFailterm => "UP.FAILTERM"
  | .pkIdle => "PK.IDLE"
  | .pkDone => "PK.DONE"
  | .pkErr => "PK.ERR"
  | .upIdle => "UP.IDLE"
  | .upDone => "UP.DONE"
  | .upErr => "UP.ERR"

/-- A row of format `HOSTOP` of the table: its mask and match over the 40-bit descriptor for `REGW` = 32 (R106). -/
structure HostRow where
  mnemonic : String
  pattern : TableWord
  mask : TableWord
  deriving DecidableEq, Repr

/-- The rows of unit `PK`, in the table's priority order. -/
def pkHostRows : List HostRow :=
  [ ⟨"PK.NOP", 0x4000000000, 0xFFFFFFFFFF⟩,
    ⟨"PK.START", 0x4000000001, 0xFFFFFFFFFF⟩,
    ⟨"PK.RESET", 0x4000000002, 0xFFFFFFFFFF⟩,
    ⟨"PK.CMD.ILLEGAL", 0x4000000000, 0xFF00000000⟩,
    ⟨"PK.WR_WIDTH", 0x4200000000, 0xFF00000000⟩,
    ⟨"PK.WR_HEIGHT", 0x4300000000, 0xFF00000000⟩,
    ⟨"PK.WR_DEPTH", 0x4400000000, 0xFF00000000⟩,
    ⟨"PK.WR__ro_or_reserved", 0x4000000000, 0xC000000000⟩,
    ⟨"PK.RD__reg", 0x0000000000, 0xC000000000⟩ ]

/-- The rows of unit `UP`, in the table's priority order. -/
def upHostRows : List HostRow :=
  [ ⟨"UP.NOP", 0xC000000000, 0xFFFFFFFFFF⟩,
    ⟨"UP.START", 0xC000000001, 0xFFFFFFFFFF⟩,
    ⟨"UP.RESET", 0xC000000002, 0xFFFFFFFFFF⟩,
    ⟨"UP.CMD.ILLEGAL", 0xC000000000, 0xFF00000000⟩,
    ⟨"UP.WR_WIDTH", 0xC200000000, 0xFF00000000⟩,
    ⟨"UP.WR_HEIGHT", 0xC300000000, 0xFF00000000⟩,
    ⟨"UP.WR_DEPTH", 0xC400000000, 0xFF00000000⟩,
    ⟨"UP.WR_PAL_LEN", 0xC500000000, 0xFF00000000⟩,
    ⟨"UP.WR__ro_or_reserved", 0xC000000000, 0xC000000000⟩,
    ⟨"UP.RD__reg", 0x8000000000, 0xC000000000⟩ ]

/-- A descriptor matches a row when its bits under the mask are the row's match (R106). -/
def HostRow.selects (r : HostRow) (x : TableWord) : Bool := x &&& r.mask == r.pattern

/-- The row that the table selects for a descriptor: the first that matches (R106). -/
def tableRow (x : TableWord) : Option HostRow :=
  (pkHostRows ++ upHostRows).find? (HostRow.selects · x)

/-! ### Words numbered as the table numbers them -/

/-- The code that a word of the table stands for. A row of format `HOSTOP` is one descriptor of 40 bits, for the default
`REGW`. A row of format `PHASECODE` has 4 bits, which name no unit, since the unit stands in the row and in no bit of the
word: the word is read as a phase code of `PK` (DESIGN CHOICE, log 6). -/
def tableCode (nbits w : Nat) : Option Code :=
  if nbits = 0 then none
  else if nbits ≤ 8 then
    if w < 2 ^ 4 then some (.phase .PK (BitVec.ofNat 4 w)) else none
  else if nbits ≤ 8 + Config.default.REGW then
    if w < 2 ^ (8 + Config.default.REGW) then some (.hostop (Descriptor.ofBits Config.default.REGW w)) else none
  else none

/-- The instruction the decoder reads from a word of the table. -/
def decodeTableWord (nbits w : Nat) : Option Instr :=
  match tableCode nbits w with
  | none => none
  | some c => (decode c).toOption

end Sys2Proof
end

