-- ==== Sys2Proof/Machine/State.lean ====
section
/-! DEFINITION. The state of the machine: the registers of the two units (R20), the four channels (R61), and the
model's own record of whose move is next (log 2, log 3) and of what host reads returned (log 5). -/

namespace Sys2Proof.Machine

/-- The spec names nothing that stops the block: its own faults (R221) are taken by fault entry (R224) and the machine
goes on, so no step of the model ends in a fault. -/
inductive Fault where
  deriving DecidableEq, Repr

/-- Why a step gives no next state. -/
inductive Refusal where
  /-- An operation without a meaning; raised by no arm of `exec` (safe). -/
  | notModelled (mnemonic : String)
  /-- Raised by `step` when a unit is offered a step in a phase that no rule writes: codes 9 to 15, and 4 in `UP` (R37,
  R108). Safe: the model stops where the spec lets a model leave the unit without a step (log 7). -/
  | reservedPhase (u : UnitId) (p : PhaseCode)
  deriving DecidableEq, Repr

/-- The state elements that both units have (R20). A register of `REGW` bits is a natural number; that it stays below
`2 ^ REGW` is part of the invariant (`RegsFit` in Safety.lean; log 18). -/
structure UnitRegs where
  /-- Image width in pixels, written by the host, `REGW` bits (R22). -/
  WIDTH : Nat
  /-- Image height in rows, written by the host, `REGW` bits (R23). -/
  HEIGHT : Nat
  /-- Bit depth, written by the host, `REGW` bits (R24). -/
  DEPTH : Nat
  /-- Active width, `REGW` bits (R28). -/
  W : Nat
  /-- Active height, `REGW` bits (R28). -/
  H : Nat
  /-- Active depth (R28). -/
  S : BitVec 4
  /-- Bit padding of the active configuration (R29). -/
  BITPAD : BitVec 3
  /-- Byte width of the active configuration, `REGW` bits (R29). -/
  BYTEW : Nat
  /-- Byte padding of the active configuration (R29). -/
  BYTEPAD : BitVec 2
  /-- Bits of the current byte filled (R31) or extracted (R33). -/
  BITCNT : BitVec 4
  /-- Pixels of the current row taken in or given out, `REGW` bits (R34). -/
  COL : Nat
  /-- Rows completed, `REGW` bits (R35). -/
  ROW : Nat
  /-- Padding bytes still to emit or to skip (R36). -/
  PADCNT : BitVec 2
  /-- The phase (R37), which stands in the place of a program counter (R38). -/
  PHASE : PhaseCode
  /-- The code of the fault that ended the last transform, or 0 (R39). -/
  ERRCODE : BitVec 4
  /-- An illegal command was seen (R40). -/
  CMDERR : Bool
  deriving DecidableEq, Repr

/-- The state elements of unit `PK` (R20). -/
structure Packer extends UnitRegs where
  /-- The accumulator (R30). -/
  ACC : Byte
  deriving DecidableEq, Repr

/-- The state elements of unit `UP` (R20). -/
structure Unpacker extends UnitRegs where
  /-- Palette length, written by the host, `REGW` bits (R27). -/
  PAL_LEN : Nat
  /-- Active palette length, `REGW` bits (R28). -/
  P : Nat
  /-- The shift register (R32). -/
  SHREG : Byte
  deriving DecidableEq, Repr

/-- A channel (R61). `queue` holds the tokens that stand in it, head first. `passed` holds the tokens its receiver has
taken from its head, oldest first: the unit for an input channel, the sink for an output channel (R8; log 4). -/
structure Channel where
  passed : List Token
  queue : List Token
  deriving DecidableEq, Repr

/-- What one host read returned (R8, R131; log 5). -/
structure HostRead where
  reg : BitVec 6
  value : Nat
  deriving DecidableEq, Repr

/-- The state of the machine. -/
structure State where
  /-- The parameters of the block, which no step changes (R5; log 1). -/
  cfg : Config
  pk : Packer
  up : Unpacker
  inPk : Channel
  outPk : Channel
  inUp : Channel
  outUp : Channel
  /-- What the host's reads of `PK` returned, oldest first (the model's own field, log 5). -/
  readsPk : List HostRead
  /-- What the host's reads of `UP` returned, oldest first (the model's own field, log 5). -/
  readsUp : List HostRead
  /-- The moves of all agents that come next, in order (the model's own field, log 2). -/
  agenda : List Move
  /-- The unit that is offered the next step while the agenda is empty (the model's own field, log 3). -/
  turn : UnitId
  deriving DecidableEq, Repr

/-- Every register 0 (R49). -/
def UnitRegs.reset : UnitRegs :=
  { WIDTH := 0, HEIGHT := 0, DEPTH := 0, W := 0, H := 0, S := 0, BITPAD := 0, BYTEW := 0, BYTEPAD := 0, BITCNT := 0,
    COL := 0, ROW := 0, PADCNT := 0, PHASE := 0, ERRCODE := 0, CMDERR := false }

/-- A block with these parameters right after hardware reset: every element of both units is 0 (R49, R250) and all four
channels are empty (R252). No host read has happened, the agenda is empty and `PK` has the turn (the model's own fields,
log 14). -/
def State.resetAt (c : Config) : State :=
  { cfg := c
    pk := { UnitRegs.reset with ACC := 0 }
    up := { UnitRegs.reset with PAL_LEN := 0, P := 0, SHREG := 0 }
    inPk := ⟨[], []⟩, outPk := ⟨[], []⟩, inUp := ⟨[], []⟩, outUp := ⟨[], []⟩
    readsPk := [], readsUp := [], agenda := [], turn := .PK }

/-- The machine right after hardware reset, for the default `REGW` (R5). -/
def State.reset : State := State.resetAt Config.default

end Sys2Proof.Machine
end

