-- ==== Sys2Proof/Machine/Flags.lean ====
section
/-! DEFINITION. The status flags, which are functions of the phase (R41), and the `STATUS` word (R42). -/

namespace Sys2Proof.Machine

/-- `BUSY`: phases 1, 2, 3, 4, 5, 7 (R41). -/
def UnitRegs.busy (r : UnitRegs) : Bool :=
  r.PHASE == 1#4 || r.PHASE == 2#4 || r.PHASE == 3#4 || r.PHASE == 4#4 || r.PHASE == 5#4 || r.PHASE == 7#4

/-- `DONE`: phase 6 (R41). -/
def UnitRegs.done (r : UnitRegs) : Bool := r.PHASE == 6#4

/-- `ERR`: phases 7 and 8 (R41). -/
def UnitRegs.err (r : UnitRegs) : Bool := r.PHASE == 7#4 || r.PHASE == 8#4

/-- The word read from `STATUS`: `PHASE` in bits 11:8, `ERRCODE` in 7:4, `CMDERR`, `ERR`, `DONE`, `BUSY` in 3, 2, 1, 0,
zeros above (R42). -/
def UnitRegs.statusWord (r : UnitRegs) : Nat :=
  (r.PHASE ++ r.ERRCODE ++ BitVec.ofBool r.CMDERR ++ BitVec.ofBool r.err ++ BitVec.ofBool r.done
    ++ BitVec.ofBool r.busy).toNat

end Sys2Proof.Machine
end

