-- ==== Sys2Proof/Machine/Operands.lean ====
section
/-! DEFINITION. The operand forms: the geometry of a configuration (R138), a pixel index on its way into a byte (R104)
and out of one (R105), and the registers a host read can name (R44, R131). -/

namespace Sys2Proof.Machine

/-! ### Geometry (R138): natural numbers, computed without overflow (R143) -/

/-- `bits_per_row = W × S`. -/
def bitsPerRow (w s : Nat) : Nat := w * s

/-- `BITPAD = (8 − (bits_per_row mod 8)) mod 8`. -/
def bitPad (w s : Nat) : Nat := (8 - bitsPerRow w s % 8) % 8

/-- `BYTEW = (bits_per_row + BITPAD) / 8`; the division is exact. -/
def byteWidth (w s : Nat) : Nat := (bitsPerRow w s + bitPad w s) / 8

/-- `BYTEPAD = (4 − (BYTEW mod 4)) mod 4`. -/
def bytePad (w s : Nat) : Nat := (4 - byteWidth w s % 4) % 4

/-- `STRIDE = BYTEW + BYTEPAD`, the byte length of a packed row. -/
def stride (w s : Nat) : Nat := byteWidth w s + bytePad w s

/-- `PPB = 8 / S`, the pixels that share one byte (R6). -/
def pixelsPerByte (s : Nat) : Nat := 8 / s

/-! ### Pixel indices -/

/-- An index is legal at depth `S` if it is below `2^S` (R104). -/
def indexFits (s : BitVec 4) (v : Byte) : Bool := decide (v.toNat < 2 ^ s.toNat)

/-- `((ACC << S) | v) mod 256` (R104). -/
def assemble (s : BitVec 4) (acc v : Byte) : Byte := (acc <<< s.toNat) ||| v

/-- `(ACC << BITPAD) mod 256`: the indices of a partial byte moved to its top (R104, R163). -/
def alignTop (bitpad : BitVec 3) (acc : Byte) : Byte := acc <<< bitpad.toNat

/-- `SHREG >> (8 − S)`: the index in the top `S` bits (R105). -/
def topIndex (s : BitVec 4) (shreg : Byte) : Byte := shreg >>> (8 - s.toNat)

/-- `(SHREG << S) mod 256`: the next index brought to the top (R105). -/
def shiftOut (s : BitVec 4) (shreg : Byte) : Byte := shreg <<< s.toNat

/-- An index is in the palette if it is below the palette length (R192, 90_conflicts.md C5). -/
def indexInPalette (p : Nat) (ix : Byte) : Bool := decide (ix.toNat < p)

/-! ### Registers a host read can name (R131) -/

/-- The registers with the same content in both units; `palLen` is what register 5 reads as, and 0 (`CMD`) and 11 to 63
read 0. -/
def UnitRegs.read (r : UnitRegs) (palLen : Nat) (reg : BitVec 6) : Nat :=
  match reg.toNat with
  | 1 => r.statusWord
  | 2 => r.WIDTH
  | 3 => r.HEIGHT
  | 4 => r.DEPTH
  | 5 => palLen
  | 6 => r.BITPAD.toNat
  | 7 => r.BYTEW
  | 8 => r.BYTEPAD.toNat
  | 9 => r.ROW
  | 10 => r.COL
  | _ => 0

/-- A read of a register of `PK`: register 5 is reserved and reads 0 (R44). -/
def Packer.read (p : Packer) (reg : BitVec 6) : Nat := p.toUnitRegs.read 0 reg

/-- A read of a register of `UP`: register 5 is `PAL_LEN` (R44). -/
def Unpacker.read (p : Unpacker) (reg : BitVec 6) : Nat := p.toUnitRegs.read p.PAL_LEN reg

end Sys2Proof.Machine
end

