-- ==== Sys2Proof/Machine/Ops.lean ====
section
/-! DEFINITION. The shared operations: the channels (R61), fault entry (R224) and the return from a fault (R140, R227),
the illegal command (R141), the configuration check and latch of `START` (R137, R139), and the row ends of the packer
(R165). -/

namespace Sys2Proof.Machine

/-! ### Channels (R61, R64) -/

/-- `Push`: append a token at the tail; always enabled (R63). -/
def Channel.push (c : Channel) (t : Token) : Channel := { c with queue := c.queue ++ [t] }

/-- `Pop`: the receiver takes the head token. An empty channel stays as it is (log 11). -/
def Channel.pop (c : Channel) : Channel :=
  match c.queue with
  | [] => c
  | t :: rest => { passed := c.passed ++ [t], queue := rest }

/-- The environment removes a left-over token from the head; the receiver has not taken it (R66, R257; log 10). -/
def Channel.discard (c : Channel) : Channel := { c with queue := c.queue.tail }

/-- Every token that was appended and not discarded, in order: the append-only sequence of R63. -/
def Channel.trace (c : Channel) : List Token := c.passed ++ c.queue

/-! ### Error codes (R221) -/

@[simp] abbrev E_NONE : BitVec 4 := 0#4
@[simp] abbrev E_CFG : BitVec 4 := 1#4
@[simp] abbrev E_RANGE : BitVec 4 := 2#4
@[simp] abbrev E_DECODE : BitVec 4 := 3#4
@[simp] abbrev E_TRUNC : BitVec 4 := 4#4

/-! ### Fault entry and the way out -/

/-- Fault entry `raise Fault(u, c)`: the code is saved, control goes to `FAILTERM`, nothing else changes (R224). -/
def UnitRegs.raiseFault (c : BitVec 4) (r : UnitRegs) : UnitRegs :=
  { r with ERRCODE := c, PHASE := Phase.failterm }

/-- Fault entry of `PK`. -/
def Packer.raiseFault (c : BitVec 4) (p : Packer) : Packer :=
  { p with toUnitRegs := p.toUnitRegs.raiseFault c }

/-- Fault entry of `UP`. -/
def Unpacker.raiseFault (c : BitVec 4) (p : Unpacker) : Unpacker :=
  { p with toUnitRegs := p.toUnitRegs.raiseFault c }

/-- The part of `RESET` that both units share: active configuration, geometry, working registers and status are cleared,
the configuration registers stay (R140). It is the only return from a fault but hardware reset (R227). -/
def UnitRegs.softReset (r : UnitRegs) : UnitRegs :=
  { r with
    W := 0, H := 0, S := 0, BITPAD := 0, BYTEW := 0, BYTEPAD := 0
    BITCNT := 0, COL := 0, ROW := 0, PADCNT := 0
    ERRCODE := E_NONE, CMDERR := false, PHASE := Phase.idle }

/-- `RESET` of `PK` (R140). -/
def Packer.softReset (p : Packer) : Packer := { p.toUnitRegs.softReset with ACC := 0 }

/-- `RESET` of `UP` (R140). -/
def Unpacker.softReset (p : Unpacker) : Unpacker :=
  { p.toUnitRegs.softReset with PAL_LEN := p.PAL_LEN, P := 0, SHREG := 0 }

/-- `IllegalCommand(u)`: `CMDERR <- 1` and nothing else (R141). -/
def UnitRegs.illegalCommand (r : UnitRegs) : UnitRegs := { r with CMDERR := true }

/-- The illegal command of `PK`. -/
def Packer.illegalCommand (p : Packer) : Packer := { p with toUnitRegs := p.toUnitRegs.illegalCommand }

/-- The illegal command of `UP`. -/
def Unpacker.illegalCommand (p : Unpacker) : Unpacker := { p with toUnitRegs := p.toUnitRegs.illegalCommand }

/-! ### `START` (R136 to R139) -/

/-- `START` is accepted in `IDLE` and `DONE` only (R136). -/
def UnitRegs.startAccepted (r : UnitRegs) : Bool := r.PHASE == Phase.idle || r.PHASE == Phase.done

/-- The configuration check (R137): the whole word `DEPTH` is 1, 4 or 8, and neither size is 0. -/
def UnitRegs.configLegal (r : UnitRegs) : Bool :=
  (r.DEPTH == 1 || r.DEPTH == 4 || r.DEPTH == 8) && r.WIDTH != 0 && r.HEIGHT != 0

/-- The part of `Latch(u)` that both units share (R139), with the geometry of R138. -/
def UnitRegs.latch (r : UnitRegs) : UnitRegs :=
  let s := BitVec.ofNat 4 r.DEPTH
  { r with
    W := r.WIDTH, H := r.HEIGHT, S := s
    BITPAD := BitVec.ofNat 3 (bitPad r.WIDTH s.toNat)
    BYTEW := byteWidth r.WIDTH s.toNat
    BYTEPAD := BitVec.ofNat 2 (bytePad r.WIDTH s.toNat)
    BITCNT := 0, COL := 0, ROW := 0, PADCNT := 0
    ERRCODE := E_NONE, PHASE := 1#4 }

/-- `Latch(PK)` (R139). -/
def Packer.latch (p : Packer) : Packer := { p.toUnitRegs.latch with ACC := 0 }

/-- `Latch(UP)` (R139). -/
def Unpacker.latch (p : Unpacker) : Unpacker :=
  { p.toUnitRegs.latch with PAL_LEN := p.PAL_LEN, P := p.PAL_LEN, SHREG := 0 }

/-! ### Row ends of the packer (R165) -/

/-- `NextRow()`: the row is counted, and the transform is over when it was the last. -/
def Packer.nextRow (p : Packer) : Packer :=
  let row := p.ROW + 1
  { p with ROW := row, COL := 0, PHASE := if row = p.H then Phase.okterm else Phase.accum }

/-- `RowEnd()`: the padding bytes of the row come next, if there are any. -/
def Packer.rowEnd (p : Packer) : Packer :=
  let p := { p with PADCNT := p.BYTEPAD }
  if 0 < p.BYTEPAD.toNat then { p with PHASE := Phase.pad } else p.nextRow

end Sys2Proof.Machine
end

