-- ==== Sys2Proof/Machine/Agents.lean ====
section
/-! DEFINITION. Whose move is next, what operation a move brings, and the moves of the environment (R7, R65, R107). -/

namespace Sys2Proof.Machine

/-- The next move and the state without it: the head of the agenda (log 2); while the agenda is empty the two units are
offered a step in turn (log 3). -/
def State.nextMove (s : State) : Move × State :=
  match s.agenda with
  | m :: rest => (m, { s with agenda := rest })
  | [] => (.microOp s.turn, { s with turn := s.turn.other })

/-- The phase of a unit (R37). -/
def State.phaseOf (s : State) : UnitId → PhaseCode
  | .PK => s.pk.PHASE
  | .UP => s.up.PHASE

/-- The code of the operation a move brings: the descriptor of the host operation, with a data word of `REGW` bits (R67,
R101, log 18), or the unit's phase, which alone selects its micro-operation (R107). The environment's moves bring none. -/
def fetch (m : Move) (s : State) : Option Code :=
  match m with
  | .host d => some (.hostop (d.atWidth s.cfg.REGW))
  | .microOp u => some (.phase u (s.phaseOf u))
  | .feed _ _ | .drain _ | .discard _ => none

/-- The moves of the environment (R65, R66). The bits 7:4 of an end token's word are dropped here, since no rule looks at
them (R99, log 9). The moves of the host and of the units are operations and change nothing here. -/
def environmentMove (m : Move) (s : State) : State :=
  match m with
  | .feed .PK w => { s with inPk := s.inPk.push (decodeToken w) }
  | .feed .UP w => { s with inUp := s.inUp.push (decodeToken w) }
  | .drain .PK => { s with outPk := s.outPk.pop }
  | .drain .UP => { s with outUp := s.outUp.pop }
  | .discard .PK => { s with inPk := s.inPk.discard }
  | .discard .UP => { s with inUp := s.inUp.discard }
  | .host _ | .microOp _ => s

/-- The refusal for a code that decodes to no operation. -/
def refusalOf : DecodeError → Refusal
  | .reservedPhase u p => .reservedPhase u p

/-- The state with the phase of a unit set and that unit offered the next step. -/
def State.placePhase (s : State) (u : UnitId) (p : PhaseCode) : State :=
  match u with
  | .PK => { s with pk := { s.pk with PHASE := p }, agenda := .microOp .PK :: s.agenda }
  | .UP => { s with up := { s.up with PHASE := p }, agenda := .microOp .UP :: s.agenda }

/-- The state with a code placed where the next step fetches: a descriptor as the host's next move, a phase code in the
phase of its unit, which is offered the next step (log 12). -/
def State.placeCode (s : State) : Code → State
  | .hostop d => { s with agenda := .host d :: s.agenda }
  | .phase u p => s.placePhase u p

end Sys2Proof.Machine
end

