-- ==== Sys2Proof/Machine/HostOps.lean ====
section
/-! DEFINITION. The host operations of both units (R130 to R141). Each is enabled in every phase and ends in a next
state. -/

namespace Sys2Proof.Machine

/-! ### Shared: `START` of a unit -/

/-- `START` of `PK` (R136): refused outside `IDLE` and `DONE`, a fault if the configuration is illegal, else the latch. -/
def Packer.start (p : Packer) : Packer :=
  if p.startAccepted then
    if p.configLegal then p.latch else p.raiseFault E_CFG
  else p.illegalCommand

/-- `START` of `UP` (R136). -/
def Unpacker.start (p : Unpacker) : Unpacker :=
  if p.startAccepted then
    if p.configLegal then p.latch else p.raiseFault E_CFG
  else p.illegalCommand

/-! ### Unit `PK` -/

/-- `PK.NOP`: no effect (R135). -/
def execPkNop (s : State) : Host.Outcome State Fault Refusal := .next s

/-- `PK.START` (R136 to R139). -/
def execPkStart (s : State) : Host.Outcome State Fault Refusal := .next { s with pk := s.pk.start }

/-- `PK.RESET` (R140). -/
def execPkReset (s : State) : Host.Outcome State Fault Refusal := .next { s with pk := s.pk.softReset }

/-- A word written to `CMD` of `PK` that is no legal command (R141); the word itself is not stored (R134). -/
def execPkCmdIllegal (_d : Nat) (s : State) : Host.Outcome State Fault Refusal :=
  .next { s with pk := s.pk.illegalCommand }

/-- `PK.WR WIDTH` (R132). -/
def execPkWrWidth (v : Nat) (s : State) : Host.Outcome State Fault Refusal :=
  .next { s with pk := { s.pk with WIDTH := v } }

/-- `PK.WR HEIGHT` (R132). -/
def execPkWrHeight (v : Nat) (s : State) : Host.Outcome State Fault Refusal :=
  .next { s with pk := { s.pk with HEIGHT := v } }

/-- `PK.WR DEPTH` (R132). -/
def execPkWrDepth (v : Nat) (s : State) : Host.Outcome State Fault Refusal :=
  .next { s with pk := { s.pk with DEPTH := v } }

/-- A write to a read-only or reserved register of `PK`: ignored, no flag (R133). -/
def execPkWrIgnored (_reg : BitVec 6) (_v : Nat) (s : State) : Host.Outcome State Fault Refusal := .next s

/-- `PK.RD` (R131): the value goes to the host, which the model records (log 5); no register changes. -/
def execPkRd (reg : BitVec 6) (s : State) : Host.Outcome State Fault Refusal :=
  .next { s with readsPk := s.readsPk ++ [⟨reg, s.pk.read reg⟩] }

/-! ### Unit `UP` -/

/-- `UP.NOP`: no effect (R135). -/
def execUpNop (s : State) : Host.Outcome State Fault Refusal := .next s

/-- `UP.START` (R136 to R139). -/
def execUpStart (s : State) : Host.Outcome State Fault Refusal := .next { s with up := s.up.start }

/-- `UP.RESET` (R140). -/
def execUpReset (s : State) : Host.Outcome State Fault Refusal := .next { s with up := s.up.softReset }

/-- A word written to `CMD` of `UP` that is no legal command (R141); the word itself is not stored (R134). -/
def execUpCmdIllegal (_d : Nat) (s : State) : Host.Outcome State Fault Refusal :=
  .next { s with up := s.up.illegalCommand }

/-- `UP.WR WIDTH` (R132). -/
def execUpWrWidth (v : Nat) (s : State) : Host.Outcome State Fault Refusal :=
  .next { s with up := { s.up with WIDTH := v } }

/-- `UP.WR HEIGHT` (R132). -/
def execUpWrHeight (v : Nat) (s : State) : Host.Outcome State Fault Refusal :=
  .next { s with up := { s.up with HEIGHT := v } }

/-- `UP.WR DEPTH` (R132). -/
def execUpWrDepth (v : Nat) (s : State) : Host.Outcome State Fault Refusal :=
  .next { s with up := { s.up with DEPTH := v } }

/-- `UP.WR PAL_LEN` (R132). -/
def execUpWrPalLen (v : Nat) (s : State) : Host.Outcome State Fault Refusal :=
  .next { s with up := { s.up with PAL_LEN := v } }

/-- A write to a read-only or reserved register of `UP`: ignored, no flag (R133). -/
def execUpWrIgnored (_reg : BitVec 6) (_v : Nat) (s : State) : Host.Outcome State Fault Refusal := .next s

/-- `UP.RD` (R131): the value goes to the host, which the model records (log 5); no register changes. -/
def execUpRd (reg : BitVec 6) (s : State) : Host.Outcome State Fault Refusal :=
  .next { s with readsUp := s.readsUp ++ [⟨reg, s.up.read reg⟩] }

end Sys2Proof.Machine
end

