-- ==== Sys2Proof/Machine/PackerOps.lean ====
section
/-! DEFINITION. The micro-operations of unit `PK` (R161 to R168). A micro-operation that needs an input token and finds
none is not enabled: the unit waits and no state changes (R64, log 11). Which one runs is decided by the phase, in
`step` (R107, log 13). -/

namespace Sys2Proof.Machine

/-- The legal index `v` taken into the accumulator (R161). -/
def Packer.accumulate (p : Packer) (v : Byte) : Packer :=
  let bitcnt := p.BITCNT + p.S
  let col := p.COL + 1
  { p with
    ACC := assemble p.S p.ACC v
    BITCNT := bitcnt
    COL := col
    PHASE := if bitcnt = 8#4 then Phase.emit
             else if bitcnt.toNat < 8 ∧ col = p.W then Phase.flush
             else Phase.accum }

/-- The accumulator emptied (R162, R163). -/
def Packer.clearAcc (p : Packer) : Packer := { p with ACC := 0, BITCNT := 0 }

/-- `PK.ACCUM` (R161). An `END` token faults and is not removed; an index that does not fit is removed and faults. -/
def execPkAccum (s : State) : Host.Outcome State Fault Refusal :=
  match s.inPk.queue with
  | [] => .next s
  | .END _ :: _ => .next { s with pk := s.pk.raiseFault E_TRUNC }
  | .D v :: _ =>
    if indexFits s.pk.S v then .next { s with inPk := s.inPk.pop, pk := s.pk.accumulate v }
    else .next { s with inPk := s.inPk.pop, pk := s.pk.raiseFault E_RANGE }

/-- `PK.EMIT` (R162). -/
def execPkEmit (s : State) : Host.Outcome State Fault Refusal :=
  let p := s.pk.clearAcc
  .next { s with
    outPk := s.outPk.push (.D s.pk.ACC)
    pk := if p.COL = p.W then p.rowEnd else { p with PHASE := Phase.accum } }

/-- `PK.FLUSH` (R163). -/
def execPkFlush (s : State) : Host.Outcome State Fault Refusal :=
  .next { s with
    outPk := s.outPk.push (.D (alignTop s.pk.BITPAD s.pk.ACC))
    pk := s.pk.clearAcc.rowEnd }

/-- `PK.PAD` (R164). -/
def execPkPad (s : State) : Host.Outcome State Fault Refusal :=
  let p := { s.pk with PADCNT := s.pk.PADCNT - 1 }
  .next { s with
    outPk := s.outPk.push (.D 0)
    pk := if p.PADCNT = 0#2 then p.nextRow else { p with PHASE := Phase.pad } }

/-- `PK.OKTERM` (R166). -/
def execPkOkterm (s : State) : Host.Outcome State Fault Refusal :=
  .next { s with outPk := s.outPk.push (.END 0), pk := { s.pk with PHASE := Phase.done } }

/-- `PK.FAILTERM` (R167). -/
def execPkFailterm (s : State) : Host.Outcome State Fault Refusal :=
  .next { s with outPk := s.outPk.push (.END s.pk.ERRCODE), pk := { s.pk with PHASE := Phase.err } }

/-- Phase `IDLE` of `PK`: the unit has no step (R168). -/
def execPkIdle (s : State) : Host.Outcome State Fault Refusal := .next s

/-- Phase `DONE` of `PK`: the unit has no step (R168). -/
def execPkDone (s : State) : Host.Outcome State Fault Refusal := .next s

/-- Phase `ERR` of `PK`: the unit has no step (R168, R225). -/
def execPkErr (s : State) : Host.Outcome State Fault Refusal := .next s

end Sys2Proof.Machine
end

