-- ==== Sys2Proof/Machine/UnpackerOps.lean ====
section
/-! DEFINITION. The micro-operations of unit `UP` (R191 to R196). A micro-operation that needs an input token and finds
none is not enabled: the unit waits and no state changes (R64, log 11). Which one runs is decided by the phase, in
`step` (R107, log 13). -/

namespace Sys2Proof.Machine

/-- The registers of `UP` after the next pixel byte was taken (R191). -/
def Unpacker.load (p : Unpacker) (b : Byte) : Unpacker :=
  { p with SHREG := b, BITCNT := 0, PHASE := Phase.extract }

/-- The registers of `UP` after one index in the palette was given out (R192): the end of a row is found by counting
pixels, and the last row's padding is not taken (90_conflicts.md C7). -/
def Unpacker.advance (p : Unpacker) : Unpacker :=
  let p := { p with SHREG := shiftOut p.S p.SHREG, BITCNT := p.BITCNT + p.S, COL := p.COL + 1 }
  if p.COL = p.W then
    let p := { p with ROW := p.ROW + 1, COL := 0 }
    if p.ROW = p.H then { p with PHASE := Phase.okterm }
    else { p with PADCNT := p.BYTEPAD, PHASE := if 0 < p.BYTEPAD.toNat then Phase.skip else Phase.fetch }
  else if p.BITCNT = 8#4 then { p with PHASE := Phase.fetch }
  else { p with PHASE := Phase.extract }

/-- The registers of `UP` after one padding byte was discarded (R193). -/
def Unpacker.skipByte (p : Unpacker) : Unpacker :=
  let padcnt := p.PADCNT - 1
  { p with PADCNT := padcnt, PHASE := if padcnt = 0#2 then Phase.fetch else Phase.skip }

/-- `UP.FETCH` (R191). An `END` token faults and is not removed. -/
def execUpFetch (s : State) : Host.Outcome State Fault Refusal :=
  match s.inUp.queue with
  | [] => .next s
  | .END _ :: _ => .next { s with up := s.up.raiseFault E_TRUNC }
  | .D b :: _ => .next { s with inUp := s.inUp.pop, up := s.up.load b }

/-- `UP.EXTRACT` (R192). An index outside the palette faults and is not emitted. -/
def execUpExtract (s : State) : Host.Outcome State Fault Refusal :=
  let ix := topIndex s.up.S s.up.SHREG
  if indexInPalette s.up.P ix then .next { s with outUp := s.outUp.push (.D ix), up := s.up.advance }
  else .next { s with up := s.up.raiseFault E_DECODE }

/-- `UP.SKIP` (R193). An `END` token faults and is not removed; the value of a padding byte is not looked at. -/
def execUpSkip (s : State) : Host.Outcome State Fault Refusal :=
  match s.inUp.queue with
  | [] => .next s
  | .END _ :: _ => .next { s with up := s.up.raiseFault E_TRUNC }
  | .D _ :: _ => .next { s with inUp := s.inUp.pop, up := s.up.skipByte }

/-- `UP.OKTERM` (R194). -/
def execUpOkterm (s : State) : Host.Outcome State Fault Refusal :=
  .next { s with outUp := s.outUp.push (.END 0), up := { s.up with PHASE := Phase.done } }

/-- `UP.FAILTERM` (R195). -/
def execUpFailterm (s : State) : Host.Outcome State Fault Refusal :=
  .next { s with outUp := s.outUp.push (.END s.up.ERRCODE), up := { s.up with PHASE := Phase.err } }

/-- Phase `IDLE` of `UP`: the unit has no step (R196). -/
def execUpIdle (s : State) : Host.Outcome State Fault Refusal := .next s

/-- Phase `DONE` of `UP`: the unit has no step (R196). -/
def execUpDone (s : State) : Host.Outcome State Fault Refusal := .next s

/-- Phase `ERR` of `UP`: the unit has no step (R196, R225). -/
def execUpErr (s : State) : Host.Outcome State Fault Refusal := .next s

end Sys2Proof.Machine
end

