-- ==== Sys2Proof/Machine/Dispatch.lean ====
section
/-! DEFINITION. The dispatch: one arm for each operation of spec/opcode_table.json. -/

namespace Sys2Proof.Machine

/-- The effect of an operation. -/
def exec (i : Instr) (s : State) : Host.Outcome State Fault Refusal :=
  match i with
  | .pkNop => Sys2Proof.Machine.execPkNop s
  | .pkStart => Sys2Proof.Machine.execPkStart s
  | .pkReset => Sys2Proof.Machine.execPkReset s
  | .pkCmdIllegal d => Sys2Proof.Machine.execPkCmdIllegal d s
  | .pkWrWidth v => Sys2Proof.Machine.execPkWrWidth v s
  | .pkWrHeight v => Sys2Proof.Machine.execPkWrHeight v s
  | .pkWrDepth v => Sys2Proof.Machine.execPkWrDepth v s
  | .pkWrIgnored reg v => Sys2Proof.Machine.execPkWrIgnored reg v s
  | .pkRd reg => Sys2Proof.Machine.execPkRd reg s
  | .upNop => Sys2Proof.Machine.execUpNop s
  | .upStart => Sys2Proof.Machine.execUpStart s
  | .upReset => Sys2Proof.Machine.execUpReset s
  | .upCmdIllegal d => Sys2Proof.Machine.execUpCmdIllegal d s
  | .upWrWidth v => Sys2Proof.Machine.execUpWrWidth v s
  | .upWrHeight v => Sys2Proof.Machine.execUpWrHeight v s
  | .upWrDepth v => Sys2Proof.Machine.execUpWrDepth v s
  | .upWrPalLen v => Sys2Proof.Machine.execUpWrPalLen v s
  | .upWrIgnored reg v => Sys2Proof.Machine.execUpWrIgnored reg v s
  | .upRd reg => Sys2Proof.Machine.execUpRd reg s
  | .pkAccum => Sys2Proof.Machine.execPkAccum s
  | .pkEmit => Sys2Proof.Machine.execPkEmit s
  | .pkFlush => Sys2Proof.Machine.execPkFlush s
  | .pkPad => Sys2Proof.Machine.execPkPad s
  | .pkOkterm => Sys2Proof.Machine.execPkOkterm s
  | .pkFailterm => Sys2Proof.Machine.execPkFailterm s
  | .upFetch => Sys2Proof.Machine.execUpFetch s
  | .upExtract => Sys2Proof.Machine.execUpExtract s
  | .upSkip => Sys2Proof.Machine.execUpSkip s
  | .upOkterm => Sys2Proof.Machine.execUpOkterm s
  | .upFailterm => Sys2Proof.Machine.execUpFailterm s
  | .pkIdle => Sys2Proof.Machine.execPkIdle s
  | .pkDone => Sys2Proof.Machine.execPkDone s
  | .pkErr => Sys2Proof.Machine.execPkErr s
  | .upIdle => Sys2Proof.Machine.execUpIdle s
  | .upDone => Sys2Proof.Machine.execUpDone s
  | .upErr => Sys2Proof.Machine.execUpErr s

end Sys2Proof.Machine
end

