-- ==== Sys2Proof/Machine/Step.lean ====
section
/-! DEFINITION. One step of the machine: one agent makes one move (R7, R11). -/

namespace Sys2Proof.Machine

/-- One step: the next move is taken, the operation it brings is decoded and executed, or the environment's move is
made. -/
def step (s : State) : Host.Outcome State Fault Refusal :=
  match fetch s.nextMove.1 s.nextMove.2 with
  | none => .next (environmentMove s.nextMove.1 s.nextMove.2)
  | some c =>
    match decode c with
    | .ok i => exec i s.nextMove.2
    | .error e => .refused (refusalOf e)

/-- The state with the operation of a table word placed where the next step fetches it (log 12). A word that is no word of
the table changes nothing. -/
def State.withFetchWord (s : State) (nbits w : Nat) : State :=
  match tableCode nbits w with
  | none => s
  | some c => s.placeCode c

end Sys2Proof.Machine
end

