-- ==== Sys2Proof/Machine/Transform.lean ====
section
/-! DEFINITION. What a whole transform computes, as functions (R170, R197), and the frames that carry the results (R100,
R235). No step of the machine calls them: statements compare the machine with them. -/

namespace Sys2Proof.Machine

/-! ### Packing (R170) -/

/-- The sum over the lanes from lane `j` on of `v × 2^(8 − S × (lane + 1))` (R170). -/
def laneSum (s : Nat) : Nat → List Byte → Nat
  | _, [] => 0
  | j, v :: vs => v.toNat * 2 ^ (8 - s * (j + 1)) + laneSum s (j + 1) vs

/-- `PackByte(S, vs)`: lane `j` at bits `7 − jS` down to `8 − (j+1)S` (R170, R94). -/
def packByte (s : Nat) (vs : List Byte) : Byte := BitVec.ofNat 8 (laneSum s 0 vs)

/-- `PackRow(W, S, row)`: the pixel bytes, then the padding bytes, which are 0 (R96, R170). -/
def packRow (w s : Nat) (row : List Byte) : List Byte :=
  (List.range (byteWidth w s)).map (fun m => packByte s ((row.drop (m * pixelsPerByte s)).take (pixelsPerByte s)))
    ++ List.replicate (bytePad w s) 0

/-- `Pack(W, H, S, idx)`: the packed rows one after another (R97, R170). -/
def pack (w h s : Nat) (idx : List Byte) : List Byte :=
  (List.range h).flatMap (fun r => packRow w s ((idx.drop (r * w)).take w))

/-! ### Unpacking (R197) -/

/-- `Lane(S, b, j) = (b >> (8 − S × (j + 1))) mod 2^S`. -/
def lane (s : Nat) (b : Byte) (j : Nat) : Byte := BitVec.ofNat 8 (b.toNat / 2 ^ (8 - s * (j + 1)) % 2 ^ s)

/-- The offset in the block of the byte that holds the pixel of row `r` and column `c` (R94, R97). -/
def pixelByteAt (w s r c : Nat) : Nat := r * stride w s + c * s / 8

/-- `Index(W, S, bs, r, c)`. A block too short to hold the pixel has no such index; every statement that uses it asks for
a block that is long enough. -/
def indexAt (w s : Nat) (bs : List Byte) (r c : Nat) : Byte :=
  lane s (bs.getD (pixelByteAt w s r c) 0) (c % pixelsPerByte s)

/-- `Unpack(W, H, S, bs)`: the indices in row-major order. -/
def unpack (w h s : Nat) (bs : List Byte) : List Byte :=
  (List.range h).flatMap (fun r => (List.range w).map (fun c => indexAt w s bs r c))

/-- `NEED = (H − 1) × STRIDE + BYTEW`: the bytes an unpacking takes (R66, R197). -/
def bytesNeeded (w h s : Nat) : Nat := (h - 1) * stride w s + byteWidth w s

/-! ### Frames (R100, R235) -/

/-- The data tokens of a sequence of bytes or indices. -/
def dataTokens (vs : List Byte) : List Token := vs.map Token.D

/-- A frame: data tokens closed by one end token. -/
def frame (vs : List Byte) (code : BitVec 4) : List Token := dataTokens vs ++ [Token.END code]

/-- The result of a transform whose frame is given: its data if the frame is closed by `END(0)`, none otherwise (R235). -/
def frameResult (ts : List Token) : Option (List Byte) :=
  match ts with
  | [] => none
  | [.END c] => if c = 0 then some [] else none
  | .END _ :: _ :: _ => none
  | .D v :: rest => (frameResult rest).map (v :: ·)

end Sys2Proof.Machine
end

