-- ==== Sys2Proof/Safety.lean ====
section
/-! DEFINITION. The terms in which statements speak: the invariant of every reachable state (R46), who an operation
belongs to, and runs of one unit. -/

namespace Sys2Proof.Machine

/-! ### The invariant of the registers -/

/-- The geometry registers hold the geometry of the active configuration (R46 item 2, R138). -/
structure GeometryHolds (r : UnitRegs) : Prop where
  bitpad : r.BITPAD.toNat = bitPad r.W r.S.toNat
  bytew : r.BYTEW = byteWidth r.W r.S.toNat
  bytepad : r.BYTEPAD.toNat = bytePad r.W r.S.toNat

/-- The active configuration is legal and its geometry is right (R46 item 2). -/
structure ActiveLegal (r : UnitRegs) : Prop where
  depth : r.S = 1#4 ∨ r.S = 4#4 ∨ r.S = 8#4
  width : 1 ≤ r.W
  height : 1 ≤ r.H
  geometry : GeometryHolds r

/-- What holds of the registers of both units in every reachable state (R46 items 1, 2, 3, 8; R28). -/
structure UnitInv (r : UnitRegs) : Prop where
  phase_le : r.PHASE.toNat ≤ 8
  errcode_iff : r.ERRCODE ≠ 0#4 ↔ (r.PHASE = 7#4 ∨ r.PHASE = 8#4)
  errcode_le : r.ERRCODE.toNat ≤ 4
  depth : r.S = 0#4 ∨ r.S = 1#4 ∨ r.S = 4#4 ∨ r.S = 8#4
  active : 1 ≤ r.PHASE.toNat → r.PHASE.toNat ≤ 6 → ActiveLegal r
  running : 1 ≤ r.PHASE.toNat → r.PHASE.toNat ≤ 4 → r.ROW < r.H ∧ r.COL ≤ r.W
  finished : r.PHASE = 5#4 ∨ r.PHASE = 6#4 → r.ROW = r.H ∧ r.COL = 0

/-- What holds of `PK` in every reachable state: R46 items 4, 5, 6, and what makes them inductive (in `EMIT` the taken
pixels fill whole bytes). -/
structure PkInv (p : Packer) : Prop where
  unit : UnitInv p.toUnitRegs
  code : p.ERRCODE ≠ 3#4
  accum : p.PHASE = 1#4 → p.BITCNT.toNat = p.COL * p.S.toNat % 8 ∧ p.COL < p.W
  emit : p.PHASE = 2#4 → p.BITCNT = 8#4 ∧ p.COL * p.S.toNat % 8 = 0 ∧ 1 ≤ p.COL
  flush : p.PHASE = 3#4 →
    1 ≤ p.BITCNT.toNat ∧ p.BITCNT.toNat ≤ 7 ∧ p.COL = p.W ∧ 8 - p.BITCNT.toNat = p.BITPAD.toNat
  pad : p.PHASE = 4#4 → 1 ≤ p.PADCNT.toNat ∧ p.PADCNT.toNat ≤ p.BYTEPAD.toNat ∧ p.COL = p.W
  empty : p.PHASE = 0#4 ∨ p.PHASE = 4#4 ∨ p.PHASE = 5#4 ∨ p.PHASE = 6#4 → p.BITCNT = 0#4 ∧ p.ACC = 0
  acc_lt : p.ACC.toNat < 2 ^ p.BITCNT.toNat

/-- What holds of `UP` in every reachable state: R46 items 7, 8, and what makes them inductive (in `FETCH` the pixels
given out fill whole bytes). -/
structure UpInv (p : Unpacker) : Prop where
  unit : UnitInv p.toUnitRegs
  code : p.ERRCODE ≠ 2#4
  no_pad : p.PHASE ≠ 4#4
  fetch : p.PHASE = 1#4 → p.COL < p.W ∧ p.COL * p.S.toNat % 8 = 0
  extract : p.PHASE = 2#4 →
    p.COL < p.W ∧ p.BITCNT.toNat = p.COL * p.S.toNat % 8 ∧ p.BITCNT.toNat + p.S.toNat ≤ 8 ∧
      p.BITCNT.toNat % p.S.toNat = 0 ∧ p.SHREG.toNat % 2 ^ p.BITCNT.toNat = 0
  skip : p.PHASE = 3#4 →
    1 ≤ p.PADCNT.toNat ∧ p.PADCNT.toNat ≤ p.BYTEPAD.toNat ∧ p.COL = 0 ∧ 1 ≤ p.ROW

/-- The registers of `REGW` bits hold numbers of `REGW` bits (R21 to R23, R28, R29, R34, R35, R143). -/
structure RegsFit (c : Config) (r : UnitRegs) : Prop where
  width : r.WIDTH < 2 ^ c.REGW
  height : r.HEIGHT < 2 ^ c.REGW
  depth : r.DEPTH < 2 ^ c.REGW
  w : r.W < 2 ^ c.REGW
  h : r.H < 2 ^ c.REGW
  bytew : r.BYTEW < 2 ^ c.REGW
  col : r.COL < 2 ^ c.REGW
  row : r.ROW < 2 ^ c.REGW

/-! ### The invariant of the channels -/

/-- A unit has removed data tokens only (R66). -/
def TookOnlyData (c : Channel) : Prop := ∀ t ∈ c.passed, ∃ v, t = Token.D v

/-- An output channel carries end codes 0 to 4 only (R100, R108), and the unit is in `DONE` or `ERR` only after the end
token that closes its frame (R79). -/
structure OutInv (r : UnitRegs) (c : Channel) : Prop where
  codes : ∀ e, Token.END e ∈ c.trace → e.toNat ≤ 4
  done : r.PHASE = 6#4 → c.trace.getLast? = some (Token.END 0)
  err : r.PHASE = 8#4 → c.trace.getLast? = some (Token.END r.ERRCODE)

/-- The invariant of every reachable state. -/
structure State.Inv (s : State) : Prop where
  cfg : s.cfg.legal = true
  fitPk : RegsFit s.cfg s.pk.toUnitRegs
  fitUp : RegsFit s.cfg s.up.toUnitRegs
  fitPal : s.up.PAL_LEN < 2 ^ s.cfg.REGW ∧ s.up.P < 2 ^ s.cfg.REGW
  pk : PkInv s.pk
  up : UpInv s.up
  inPk : TookOnlyData s.inPk
  inUp : TookOnlyData s.inUp
  outPk : OutInv s.pk.toUnitRegs s.outPk
  outUp : OutInv s.up.toUnitRegs s.outUp

/-! ### Operations by unit and kind -/

/-- The unit an operation belongs to. -/
def unitOf : Instr → UnitId
  | .pkNop | .pkStart | .pkReset | .pkCmdIllegal _ | .pkWrWidth _ | .pkWrHeight _ | .pkWrDepth _ | .pkWrIgnored _ _
  | .pkRd _ | .pkAccum | .pkEmit | .pkFlush | .pkPad | .pkOkterm | .pkFailterm | .pkIdle | .pkDone | .pkErr => .PK
  | .upNop | .upStart | .upReset | .upCmdIllegal _ | .upWrWidth _ | .upWrHeight _ | .upWrDepth _ | .upWrPalLen _
  | .upWrIgnored _ _ | .upRd _ | .upFetch | .upExtract | .upSkip | .upOkterm | .upFailterm | .upIdle | .upDone
  | .upErr => .UP

/-- A host operation (R106), as against a phase code (R107). -/
def isHostOp : Instr → Bool
  | .pkNop | .pkStart | .pkReset | .pkCmdIllegal _ | .pkWrWidth _ | .pkWrHeight _ | .pkWrDepth _ | .pkWrIgnored _ _
  | .pkRd _ => true
  | .upNop | .upStart | .upReset | .upCmdIllegal _ | .upWrWidth _ | .upWrHeight _ | .upWrDepth _ | .upWrPalLen _
  | .upWrIgnored _ _ | .upRd _ => true
  | .pkAccum | .pkEmit | .pkFlush | .pkPad | .pkOkterm | .pkFailterm | .pkIdle | .pkDone | .pkErr => false
  | .upFetch | .upExtract | .upSkip | .upOkterm | .upFailterm | .upIdle | .upDone | .upErr => false

/-- A write to a configuration register (R132). -/
def isConfigWrite : Instr → Bool
  | .pkWrWidth _ | .pkWrHeight _ | .pkWrDepth _ => true
  | .upWrWidth _ | .upWrHeight _ | .upWrDepth _ | .upWrPalLen _ => true
  | .pkNop | .pkStart | .pkReset | .pkCmdIllegal _ | .pkWrIgnored _ _ | .pkRd _ => false
  | .upNop | .upStart | .upReset | .upCmdIllegal _ | .upWrIgnored _ _ | .upRd _ => false
  | .pkAccum | .pkEmit | .pkFlush | .pkPad | .pkOkterm | .pkFailterm | .pkIdle | .pkDone | .pkErr => false
  | .upFetch | .upExtract | .upSkip | .upOkterm | .upFailterm | .upIdle | .upDone | .upErr => false

/-- The operation may run in the state: a host operation in any phase (R130), a micro-operation when the phase of its unit
selects it (R107). -/
def Selected (i : Instr) (s : State) : Prop :=
  isHostOp i = true ∨ decode (.phase (unitOf i) (s.phaseOf (unitOf i))) = .ok i

/-- The descriptor with these fields: in `A` bit 7 the unit, bit 6 write, bits 5:0 the register; the data word (R101). -/
def descriptorOf (unit wr reg v : Nat) : Descriptor := { A := BitVec.ofNat 8 (unit * 128 + wr * 64 + reg), D := v }

/-! ### Runs -/

/-- The agenda of a transform run by itself: `START` of the unit, then `n` steps of the unit, then `rest`. -/
def transformAgenda (u : UnitId) (n : Nat) (rest : List Move) : List Move :=
  .host (match u with | .PK => descriptorOf 0 1 0 1 | .UP => descriptorOf 1 1 0 1)
    :: (List.replicate n (.microOp u) ++ rest)

/-- The micro-operations of a packing (R171). -/
def packSteps (w h s : Nat) : Nat := w * h + h * byteWidth w s + h * bytePad w s + 1

/-- The micro-operations of an unpacking: one `EXTRACT` a pixel, one `FETCH` a pixel byte, one `SKIP` a padding byte of
every row but the last, and `OKTERM` (R192, R191, R193, R194). -/
def unpackSteps (w h s : Nat) : Nat := w * h + h * byteWidth w s + (h - 1) * bytePad w s + 1

end Sys2Proof.Machine
end

