-- ==== Sys2Proof/Certificates/Slice0/Obligations.lean ====
section
/-! DEFINITION. The statements for the provers. Each docstring names the rule of spec/ that the statement formalises, or
says what it rests on. A frame is written as an equation: `t = { s with pk := t.pk, outPk := t.outPk }` says that nothing
of `s` but the named fields changes. Every statement is for each value of the parameter `REGW` (R5), which stands in the
state; the registers of `REGW` bits are natural numbers, and that they stay below `2 ^ REGW` is part of the invariant. -/

open Sys2Proof Sys2Proof.Machine

/-! ### Encoding -/

/-- Decoding the code of a well-formed operation gives the operation back, with every operand, and the `8 + REGW` bits of
its descriptor give the descriptor back, at each width (R5, R101, R102, R106, R107). -/
def Obligations.DecodeInvertsEncode : Prop :=
  ∀ (regw : Nat) (i : Instr), 16 ≤ regw → i.wellFormed regw = true →
    decode (encode i) = .ok i ∧ ∀ d, encode i = .hostop d → Descriptor.ofBits regw (d.bits regw) = d

/-- The other direction: what a descriptor decodes to is well formed and encodes to that descriptor, unless it is a read
with a data word, which is ignored (R101, log 15), and the bits of the descriptor are the bits it was read from; what a
phase code decodes to encodes to that phase code of that unit. -/
def Obligations.EncodeInvertsDecode : Prop :=
  (∀ (regw : Nat) (d : Descriptor), d.D < 2 ^ regw → (decodeHostOp d).wellFormed regw = true ∧
    (d.isWrite = true ∨ d.D = 0 → encode (decodeHostOp d) = .hostop d)) ∧
  (∀ regw x : Nat, x < 2 ^ (8 + regw) → (Descriptor.ofBits regw x).bits regw = x) ∧
  (∀ (regw : Nat) (u : UnitId) (p : PhaseCode) (i : Instr), decode (.phase u p) = .ok i →
    i.wellFormed regw = true ∧ encode i = .phase u p)

/-- R106: which operation the fields of a descriptor select, for each unit; where the fields stand among its `8 + REGW`
bits, at each width; and that the operation is that of the first row of the table that matches, at the width for which the
table is written. -/
def Obligations.DescriptorFieldsSelectTheOperation : Prop :=
  (∀ (reg : BitVec 6) (v : Nat),
    decodeHostOp (descriptorOf 0 0 reg.toNat v) = .pkRd reg ∧
    decodeHostOp (descriptorOf 1 0 reg.toNat v) = .upRd reg ∧
    (reg.toNat = 1 ∨ 5 ≤ reg.toNat → decodeHostOp (descriptorOf 0 1 reg.toNat v) = .pkWrIgnored reg v) ∧
    (reg.toNat = 1 ∨ 6 ≤ reg.toNat → decodeHostOp (descriptorOf 1 1 reg.toNat v) = .upWrIgnored reg v)) ∧
  (∀ v : Nat,
    decodeHostOp (descriptorOf 0 1 2 v) = .pkWrWidth v ∧
    decodeHostOp (descriptorOf 0 1 3 v) = .pkWrHeight v ∧
    decodeHostOp (descriptorOf 0 1 4 v) = .pkWrDepth v ∧
    decodeHostOp (descriptorOf 1 1 2 v) = .upWrWidth v ∧
    decodeHostOp (descriptorOf 1 1 3 v) = .upWrHeight v ∧
    decodeHostOp (descriptorOf 1 1 4 v) = .upWrDepth v ∧
    decodeHostOp (descriptorOf 1 1 5 v) = .upWrPalLen v ∧
    (3 ≤ v → decodeHostOp (descriptorOf 0 1 0 v) = .pkCmdIllegal v) ∧
    (3 ≤ v → decodeHostOp (descriptorOf 1 1 0 v) = .upCmdIllegal v)) ∧
  decodeHostOp (descriptorOf 0 1 0 0) = .pkNop ∧
  decodeHostOp (descriptorOf 0 1 0 1) = .pkStart ∧
  decodeHostOp (descriptorOf 0 1 0 2) = .pkReset ∧
  decodeHostOp (descriptorOf 1 1 0 0) = .upNop ∧
  decodeHostOp (descriptorOf 1 1 0 1) = .upStart ∧
  decodeHostOp (descriptorOf 1 1 0 2) = .upReset ∧
  (∀ regw unit wr reg v : Nat, unit < 2 → wr < 2 → reg < 64 → v < 2 ^ regw →
    Descriptor.ofBits regw (unit * 2 ^ (regw + 7) + wr * 2 ^ (regw + 6) + reg * 2 ^ regw + v) =
      descriptorOf unit wr reg v) ∧
  (∀ d : Descriptor, d.D < 2 ^ 32 →
    (tableRow (BitVec.ofNat 40 (d.bits 32))).map HostRow.mnemonic = some (mnemonicOf (decodeHostOp d)))

/-- R99: the bits of a token word, and how a word is read: with bit 8 set it is an end token with the code in bits 3:0,
whatever bits 7:4 are; no word that stands for a token has bit 8 and one of bits 7:4 set. -/
def Obligations.TokenWordFormat : Prop :=
  (∀ v : Byte, (encodeToken (.D v)).toNat = v.toNat) ∧
  (∀ c : BitVec 4, (encodeToken (.END c)).toNat = 256 + c.toNat) ∧
  (∀ w : TokenWord,
    (w.toNat < 256 → decodeToken w = .D (BitVec.ofNat 8 w.toNat)) ∧
    (256 ≤ w.toNat → decodeToken w = .END (BitVec.ofNat 4 w.toNat)))

/-- The micro-operation that a phase code selects in each unit (R107); no other code selects any (R108). That a unit in a
phase without a step runs an operation without effect, and that a code that no rule writes is refused, are the model's
choice (log 16, log 7). -/
def Obligations.PhaseCodeSelectsTheMicroOperation : Prop :=
  decode (.phase .PK 0) = .ok .pkIdle ∧ decode (.phase .PK 1) = .ok .pkAccum ∧
  decode (.phase .PK 2) = .ok .pkEmit ∧ decode (.phase .PK 3) = .ok .pkFlush ∧
  decode (.phase .PK 4) = .ok .pkPad ∧ decode (.phase .PK 5) = .ok .pkOkterm ∧
  decode (.phase .PK 6) = .ok .pkDone ∧ decode (.phase .PK 7) = .ok .pkFailterm ∧
  decode (.phase .PK 8) = .ok .pkErr ∧
  decode (.phase .UP 0) = .ok .upIdle ∧ decode (.phase .UP 1) = .ok .upFetch ∧
  decode (.phase .UP 2) = .ok .upExtract ∧ decode (.phase .UP 3) = .ok .upSkip ∧
  decode (.phase .UP 5) = .ok .upOkterm ∧ decode (.phase .UP 6) = .ok .upDone ∧
  decode (.phase .UP 7) = .ok .upFailterm ∧ decode (.phase .UP 8) = .ok .upErr ∧
  (∀ (u : UnitId) (p : PhaseCode), 9 ≤ p.toNat ∨ (u = .UP ∧ p.toNat = 4) →
    decode (.phase u p) = .error (.reservedPhase u p))

/-- Sanity: descriptors written out in 95_test_vectors.md section 2.5 decode to the operations they stand for, and so do
words of the table, numbered as the table numbers them (a phase code names no unit and is read as one of `PK`: the
model's choice, log 6). -/
def Obligations.WrittenOutWordsDecode : Prop :=
  decodeHostOp (.ofBits 32 0x4000000001) = .pkStart ∧ decodeHostOp (.ofBits 32 0xC000000002) = .upReset ∧
  decodeHostOp (.ofBits 32 0x4200000280) = .pkWrWidth 640 ∧ decodeHostOp (.ofBits 32 0xC500000011) = .upWrPalLen 17 ∧
  decodeHostOp (.ofBits 32 0x8100000000) = .upRd 1 ∧
  decodeHostOp (.ofBits 32 0x41FFFFFFFF) = .pkWrIgnored 1 0xFFFFFFFF ∧
  decodeTableWord 40 0xC300000000 = some (.upWrHeight 0) ∧ decodeTableWord 8 4 = some .pkPad

/-! ### The step -/

/-- A step runs the decoded operation: the host's descriptor at the head of the agenda, with the `REGW` bits that its data
word has on this block (log 18), or the micro-operation that the phase of the unit whose move it is selects. What the step
adds around `exec` is only that the move leaves the agenda or the turn passes. The agenda and the turn are the model's
choice (log 2, log 3). -/
def Obligations.StepRunsTheDecodedOperation : Prop :=
  ∀ (s : State) (i : Instr) (rest : List Move),
    (∀ d, s.agenda = .host d :: rest → decode (.hostop { A := d.A, D := d.D % 2 ^ s.cfg.REGW }) = .ok i →
      step s = exec i { s with agenda := rest }) ∧
    (∀ u, s.agenda = .microOp u :: rest → decode (.phase u (s.phaseOf u)) = .ok i →
      step s = exec i { s with agenda := rest }) ∧
    (s.agenda = [] → decode (.phase s.turn (s.phaseOf s.turn)) = .ok i →
      step s = exec i { s with turn := s.turn.other })

/-- A word of the table that is placed for the next step is what the next step runs, in the state it was placed in: as it
was, or with the phase of `PK` set to the phase code (log 6, log 12). On a block whose registers are narrower than the
table's data word the operation has the word's low `REGW` bits (log 18). -/
def Obligations.PlacedTableWordRunsNext : Prop :=
  ∀ (s : State) (nbits w : Nat) (i : Instr), decodeTableWord nbits w = some i →
    (8 < nbits → ∃ j : Instr,
      decode (.hostop { A := BitVec.ofNat 8 (w / 2 ^ 32), D := w % 2 ^ 32 % 2 ^ s.cfg.REGW }) = .ok j ∧
      step (s.withFetchWord nbits w) = exec j s ∧ (w % 2 ^ 32 < 2 ^ s.cfg.REGW → j = i)) ∧
    (nbits ≤ 8 →
      step (s.withFetchWord nbits w) = exec i { s with pk := { s.pk with PHASE := BitVec.ofNat 4 w } })

/-- The environment's moves (R65, R66): a source appends the token that its token word stands for (R99; that bits 7:4 of an
end token's word are dropped on entry and not by the unit is the model's choice, log 9), a sink takes the head token, the
environment clears the head token of an input channel; nothing else of the machine changes but that the move leaves the
agenda (the agenda is the model's choice, log 2, and so is the clearing, log 10). -/
def Obligations.EnvironmentMovesOneToken : Prop :=
  ∀ (s : State) (rest : List Move) (w : TokenWord),
    (s.agenda = .feed .PK w :: rest →
      step s = .next { s with agenda := rest, inPk := ⟨s.inPk.passed, s.inPk.queue ++ [decodeToken w]⟩ }) ∧
    (s.agenda = .feed .UP w :: rest →
      step s = .next { s with agenda := rest, inUp := ⟨s.inUp.passed, s.inUp.queue ++ [decodeToken w]⟩ }) ∧
    (∀ k ks, s.agenda = .drain .PK :: rest → s.outPk.queue = k :: ks →
      step s = .next { s with agenda := rest, outPk := ⟨s.outPk.passed ++ [k], ks⟩ }) ∧
    (∀ k ks, s.agenda = .drain .UP :: rest → s.outUp.queue = k :: ks →
      step s = .next { s with agenda := rest, outUp := ⟨s.outUp.passed ++ [k], ks⟩ }) ∧
    (∀ k ks, s.agenda = .discard .PK :: rest → s.inPk.queue = k :: ks →
      step s = .next { s with agenda := rest, inPk := ⟨s.inPk.passed, ks⟩ }) ∧
    (∀ k ks, s.agenda = .discard .UP :: rest → s.inUp.queue = k :: ks →
      step s = .next { s with agenda := rest, inUp := ⟨s.inUp.passed, ks⟩ })

/-- No step ends in a fault, and a step is refused exactly when it is the move of a unit whose phase is a code that no
rule writes (R108; the refusal is the model's choice, log 7). -/
def Obligations.StepStopsOnlyInAReservedPhase : Prop :=
  ∀ s : State,
    (∀ f : Fault, step s ≠ .fault f) ∧
    (∀ r : Refusal, step s = .refused r ↔
      ∃ u : UnitId, s.nextMove.1 = .microOp u ∧ r = .reservedPhase u (s.phaseOf u) ∧
        (9 ≤ (s.phaseOf u).toNat ∨ (u = .UP ∧ (s.phaseOf u).toNat = 4)))

/-! ### The invariant -/

/-- The invariant holds after hardware reset of a block with any legal parameter, and the four channels are then empty, with
no token taken (R252, log 14). -/
def Obligations.ResetMeetsTheInvariant : Prop :=
  State.reset.Inv ∧ (∀ c : Config, c.legal = true → (State.resetAt c).Inv) ∧
  (∀ c : Config,
    (State.resetAt c).inPk = ⟨[], []⟩ ∧ (State.resetAt c).outPk = ⟨[], []⟩ ∧
    (State.resetAt c).inUp = ⟨[], []⟩ ∧ (State.resetAt c).outUp = ⟨[], []⟩)

/-- Every step keeps the invariant (R46): the geometry registers hold the geometry of the active configuration, the
counters stay in their ranges, the accumulator has no bit above the bit count, `ERRCODE` is set exactly in `FAILTERM` and
`ERR`, the units have removed data tokens only (R66), in `DONE` and `ERR` the frame is closed (R79), and no register of
`REGW` bits exceeds them. -/
def Obligations.StepKeepsTheInvariant : Prop :=
  ∀ s t : State, s.Inv → step s = .next t → t.Inv

/-- From every state that meets the invariant a step answers a next state. That a unit that waits or has no step, and is
offered one, answers a next state in which only its move is spent is the model's choice (log 3, log 11, log 16): the spec
says that the unit waits (R64) or has no step (R168, R196). -/
def Obligations.InvariantStatesAlwaysStep : Prop :=
  ∀ s : State, s.Inv → ∃ t, step s = .next t

/-- Every interleaving runs: from hardware reset of a block with any legal parameter, with any moves of any agents placed
on the agenda, any number of steps answers a next state, and it meets the invariant (R46, R78). The agenda is the model's
choice (log 2), and so is it that the units are offered steps in turn when it is empty (log 3) and that a unit that waits or
has no step answers a next state in which only its move is spent (log 11, log 16). -/
def Obligations.EveryInterleavingRunsFromReset : Prop :=
  ∀ (c : Config) (moves : List Move) (n : Nat), c.legal = true →
    ∃ t : State, Host.Core.run Sys2Proof.core n { State.resetAt c with agenda := moves } = .next t ∧ t.Inv

/-! ### Reset -/

/-- R49: after hardware reset every state element of both units is 0, and `STATUS` reads 0, for each value of the
parameter. -/
def Obligations.HardwareResetClearsEverything : Prop :=
  ∀ c : Config,
    (State.resetAt c).pk =
      { WIDTH := 0, HEIGHT := 0, DEPTH := 0, W := 0, H := 0, S := 0, BITPAD := 0, BYTEW := 0, BYTEPAD := 0, ACC := 0,
        BITCNT := 0, COL := 0, ROW := 0, PADCNT := 0, PHASE := 0, ERRCODE := 0, CMDERR := false } ∧
    (State.resetAt c).up =
      { WIDTH := 0, HEIGHT := 0, DEPTH := 0, PAL_LEN := 0, W := 0, H := 0, S := 0, P := 0, BITPAD := 0, BYTEW := 0,
        BYTEPAD := 0, SHREG := 0, BITCNT := 0, COL := 0, ROW := 0, PADCNT := 0, PHASE := 0, ERRCODE := 0,
        CMDERR := false } ∧
    (State.resetAt c).pk.statusWord = 0 ∧ (State.resetAt c).up.statusWord = 0

/-! ### Host operations -/

/-- R135: `NOP`, a write of 0 to register 0, does nothing, in every phase. -/
def Obligations.NopChangesNothing : Prop :=
  decodeHostOp (descriptorOf 0 1 0 0) = .pkNop ∧ decodeHostOp (descriptorOf 1 1 0 0) = .upNop ∧
  ∀ s : State, exec .pkNop s = .next s ∧ exec .upNop s = .next s

/-- R132: a write to a configuration register stores the word, in every phase, legal value or not, and changes nothing
else; the register then reads as that word. -/
def Obligations.ConfigurationWriteStoresTheWord : Prop :=
  ∀ (s : State) (v : Nat),
    (decodeHostOp (descriptorOf 0 1 2 v) = .pkWrWidth v ∧
      ∃ p, exec (.pkWrWidth v) s = .next { s with pk := p } ∧ p = { s.pk with WIDTH := v } ∧ p.read 2 = v) ∧
    (decodeHostOp (descriptorOf 0 1 3 v) = .pkWrHeight v ∧
      ∃ p, exec (.pkWrHeight v) s = .next { s with pk := p } ∧ p = { s.pk with HEIGHT := v } ∧ p.read 3 = v) ∧
    (decodeHostOp (descriptorOf 0 1 4 v) = .pkWrDepth v ∧
      ∃ p, exec (.pkWrDepth v) s = .next { s with pk := p } ∧ p = { s.pk with DEPTH := v } ∧ p.read 4 = v) ∧
    (decodeHostOp (descriptorOf 1 1 2 v) = .upWrWidth v ∧
      ∃ p, exec (.upWrWidth v) s = .next { s with up := p } ∧ p = { s.up with WIDTH := v } ∧ p.read 2 = v) ∧
    (decodeHostOp (descriptorOf 1 1 3 v) = .upWrHeight v ∧
      ∃ p, exec (.upWrHeight v) s = .next { s with up := p } ∧ p = { s.up with HEIGHT := v } ∧ p.read 3 = v) ∧
    (decodeHostOp (descriptorOf 1 1 4 v) = .upWrDepth v ∧
      ∃ p, exec (.upWrDepth v) s = .next { s with up := p } ∧ p = { s.up with DEPTH := v } ∧ p.read 4 = v) ∧
    (decodeHostOp (descriptorOf 1 1 5 v) = .upWrPalLen v ∧
      ∃ p, exec (.upWrPalLen v) s = .next { s with up := p } ∧ p = { s.up with PAL_LEN := v } ∧ p.read 5 = v)

/-- R133: a write to a read-only or reserved register number changes nothing, `CMDERR` included. -/
def Obligations.WriteToReadOnlyOrReservedIsIgnored : Prop :=
  ∀ (s : State) (reg : BitVec 6) (v : Nat),
    (reg.toNat = 1 ∨ 5 ≤ reg.toNat →
      ∃ i, decode (.hostop (descriptorOf 0 1 reg.toNat v)) = .ok i ∧ i = .pkWrIgnored reg v ∧
        exec i s = .next s) ∧
    (reg.toNat = 1 ∨ 6 ≤ reg.toNat →
      ∃ i, decode (.hostop (descriptorOf 1 1 reg.toNat v)) = .ok i ∧ i = .upWrIgnored reg v ∧
        exec i s = .next s)

/-- R141: an illegal command sets `CMDERR` and changes nothing else: (a) `OPC = 3`, (b) a reserved bit set, whatever
`OPC`, (c) `START` in a phase that is not `IDLE` and not `DONE`. The flag stays set over every step but a `RESET`. -/
def Obligations.IllegalCommandSetsOnlyCmderr : Prop :=
  (∀ s : State,
    (∀ v : Nat, v % 4 = 3 ∨ 4 ≤ v →
      decodeHostOp (descriptorOf 0 1 0 v) = .pkCmdIllegal v ∧
      decodeHostOp (descriptorOf 1 1 0 v) = .upCmdIllegal v ∧
      exec (.pkCmdIllegal v) s = .next { s with pk := { s.pk with CMDERR := true } } ∧
      exec (.upCmdIllegal v) s = .next { s with up := { s.up with CMDERR := true } }) ∧
    (s.pk.PHASE ≠ 0#4 → s.pk.PHASE ≠ 6#4 → exec .pkStart s = .next { s with pk := { s.pk with CMDERR := true } }) ∧
    (s.up.PHASE ≠ 0#4 → s.up.PHASE ≠ 6#4 → exec .upStart s = .next { s with up := { s.up with CMDERR := true } })) ∧
  (∀ s t : State, step s = .next t →
    (s.pk.CMDERR = true → t.pk.CMDERR = true ∨
      ∃ d, s.nextMove.1 = .host d ∧ decodeHostOp (d.atWidth s.cfg.REGW) = .pkReset) ∧
    (s.up.CMDERR = true → t.up.CMDERR = true ∨
      ∃ d, s.nextMove.1 = .host d ∧ decodeHostOp (d.atWidth s.cfg.REGW) = .upReset))

/-- R40: `CMDERR` is set by a command that is not legal in the present phase and by nothing else, stays set until `RESET`,
is read as `STATUS[3]`, is 0 after hardware reset, and has no effect on any transform. -/
def Obligations.CmderrIsSticky : Prop :=
  (∀ c : Config, (State.resetAt c).pk.CMDERR = false ∧ (State.resetAt c).up.CMDERR = false) ∧
  (∀ r : UnitRegs, r.statusWord.testBit 3 = r.CMDERR) ∧
  (∀ (m : Move) (s : State), (environmentMove m s).pk.CMDERR = s.pk.CMDERR ∧
    (environmentMove m s).up.CMDERR = s.up.CMDERR) ∧
  (∀ (i : Instr) (s t : State), exec i s = .next t →
    (i = .pkReset → t.pk.CMDERR = false) ∧
    (i ≠ .pkReset → (t.pk.CMDERR = true ↔ s.pk.CMDERR = true ∨ (∃ d, i = .pkCmdIllegal d) ∨
      (i = .pkStart ∧ s.pk.PHASE ≠ 0#4 ∧ s.pk.PHASE ≠ 6#4))) ∧
    (i = .upReset → t.up.CMDERR = false) ∧
    (i ≠ .upReset → (t.up.CMDERR = true ↔ s.up.CMDERR = true ∨ (∃ d, i = .upCmdIllegal d) ∨
      (i = .upStart ∧ s.up.PHASE ≠ 0#4 ∧ s.up.PHASE ≠ 6#4)))) ∧
  (∀ (i : Instr) (s t : State) (b c : Bool), isHostOp i = false → exec i s = .next t →
    exec i { s with pk := { s.pk with CMDERR := b }, up := { s.up with CMDERR := c } } =
      .next { t with pk := { t.pk with CMDERR := b }, up := { t.up with CMDERR := c } })

/-- What a read returns, for every register number of both units (R131); no register, no channel and no flag changes. That
the value is kept in a list of the state is the model's choice (log 5). -/
def Obligations.ReadReturnsTheRegister : Prop :=
  ∀ (s : State) (reg : BitVec 6),
    decodeHostOp (descriptorOf 0 0 reg.toNat 0) = .pkRd reg ∧ decodeHostOp (descriptorOf 1 0 reg.toNat 0) = .upRd reg ∧
    (∃ v : Nat, exec (.pkRd reg) s = .next { s with readsPk := s.readsPk ++ [⟨reg, v⟩] } ∧
      (reg.toNat = 0 → v = 0) ∧ (reg.toNat = 1 → v = s.pk.statusWord) ∧ (reg.toNat = 2 → v = s.pk.WIDTH) ∧
      (reg.toNat = 3 → v = s.pk.HEIGHT) ∧ (reg.toNat = 4 → v = s.pk.DEPTH) ∧ (reg.toNat = 5 → v = 0) ∧
      (reg.toNat = 6 → v = s.pk.BITPAD.toNat) ∧ (reg.toNat = 7 → v = s.pk.BYTEW) ∧
      (reg.toNat = 8 → v = s.pk.BYTEPAD.toNat) ∧ (reg.toNat = 9 → v = s.pk.ROW) ∧
      (reg.toNat = 10 → v = s.pk.COL) ∧ (11 ≤ reg.toNat → v = 0)) ∧
    (∃ v : Nat, exec (.upRd reg) s = .next { s with readsUp := s.readsUp ++ [⟨reg, v⟩] } ∧
      (reg.toNat = 0 → v = 0) ∧ (reg.toNat = 1 → v = s.up.statusWord) ∧ (reg.toNat = 2 → v = s.up.WIDTH) ∧
      (reg.toNat = 3 → v = s.up.HEIGHT) ∧ (reg.toNat = 4 → v = s.up.DEPTH) ∧ (reg.toNat = 5 → v = s.up.PAL_LEN) ∧
      (reg.toNat = 6 → v = s.up.BITPAD.toNat) ∧ (reg.toNat = 7 → v = s.up.BYTEW) ∧
      (reg.toNat = 8 → v = s.up.BYTEPAD.toNat) ∧ (reg.toNat = 9 → v = s.up.ROW) ∧
      (reg.toNat = 10 → v = s.up.COL) ∧ (11 ≤ reg.toNat → v = 0))

/-- R41, R42: the `STATUS` word as a number, field by field, with the flags as functions of the phase; it is what register
1 reads as, a write to it is ignored, and after reset it is 0. In every state that meets the invariant `ERR` is set
exactly when `ERRCODE` is not 0. -/
def Obligations.StatusWordFields : Prop :=
  (∀ r : UnitRegs,
    (r.busy = true ↔ r.PHASE.toNat ∈ [1, 2, 3, 4, 5, 7]) ∧
    (r.done = true ↔ r.PHASE.toNat = 6) ∧
    (r.err = true ↔ r.PHASE.toNat ∈ [7, 8]) ∧
    r.statusWord = r.busy.toNat + 2 * r.done.toNat + 4 * r.err.toNat + 8 * r.CMDERR.toNat
      + 16 * r.ERRCODE.toNat + 256 * r.PHASE.toNat) ∧
  (∀ s : State, s.pk.read 1 = s.pk.statusWord ∧ s.up.read 1 = s.up.statusWord) ∧
  (∀ (s : State) (v : Nat), exec (.pkWrIgnored 1 v) s = .next s ∧ exec (.upWrIgnored 1 v) s = .next s) ∧
  (∀ c : Config, (State.resetAt c).pk.statusWord = 0 ∧ (State.resetAt c).up.statusWord = 0) ∧
  (∀ s : State, s.Inv → (s.pk.err = true ↔ s.pk.ERRCODE ≠ 0#4) ∧ (s.up.err = true ↔ s.up.ERRCODE ≠ 0#4))

/-- R139 with the geometry of R138: `START` in `IDLE` or `DONE` with a legal configuration latches it (in `UP` with
`PAL_LEN`, whatever its value), computes the geometry without overflow, clears the working registers and `ERRCODE` and
goes to `ACCUM` or `FETCH`, all in one step; channels, configuration registers, `CMDERR` and the other unit stay. -/
def Obligations.StartLatchesTheConfiguration : Prop :=
  ∀ s : State,
    (s.pk.PHASE = 0#4 ∨ s.pk.PHASE = 6#4 →
      s.pk.DEPTH = 1 ∨ s.pk.DEPTH = 4 ∨ s.pk.DEPTH = 8 →
      1 ≤ s.pk.WIDTH → 1 ≤ s.pk.HEIGHT →
      ∃ p : Packer, exec .pkStart s = .next { s with pk := p } ∧
        p = { s.pk with W := s.pk.WIDTH, H := s.pk.HEIGHT, S := p.S, BITPAD := p.BITPAD, BYTEW := p.BYTEW,
                        BYTEPAD := p.BYTEPAD, ACC := 0, BITCNT := 0, COL := 0, ROW := 0, PADCNT := 0,
                        ERRCODE := 0, PHASE := 1 } ∧
        decode (.phase .PK p.PHASE) = .ok .pkAccum ∧
        p.S.toNat = s.pk.DEPTH ∧
        p.BITPAD.toNat = (8 - s.pk.WIDTH * s.pk.DEPTH % 8) % 8 ∧
        8 * p.BYTEW = s.pk.WIDTH * s.pk.DEPTH + p.BITPAD.toNat ∧
        p.BYTEPAD.toNat = (4 - p.BYTEW % 4) % 4) ∧
    (s.up.PHASE = 0#4 ∨ s.up.PHASE = 6#4 →
      s.up.DEPTH = 1 ∨ s.up.DEPTH = 4 ∨ s.up.DEPTH = 8 →
      1 ≤ s.up.WIDTH → 1 ≤ s.up.HEIGHT →
      ∃ p : Unpacker, exec .upStart s = .next { s with up := p } ∧
        p = { s.up with W := s.up.WIDTH, H := s.up.HEIGHT, S := p.S, P := s.up.PAL_LEN, BITPAD := p.BITPAD,
                        BYTEW := p.BYTEW, BYTEPAD := p.BYTEPAD, SHREG := 0, BITCNT := 0, COL := 0, ROW := 0,
                        PADCNT := 0, ERRCODE := 0, PHASE := 1 } ∧
        decode (.phase .UP p.PHASE) = .ok .upFetch ∧
        p.S.toNat = s.up.DEPTH ∧
        p.BITPAD.toNat = (8 - s.up.WIDTH * s.up.DEPTH % 8) % 8 ∧
        8 * p.BYTEW = s.up.WIDTH * s.up.DEPTH + p.BITPAD.toNat ∧
        p.BYTEPAD.toNat = (4 - p.BYTEW % 4) % 4)

/-- R137: the configuration is legal when the whole word `DEPTH` is 1, 4 or 8 and no size is 0; `PAL_LEN` is not looked
at. `START` in `IDLE` or `DONE` with an illegal one takes the fault `E_CFG`: `ERRCODE <- 1`, `PHASE <- FAILTERM`, nothing
else; the unit then emits `END(1)` and stops in `ERR`. -/
def Obligations.StartFaultsOnAnIllegalConfiguration : Prop :=
  (∀ r : UnitRegs, r.configLegal = true ↔
    (r.DEPTH = 1 ∨ r.DEPTH = 4 ∨ r.DEPTH = 8) ∧ 1 ≤ r.WIDTH ∧ 1 ≤ r.HEIGHT) ∧
  (∀ s : State, s.pk.PHASE = 0#4 ∨ s.pk.PHASE = 6#4 →
    (s.pk.DEPTH ≠ 1 ∧ s.pk.DEPTH ≠ 4 ∧ s.pk.DEPTH ≠ 8) ∨ s.pk.WIDTH = 0 ∨
      s.pk.HEIGHT = 0 →
    ∃ t : State, exec .pkStart s = .next t ∧ t = { s with pk := { s.pk with ERRCODE := 1, PHASE := 7 } } ∧
      decode (.phase .PK t.pk.PHASE) = .ok .pkFailterm ∧
      exec .pkFailterm t = .next { t with outPk := ⟨t.outPk.passed, t.outPk.queue ++ [.END 1]⟩,
                                          pk := { t.pk with PHASE := 8 } }) ∧
  (∀ s : State, s.up.PHASE = 0#4 ∨ s.up.PHASE = 6#4 →
    (s.up.DEPTH ≠ 1 ∧ s.up.DEPTH ≠ 4 ∧ s.up.DEPTH ≠ 8) ∨ s.up.WIDTH = 0 ∨
      s.up.HEIGHT = 0 →
    ∃ t : State, exec .upStart s = .next t ∧ t = { s with up := { s.up with ERRCODE := 1, PHASE := 7 } } ∧
      decode (.phase .UP t.up.PHASE) = .ok .upFailterm ∧
      exec .upFailterm t = .next { t with outUp := ⟨t.outUp.passed, t.outUp.queue ++ [.END 1]⟩,
                                          up := { t.up with PHASE := 8 } })

/-- The closed forms and bounds of the geometry (R142, which the spec derives from R138). -/
def Obligations.GeometryClosedForms : Prop :=
  ∀ w s : Nat, 1 ≤ w → s = 1 ∨ s = 4 ∨ s = 8 →
    byteWidth w s = (w * s + 7) / 8 ∧
    stride w s = 4 * ((w * s + 31) / 32) ∧ stride w s = 4 * ((byteWidth w s + 3) / 4) ∧
    (s = 1 → bitPad w s = (8 - w % 8) % 8 ∧ byteWidth w s = (w + 7) / 8) ∧
    (s = 4 → bitPad w s = (if w % 2 = 1 then 4 else 0) ∧ byteWidth w s = (w + 1) / 2) ∧
    (s = 8 → bitPad w s = 0 ∧ byteWidth w s = w) ∧
    bitPad w s ≤ 7 ∧ bitPad w s % s = 0 ∧ bitPad w s ≤ 8 - s ∧ bytePad w s ≤ 3 ∧ stride w s % 4 = 0 ∧
    1 ≤ byteWidth w s ∧ byteWidth w s ≤ w ∧ (bitPad w s = 0 ↔ w % pixelsPerByte s = 0)

/-- R140: `RESET` clears the active configuration, the geometry, the working registers, `ERRCODE` and `CMDERR` of its own
unit and goes to `IDLE`, in every phase; the configuration registers, the channels and the other unit stay. -/
def Obligations.ResetCommandClearsItsUnit : Prop :=
  decodeHostOp (descriptorOf 0 1 0 2) = .pkReset ∧ decodeHostOp (descriptorOf 1 1 0 2) = .upReset ∧
  ∀ s : State,
    exec .pkReset s = .next { s with
      pk := { WIDTH := s.pk.WIDTH, HEIGHT := s.pk.HEIGHT, DEPTH := s.pk.DEPTH, W := 0, H := 0, S := 0, BITPAD := 0,
              BYTEW := 0, BYTEPAD := 0, ACC := 0, BITCNT := 0, COL := 0, ROW := 0, PADCNT := 0, PHASE := 0,
              ERRCODE := 0, CMDERR := false } } ∧
    exec .upReset s = .next { s with
      up := { WIDTH := s.up.WIDTH, HEIGHT := s.up.HEIGHT, DEPTH := s.up.DEPTH, PAL_LEN := s.up.PAL_LEN, W := 0, H := 0,
              S := 0, P := 0, BITPAD := 0, BYTEW := 0, BYTEPAD := 0, SHREG := 0, BITCNT := 0, COL := 0, ROW := 0,
              PADCNT := 0, PHASE := 0, ERRCODE := 0, CMDERR := false } }

/-- R26: the configuration registers do not influence a transform in progress: with other values in them every
micro-operation does the same to everything else, and leaves them; the next accepted `START` uses the values they then
hold. -/
def Obligations.ConfigurationWritesDoNotDisturbATransform : Prop :=
  (∀ (i : Instr) (s t : State) (w h d : Nat), isHostOp i = false → exec i s = .next t →
    exec i { s with pk := { s.pk with WIDTH := w, HEIGHT := h, DEPTH := d } } =
      .next { t with pk := { t.pk with WIDTH := w, HEIGHT := h, DEPTH := d } }) ∧
  (∀ (i : Instr) (s t : State) (w h d p : Nat), isHostOp i = false → exec i s = .next t →
    exec i { s with up := { s.up with WIDTH := w, HEIGHT := h, DEPTH := d, PAL_LEN := p } } =
      .next { t with up := { t.up with WIDTH := w, HEIGHT := h, DEPTH := d, PAL_LEN := p } }) ∧
  (∀ s t : State, s.pk.startAccepted = true → s.pk.configLegal = true → exec .pkStart s = .next t →
    t.pk.W = s.pk.WIDTH ∧ t.pk.H = s.pk.HEIGHT ∧ t.pk.S.toNat = s.pk.DEPTH) ∧
  (∀ s t : State, s.up.startAccepted = true → s.up.configLegal = true → exec .upStart s = .next t →
    t.up.W = s.up.WIDTH ∧ t.up.H = s.up.HEIGHT ∧ t.up.S.toNat = s.up.DEPTH ∧ t.up.P = s.up.PAL_LEN)

/-- R45: no register number tells two states of a unit apart that differ only in `W`, `H`, `S`, `P`, `ACC`, `SHREG`,
`BITCNT`, `PADCNT`. -/
def Obligations.WorkingRegistersAreNotReadable : Prop :=
  ∀ (s : State) (reg : BitVec 6) (w h p : Nat) (d : BitVec 4) (b : Byte) (n : BitVec 4) (k : BitVec 2),
    Packer.read { s.pk with W := w, H := h, S := d, ACC := b, BITCNT := n, PADCNT := k } reg = s.pk.read reg ∧
    Unpacker.read { s.up with W := w, H := h, S := d, P := p, SHREG := b, BITCNT := n, PADCNT := k } reg =
      s.up.read reg

/-! ### Micro-operations of the packer -/

/-- A unit that needs a token and finds its input channel empty waits: no state changes and no fault is raised (R64; that
the offered step is then a step without effect is the model's choice, log 11). -/
def Obligations.AnEmptyInputChannelIsWaitedOn : Prop :=
  ∀ s : State,
    (s.inPk.queue = [] → exec .pkAccum s = .next s) ∧
    (s.inUp.queue = [] → exec .upFetch s = .next s ∧ exec .upSkip s = .next s)

/-- R161: `PK.ACCUM`. An `END` token of any code is left and faults `E_TRUNC`; an index that does not fit is removed and
faults `E_RANGE`; a legal index is removed and taken into the accumulator. -/
def Obligations.PkAccumTakesOneIndex : Prop :=
  decode (.phase .PK 1) = .ok .pkAccum ∧
  ∀ s : State,
    (∀ c rest, s.inPk.queue = .END c :: rest →
      exec .pkAccum s = .next { s with pk := { s.pk with ERRCODE := 4, PHASE := 7 } }) ∧
    (∀ v rest, s.inPk.queue = .D v :: rest → 2 ^ s.pk.S.toNat ≤ v.toNat →
      exec .pkAccum s = .next { s with inPk := ⟨s.inPk.passed ++ [.D v], rest⟩,
                                       pk := { s.pk with ERRCODE := 2, PHASE := 7 } }) ∧
    (∀ v rest, s.inPk.queue = .D v :: rest → v.toNat < 2 ^ s.pk.S.toNat →
      ∃ p : Packer, exec .pkAccum s = .next { s with inPk := ⟨s.inPk.passed ++ [.D v], rest⟩, pk := p } ∧
        p = { s.pk with ACC := p.ACC, BITCNT := s.pk.BITCNT + s.pk.S, COL := s.pk.COL + 1, PHASE := p.PHASE } ∧
        p.ACC.toNat = ((s.pk.ACC.toNat <<< s.pk.S.toNat) ||| v.toNat) % 256 ∧
        (p.BITCNT.toNat = 8 → p.PHASE = 2#4) ∧
        (p.BITCNT.toNat < 8 ∧ p.COL = p.W → p.PHASE = 3#4) ∧
        (p.BITCNT.toNat ≠ 8 ∧ ¬ (p.BITCNT.toNat < 8 ∧ p.COL = p.W) → p.PHASE = 1#4))

/-- What `PK.ACCUM` does to numbers, in every state the invariant admits (R30, R143, which rest on R46): no set bit is
lost, the index is added below the earlier ones, and no counter wraps. -/
def Obligations.PkAccumLosesNoBit : Prop :=
  ∀ (s : State) (v : Byte) (rest : List Token), s.Inv → s.pk.PHASE = 1#4 → s.inPk.queue = .D v :: rest →
    v.toNat < 2 ^ s.pk.S.toNat →
    ∃ t : State, exec .pkAccum s = .next t ∧
      t.pk.ACC.toNat = s.pk.ACC.toNat * 2 ^ s.pk.S.toNat + v.toNat ∧
      t.pk.BITCNT.toNat = s.pk.BITCNT.toNat + s.pk.S.toNat ∧ t.pk.BITCNT.toNat ≤ 8 ∧
      t.pk.COL = s.pk.COL + 1 ∧ t.pk.COL ≤ s.pk.W ∧ t.pk.COL < 2 ^ s.cfg.REGW

/-- R162: `PK.EMIT` appends the accumulator, empties it, and goes on in the row or ends it. -/
def Obligations.PkEmitAppendsTheAccumulator : Prop :=
  decode (.phase .PK 2) = .ok .pkEmit ∧
  ∀ s : State, ∃ p : Packer,
    exec .pkEmit s = .next { s with outPk := ⟨s.outPk.passed, s.outPk.queue ++ [.D s.pk.ACC]⟩, pk := p } ∧
    (s.pk.COL ≠ s.pk.W → p = { s.pk with ACC := 0, BITCNT := 0, PHASE := 1 }) ∧
    (s.pk.COL = s.pk.W → s.pk.BYTEPAD ≠ 0#2 →
      p = { s.pk with ACC := 0, BITCNT := 0, PADCNT := s.pk.BYTEPAD, PHASE := 4 }) ∧
    (s.pk.COL = s.pk.W → s.pk.BYTEPAD = 0#2 → s.pk.ROW + 1 ≠ s.pk.H →
      p = { s.pk with ACC := 0, BITCNT := 0, PADCNT := 0, ROW := s.pk.ROW + 1, COL := 0, PHASE := 1 }) ∧
    (s.pk.COL = s.pk.W → s.pk.BYTEPAD = 0#2 → s.pk.ROW + 1 = s.pk.H →
      p = { s.pk with ACC := 0, BITCNT := 0, PADCNT := 0, ROW := s.pk.ROW + 1, COL := 0, PHASE := 5 })

/-- R163: `PK.FLUSH` appends the partial accumulator with its indices moved to the top and zeros below, empties
it, and ends the row. -/
def Obligations.PkFlushAppendsThePartialByte : Prop :=
  decode (.phase .PK 3) = .ok .pkFlush ∧
  ∀ s : State, ∃ (p : Packer) (b : Byte),
    exec .pkFlush s = .next { s with outPk := ⟨s.outPk.passed, s.outPk.queue ++ [.D b]⟩, pk := p } ∧
    b.toNat = (s.pk.ACC.toNat <<< s.pk.BITPAD.toNat) % 256 ∧
    (s.pk.BYTEPAD ≠ 0#2 → p = { s.pk with ACC := 0, BITCNT := 0, PADCNT := s.pk.BYTEPAD, PHASE := 4 }) ∧
    (s.pk.BYTEPAD = 0#2 → s.pk.ROW + 1 ≠ s.pk.H →
      p = { s.pk with ACC := 0, BITCNT := 0, PADCNT := 0, ROW := s.pk.ROW + 1, COL := 0, PHASE := 1 }) ∧
    (s.pk.BYTEPAD = 0#2 → s.pk.ROW + 1 = s.pk.H →
      p = { s.pk with ACC := 0, BITCNT := 0, PADCNT := 0, ROW := s.pk.ROW + 1, COL := 0, PHASE := 5 })

/-- R164: `PK.PAD` appends a zero byte and counts it; after the last one the row is over. -/
def Obligations.PkPadAppendsAZeroByte : Prop :=
  decode (.phase .PK 4) = .ok .pkPad ∧
  ∀ s : State, ∃ p : Packer,
    exec .pkPad s = .next { s with outPk := ⟨s.outPk.passed, s.outPk.queue ++ [.D 0]⟩, pk := p } ∧
    (s.pk.PADCNT ≠ 1#2 → p = { s.pk with PADCNT := s.pk.PADCNT - 1, PHASE := 4 }) ∧
    (s.pk.PADCNT = 1#2 → s.pk.ROW + 1 ≠ s.pk.H →
      p = { s.pk with PADCNT := 0, ROW := s.pk.ROW + 1, COL := 0, PHASE := 1 }) ∧
    (s.pk.PADCNT = 1#2 → s.pk.ROW + 1 = s.pk.H →
      p = { s.pk with PADCNT := 0, ROW := s.pk.ROW + 1, COL := 0, PHASE := 5 })

/-- R166, R167, R194, R195: the end token that closes a frame, `END(0)` before `DONE` and `END(ERRCODE)` before `ERR`. -/
def Obligations.TerminationClosesTheFrame : Prop :=
  decode (.phase .PK 5) = .ok .pkOkterm ∧ decode (.phase .PK 7) = .ok .pkFailterm ∧
  decode (.phase .UP 5) = .ok .upOkterm ∧ decode (.phase .UP 7) = .ok .upFailterm ∧
  ∀ s : State,
    exec .pkOkterm s = .next { s with outPk := ⟨s.outPk.passed, s.outPk.queue ++ [.END 0]⟩,
                                      pk := { s.pk with PHASE := 6 } } ∧
    exec .pkFailterm s = .next { s with outPk := ⟨s.outPk.passed, s.outPk.queue ++ [.END s.pk.ERRCODE]⟩,
                                        pk := { s.pk with PHASE := 8 } } ∧
    exec .upOkterm s = .next { s with outUp := ⟨s.outUp.passed, s.outUp.queue ++ [.END 0]⟩,
                                      up := { s.up with PHASE := 6 } } ∧
    exec .upFailterm s = .next { s with outUp := ⟨s.outUp.passed, s.outUp.queue ++ [.END s.up.ERRCODE]⟩,
                                        up := { s.up with PHASE := 8 } }

/-- In `IDLE`, `DONE` and `ERR` a unit has no step (R168, R196): the rows of the table that stand for these phases change
nothing (that they are steps without effect is the model's choice, log 16). -/
def Obligations.RestingPhasesHaveNoStep : Prop :=
  ∀ s : State,
    exec .pkIdle s = .next s ∧ exec .pkDone s = .next s ∧ exec .pkErr s = .next s ∧
    exec .upIdle s = .next s ∧ exec .upDone s = .next s ∧ exec .upErr s = .next s

/-! ### Micro-operations of the unpacker -/

/-- R191: `UP.FETCH`. An `END` token of any code is left and faults `E_TRUNC`; a byte is removed and loaded. -/
def Obligations.UpFetchTakesOneByte : Prop :=
  decode (.phase .UP 1) = .ok .upFetch ∧
  ∀ s : State,
    (∀ c rest, s.inUp.queue = .END c :: rest →
      exec .upFetch s = .next { s with up := { s.up with ERRCODE := 4, PHASE := 7 } }) ∧
    (∀ b rest, s.inUp.queue = .D b :: rest →
      exec .upFetch s = .next { s with inUp := ⟨s.inUp.passed ++ [.D b], rest⟩,
                                       up := { s.up with SHREG := b, BITCNT := 0, PHASE := 2 } })

/-- R192: `UP.EXTRACT`. The index is the number in the top `S` bits. An index at or above `P` faults `E_DECODE` and nothing
is emitted; any other is emitted and the unit goes on in the byte, to the next byte, to the padding, to the next row or to
the end. -/
def Obligations.UpExtractGivesOutOneIndex : Prop :=
  decode (.phase .UP 2) = .ok .upExtract ∧
  ∀ (s : State) (ix : Nat), ix = s.up.SHREG.toNat / 2 ^ (8 - s.up.S.toNat) →
    (s.up.P ≤ ix → exec .upExtract s = .next { s with up := { s.up with ERRCODE := 3, PHASE := 7 } }) ∧
    (ix < s.up.P → ∃ p : Unpacker,
      exec .upExtract s = .next { s with outUp := ⟨s.outUp.passed, s.outUp.queue ++ [.D (BitVec.ofNat 8 ix)]⟩,
                                         up := p } ∧
      p = { s.up with SHREG := p.SHREG, BITCNT := s.up.BITCNT + s.up.S, COL := p.COL, ROW := p.ROW, PADCNT := p.PADCNT,
                      PHASE := p.PHASE } ∧
      p.SHREG.toNat = (s.up.SHREG.toNat <<< s.up.S.toNat) % 256 ∧
      (s.up.COL + 1 ≠ s.up.W → p.COL = s.up.COL + 1 ∧ p.ROW = s.up.ROW ∧ p.PADCNT = s.up.PADCNT ∧
        (p.BITCNT.toNat = 8 → p.PHASE = 1#4) ∧ (p.BITCNT.toNat ≠ 8 → p.PHASE = 2#4)) ∧
      (s.up.COL + 1 = s.up.W → p.COL = 0 ∧ p.ROW = s.up.ROW + 1 ∧
        (p.ROW = s.up.H → p.PADCNT = s.up.PADCNT ∧ p.PHASE = 5#4) ∧
        (p.ROW ≠ s.up.H → p.PADCNT = s.up.BYTEPAD ∧ (s.up.BYTEPAD = 0#2 → p.PHASE = 1#4) ∧
          (s.up.BYTEPAD ≠ 0#2 → p.PHASE = 3#4))))

/-- R193: `UP.SKIP`. An `END` token of any code is left and faults `E_TRUNC`; a padding byte is removed whatever its value
and counted. -/
def Obligations.UpSkipDiscardsOneByte : Prop :=
  decode (.phase .UP 3) = .ok .upSkip ∧
  ∀ s : State,
    (∀ c rest, s.inUp.queue = .END c :: rest →
      exec .upSkip s = .next { s with up := { s.up with ERRCODE := 4, PHASE := 7 } }) ∧
    (∀ b rest, s.inUp.queue = .D b :: rest →
      ∃ p : Unpacker, exec .upSkip s = .next { s with inUp := ⟨s.inUp.passed ++ [.D b], rest⟩, up := p } ∧
        p = { s.up with PADCNT := s.up.PADCNT - 1, PHASE := p.PHASE } ∧
        (p.PADCNT = 0#2 → p.PHASE = 1#4) ∧ (p.PADCNT ≠ 0#2 → p.PHASE = 3#4))

/-! ### Rules about the whole machine -/

/-- R224: whatever takes a unit into `FAILTERM` is fault entry: `ERRCODE` and `PHASE` are written and no other register,
nothing is appended to its output channel, its input channel keeps its tokens but for the offending index of `E_RANGE`;
`STATUS` then shows `ERR` and `BUSY`, and the micro-operation that comes next is `FAILTERM`. -/
def Obligations.FaultEntryWritesCodeAndPhaseOnly : Prop :=
  ∀ (i : Instr) (s t : State), exec i s = .next t →
    (s.pk.PHASE ≠ 7#4 → t.pk.PHASE = 7#4 →
      1 ≤ t.pk.ERRCODE.toNat ∧ t.pk.ERRCODE.toNat ≤ 4 ∧
      t.pk = { s.pk with ERRCODE := t.pk.ERRCODE, PHASE := 7 } ∧ t = { s with pk := t.pk, inPk := t.inPk } ∧
      (t.inPk = s.inPk ∨ (i = .pkAccum ∧ t.pk.ERRCODE = 2#4 ∧
        ∃ v rest, s.inPk.queue = .D v :: rest ∧ t.inPk = ⟨s.inPk.passed ++ [.D v], rest⟩)) ∧
      t.pk.err = true ∧ t.pk.busy = true ∧ decode (.phase .PK t.pk.PHASE) = .ok .pkFailterm) ∧
    (s.up.PHASE ≠ 7#4 → t.up.PHASE = 7#4 →
      1 ≤ t.up.ERRCODE.toNat ∧ t.up.ERRCODE.toNat ≤ 4 ∧
      t.up = { s.up with ERRCODE := t.up.ERRCODE, PHASE := 7 } ∧ t = { s with up := t.up } ∧
      t.up.err = true ∧ t.up.busy = true ∧ decode (.phase .UP t.up.PHASE) = .ok .upFailterm)

/-- Which operation raises which fault, and why (R221, R229). -/
def Obligations.EveryFaultHasItsCause : Prop :=
  ∀ (i : Instr) (s t : State), exec i s = .next t →
    (s.pk.PHASE ≠ 7#4 → t.pk.PHASE = 7#4 →
      (i = .pkStart ∧ t.pk.ERRCODE = 1#4 ∧ s.pk.configLegal = false) ∨
      (i = .pkAccum ∧ t.pk.ERRCODE = 2#4 ∧ ∃ v rest, s.inPk.queue = .D v :: rest ∧ 2 ^ s.pk.S.toNat ≤ v.toNat) ∨
      (i = .pkAccum ∧ t.pk.ERRCODE = 4#4 ∧ ∃ c rest, s.inPk.queue = .END c :: rest)) ∧
    (s.up.PHASE ≠ 7#4 → t.up.PHASE = 7#4 →
      (i = .upStart ∧ t.up.ERRCODE = 1#4 ∧ s.up.configLegal = false) ∨
      (i = .upExtract ∧ t.up.ERRCODE = 3#4 ∧ s.up.P ≤ s.up.SHREG.toNat / 2 ^ (8 - s.up.S.toNat)) ∨
      ((i = .upFetch ∨ i = .upSkip) ∧ t.up.ERRCODE = 4#4 ∧ ∃ c rest, s.inUp.queue = .END c :: rest))

/-- R227: `FAILTERM` and `ERR` are left by `RESET` only, which clears `ERRCODE` and goes to `IDLE`; no other operation
that may run there changes `ERRCODE`, and `START` is refused with `CMDERR`. -/
def Obligations.OnlyResetLeavesAFault : Prop :=
  ∀ (i : Instr) (s t : State), Selected i s → exec i s = .next t →
    (s.pk.PHASE = 7#4 ∨ s.pk.PHASE = 8#4 →
      (i ≠ .pkReset → (t.pk.PHASE = 7#4 ∨ t.pk.PHASE = 8#4) ∧ t.pk.ERRCODE = s.pk.ERRCODE) ∧
      (i = .pkReset → t.pk.PHASE = 0#4 ∧ t.pk.ERRCODE = 0#4) ∧
      (i = .pkStart → t = { s with pk := { s.pk with CMDERR := true } })) ∧
    (s.up.PHASE = 7#4 ∨ s.up.PHASE = 8#4 →
      (i ≠ .upReset → (t.up.PHASE = 7#4 ∨ t.up.PHASE = 8#4) ∧ t.up.ERRCODE = s.up.ERRCODE) ∧
      (i = .upReset → t.up.PHASE = 0#4 ∧ t.up.ERRCODE = 0#4) ∧
      (i = .upStart → t = { s with up := { s.up with CMDERR := true } }))

/-- R77: the units do not see each other. An operation of one leaves everything of the other, and operations of the two
units have the same joint effect in either order. -/
def Obligations.UnitsDoNotInterfere : Prop :=
  ∀ (i j : Instr) (s a b : State), unitOf i = .PK → unitOf j = .UP → exec i s = .next a → exec j s = .next b →
    a = { s with pk := a.pk, inPk := a.inPk, outPk := a.outPk, readsPk := a.readsPk } ∧
    b = { s with up := b.up, inUp := b.inUp, outUp := b.outUp, readsUp := b.readsUp } ∧
    ∃ t : State, exec j a = .next t ∧ exec i b = .next t

/-- R74: an operation makes at most one channel transfer, one `Pop` of a data token or one `Push`; a host
operation makes none. An `END` token is never removed. -/
def Obligations.AtMostOneTransferAStep : Prop :=
  ∀ (i : Instr) (s t : State), exec i s = .next t →
    (t.inPk = s.inPk ∧ t.outPk = s.outPk ∧ t.inUp = s.inUp ∧ t.outUp = s.outUp) ∨
    (isHostOp i = false ∧ t.outPk = s.outPk ∧ t.inUp = s.inUp ∧ t.outUp = s.outUp ∧
      ∃ v rest, s.inPk.queue = .D v :: rest ∧ t.inPk = ⟨s.inPk.passed ++ [.D v], rest⟩) ∨
    (isHostOp i = false ∧ t.inPk = s.inPk ∧ t.inUp = s.inUp ∧ t.outUp = s.outUp ∧
      ∃ k, t.outPk = ⟨s.outPk.passed, s.outPk.queue ++ [k]⟩) ∨
    (isHostOp i = false ∧ t.inPk = s.inPk ∧ t.outPk = s.outPk ∧ t.outUp = s.outUp ∧
      ∃ v rest, s.inUp.queue = .D v :: rest ∧ t.inUp = ⟨s.inUp.passed ++ [.D v], rest⟩) ∨
    (isHostOp i = false ∧ t.inPk = s.inPk ∧ t.outPk = s.outPk ∧ t.inUp = s.inUp ∧
      ∃ k, t.outUp = ⟨s.outUp.passed, s.outUp.queue ++ [k]⟩)

/-- The output is a function of the tokens and not of their timing (R76, which the spec derives): a token fed before a
micro-operation that does not wait gives the same state as one fed after it. Only a micro-operation that reads a token can
wait, and only while the channel it reads is empty; every other one may find the fed channel empty. -/
def Obligations.FeedingEarlierChangesNothing : Prop :=
  ∀ (i : Instr) (s t : State) (w : TokenWord), isHostOp i = false → exec i s = .next t →
    ((i = .pkAccum → s.inPk.queue ≠ []) →
      exec i (environmentMove (.feed .PK w) s) = .next (environmentMove (.feed .PK w) t)) ∧
    ((i = .upFetch ∨ i = .upSkip → s.inUp.queue ≠ []) →
      exec i (environmentMove (.feed .UP w) s) = .next (environmentMove (.feed .UP w) t))

/-- The arrows of the phase graphs of R160 and R190: every change of phase, by any operation that may run, is one of
them. -/
def Obligations.PhaseChangesFollowTheGraph : Prop :=
  ∀ (i : Instr) (s t : State), Selected i s → exec i s = .next t →
    (t.pk.PHASE ≠ s.pk.PHASE → (i = .pkReset ∧ t.pk.PHASE = 0#4) ∨
      (s.pk.PHASE.toNat, t.pk.PHASE.toNat) ∈
        [(0, 1), (0, 7), (1, 2), (1, 3), (1, 7), (2, 1), (2, 4), (2, 5), (3, 4), (3, 1), (3, 5), (4, 1), (4, 5),
         (5, 6), (7, 8), (6, 1), (6, 7)]) ∧
    (t.up.PHASE ≠ s.up.PHASE → (i = .upReset ∧ t.up.PHASE = 0#4) ∨
      (s.up.PHASE.toNat, t.up.PHASE.toNat) ∈
        [(0, 1), (0, 7), (1, 2), (1, 7), (2, 7), (2, 1), (2, 5), (2, 3), (3, 1), (3, 7), (5, 6), (7, 8), (6, 1),
         (6, 7)])

/-- R21: a configuration register holds the last value written to it by the host and reads back as that value; no other
operation of either unit and no move of the environment changes it. -/
def Obligations.OnlyTheHostWritesConfiguration : Prop :=
  (∀ (m : Move) (s : State), (environmentMove m s).pk = s.pk ∧ (environmentMove m s).up = s.up) ∧
  ∀ (i : Instr) (s t : State), exec i s = .next t →
    (∀ v, i = .pkWrWidth v → t.pk.WIDTH = v ∧ t.pk.read 2 = v) ∧
    ((∀ v, i ≠ .pkWrWidth v) → t.pk.WIDTH = s.pk.WIDTH) ∧
    (∀ v, i = .pkWrHeight v → t.pk.HEIGHT = v ∧ t.pk.read 3 = v) ∧
    ((∀ v, i ≠ .pkWrHeight v) → t.pk.HEIGHT = s.pk.HEIGHT) ∧
    (∀ v, i = .pkWrDepth v → t.pk.DEPTH = v ∧ t.pk.read 4 = v) ∧
    ((∀ v, i ≠ .pkWrDepth v) → t.pk.DEPTH = s.pk.DEPTH) ∧
    (∀ v, i = .upWrWidth v → t.up.WIDTH = v ∧ t.up.read 2 = v) ∧
    ((∀ v, i ≠ .upWrWidth v) → t.up.WIDTH = s.up.WIDTH) ∧
    (∀ v, i = .upWrHeight v → t.up.HEIGHT = v ∧ t.up.read 3 = v) ∧
    ((∀ v, i ≠ .upWrHeight v) → t.up.HEIGHT = s.up.HEIGHT) ∧
    (∀ v, i = .upWrDepth v → t.up.DEPTH = v ∧ t.up.read 4 = v) ∧
    ((∀ v, i ≠ .upWrDepth v) → t.up.DEPTH = s.up.DEPTH) ∧
    (∀ v, i = .upWrPalLen v → t.up.PAL_LEN = v ∧ t.up.read 5 = v) ∧
    ((∀ v, i ≠ .upWrPalLen v) → t.up.PAL_LEN = s.up.PAL_LEN)

/-- The active configuration and the geometry are written by `START` and `RESET` of their unit only (R20, R28, R29). -/
def Obligations.OnlyStartAndResetWriteTheActiveConfiguration : Prop :=
  ∀ (i : Instr) (s t : State), exec i s = .next t →
    (i ≠ .pkStart → i ≠ .pkReset →
      t.pk.W = s.pk.W ∧ t.pk.H = s.pk.H ∧ t.pk.S = s.pk.S ∧ t.pk.BITPAD = s.pk.BITPAD ∧ t.pk.BYTEW = s.pk.BYTEW ∧
      t.pk.BYTEPAD = s.pk.BYTEPAD) ∧
    (i ≠ .upStart → i ≠ .upReset →
      t.up.W = s.up.W ∧ t.up.H = s.up.H ∧ t.up.S = s.up.S ∧ t.up.P = s.up.P ∧ t.up.BITPAD = s.up.BITPAD ∧
      t.up.BYTEW = s.up.BYTEW ∧ t.up.BYTEPAD = s.up.BYTEPAD)

/-! ### Whole transforms

The statements that run a transform ask for a legal parameter (R5), which the invariant gives: with registers of no bits
the word 1 that `START` writes would be cut to 0. -/

/-- The index of lane `j` of a packed byte stands in bits `7 − jS` down to `8 − (j+1)S`, and the bits below the last lane
are 0 (R94, R95, R170, which the spec derives from the three byte formats). -/
def Obligations.IndexStandsInItsLane : Prop :=
  ∀ (s : Nat) (vs : List Byte), s = 1 ∨ s = 4 ∨ s = 8 → vs.length ≤ pixelsPerByte s →
    (∀ v ∈ vs, v.toNat < 2 ^ s) →
    (∀ (j : Nat) (h : j < vs.length), lane s (packByte s vs) j = vs[j]) ∧
    (packByte s vs).toNat % 2 ^ (8 - s * vs.length) = 0

/-- The packed block has `H × STRIDE` bytes, a multiple of 4, and row `r` of it, from offset `r × STRIDE` on, is the packing
of row `r` of the image: rows share no byte (R72, R96, R97, R170). -/
def Obligations.PackedRowsAreAligned : Prop :=
  ∀ (w h s : Nat) (idx : List Byte),
    (pack w h s idx).length = h * stride w s ∧ (pack w h s idx).length % 4 = 0 ∧
    ∀ r, r < h →
      ((pack w h s idx).drop (r * stride w s)).take (stride w s) = packRow w s ((idx.drop (r * w)).take w)

/-- The function `Unpack` inverts the function `Pack` (R200, which the spec derives). -/
def Obligations.UnpackInvertsPack : Prop :=
  ∀ (w h s : Nat) (idx : List Byte), 1 ≤ w → 1 ≤ h → s = 1 ∨ s = 4 ∨ s = 8 → idx.length = w * h →
    (∀ v ∈ idx, v.toNat < 2 ^ s) → unpack w h s (pack w h s idx) = idx

/-- Padding is not looked at (R199, which the spec derives): two blocks that agree in the pixel bytes of their rows, but
for the `BITPAD` low bits of the last one of each row, unpack to the same indices. -/
def Obligations.PaddingDoesNotMatter : Prop :=
  ∀ (w h s : Nat) (bs bs' : List Byte), 1 ≤ w → s = 1 ∨ s = 4 ∨ s = 8 →
    (∀ r m, r < h → m + 1 < byteWidth w s → bs.getD (r * stride w s + m) 0 = bs'.getD (r * stride w s + m) 0) →
    (∀ r, r < h →
      (bs.getD (r * stride w s + (byteWidth w s - 1)) 0).toNat / 2 ^ bitPad w s =
        (bs'.getD (r * stride w s + (byteWidth w s - 1)) 0).toNat / 2 ^ bitPad w s) →
    unpack w h s bs = unpack w h s bs'

/-- The packer computes `Pack` (R171, R172, which the spec derives): from `IDLE` or `DONE`, with a legal configuration and
its indices standing in the input channel, `START` and exactly `W × H + H × BYTEW + H × BYTEPAD + 1` micro-operations
remove exactly the indices, append the bytes of `Pack` and `END(0)`, and end in `DONE`. The transform runs by itself; that
it runs as moves of an agenda is the model's choice (log 2). -/
def Obligations.PackerComputesPack : Prop :=
  ∀ (s : State) (w h d : Nat) (idx : List Byte) (rest : List Token) (moves : List Move),
    s.cfg.legal = true → s.pk.PHASE = 0#4 ∨ s.pk.PHASE = 6#4 → s.pk.WIDTH = w →
    s.pk.HEIGHT = h → s.pk.DEPTH = d → 1 ≤ w → 1 ≤ h → d = 1 ∨ d = 4 ∨ d = 8 → idx.length = w * h → (∀ v ∈ idx, v.toNat < 2 ^ d) →
    s.inPk.queue = dataTokens idx ++ rest →
    ∃ p : Packer,
      Host.Core.run Sys2Proof.core (1 + packSteps w h d)
          { s with agenda := transformAgenda .PK (packSteps w h d) moves } =
        .next { s with pk := p, inPk := ⟨s.inPk.passed ++ dataTokens idx, rest⟩,
                       outPk := ⟨s.outPk.passed, s.outPk.queue ++ frame (pack w h d idx) 0⟩, agenda := moves } ∧
      p.PHASE = 6#4 ∧ p.ERRCODE = 0#4 ∧ p.ROW = h ∧ p.COL = 0

/-- The unpacker computes `Unpack` (R198 (a), which the spec derives): from `IDLE` or `DONE`, with a legal configuration,
at least `NEED` bytes standing in the input channel and every index below the palette length, `START` and a fixed number
of micro-operations remove exactly `NEED` bytes, append the indices and `END(0)`, and end in `DONE`. That the transform
runs as moves of an agenda is the model's choice (log 2). -/
def Obligations.UnpackerComputesUnpack : Prop :=
  ∀ (s : State) (w h d : Nat) (bs : List Byte) (rest : List Token) (moves : List Move),
    s.cfg.legal = true → s.up.PHASE = 0#4 ∨ s.up.PHASE = 6#4 → s.up.WIDTH = w →
    s.up.HEIGHT = h → s.up.DEPTH = d → 1 ≤ w → 1 ≤ h → d = 1 ∨ d = 4 ∨ d = 8 → bs.length = bytesNeeded w h d →
    (∀ v ∈ unpack w h d bs, v.toNat < s.up.PAL_LEN) →
    s.inUp.queue = dataTokens bs ++ rest →
    ∃ p : Unpacker,
      Host.Core.run Sys2Proof.core (1 + unpackSteps w h d)
          { s with agenda := transformAgenda .UP (unpackSteps w h d) moves } =
        .next { s with up := p, inUp := ⟨s.inUp.passed ++ dataTokens bs, rest⟩,
                       outUp := ⟨s.outUp.passed, s.outUp.queue ++ frame (unpack w h d bs) 0⟩, agenda := moves } ∧
      p.PHASE = 6#4 ∧ p.ERRCODE = 0#4 ∧ p.ROW = h ∧ p.COL = 0

/-- A bad index stops the unpacker at the first offending pixel (R198 (b), which the spec derives): if pixel `q` is the
first whose index is not below the palette length, and the byte that holds it has been supplied, the frame is the `q`
indices before it and `END(3)`, and `ROW`, `COL` give its position. That the transform runs as moves of an agenda is the
model's choice (log 2). -/
def Obligations.UnpackerStopsAtTheFirstBadIndex : Prop :=
  ∀ (s : State) (w h d q : Nat) (bs : List Byte) (rest : List Token),
    s.cfg.legal = true → s.up.PHASE = 0#4 ∨ s.up.PHASE = 6#4 → s.up.WIDTH = w →
    s.up.HEIGHT = h → s.up.DEPTH = d → 1 ≤ w → 1 ≤ h → d = 1 ∨ d = 4 ∨ d = 8 → q < w * h →
    s.up.PAL_LEN ≤ (indexAt w d bs (q / w) (q % w)).toNat →
    (∀ k, k < q → (indexAt w d bs (k / w) (k % w)).toNat < s.up.PAL_LEN) →
    bs.length = pixelByteAt w d (q / w) (q % w) + 1 → s.inUp.queue = dataTokens bs ++ rest →
    ∃ n : Nat, ∀ moves : List Move,
      ∃ p : Unpacker,
        Host.Core.run Sys2Proof.core (1 + n)
            { s with agenda := transformAgenda .UP n moves } =
          .next { s with up := p, inUp := ⟨s.inUp.passed ++ dataTokens bs, rest⟩,
                         outUp := ⟨s.outUp.passed, s.outUp.queue ++ frame ((unpack w h d bs).take q) 3⟩,
                         agenda := moves } ∧
        p.PHASE = 8#4 ∧ p.ERRCODE = 3#4 ∧ p.ROW = q / w ∧ p.COL = q % w

/-- A truncated stream gives `E_TRUNC` and no result (R198 (c), which the spec derives): if an `END` token stands after
fewer than `NEED` bytes and every index before it is below the palette length, the frame is the indices of the pixels held
in those bytes and `END(4)`, the `END` token stays, and `ROW`, `COL` give the first pixel that was not produced. That the
transform runs as moves of an agenda is the model's choice (log 2). -/
def Obligations.UnpackerReportsTruncation : Prop :=
  ∀ (s : State) (w h d q : Nat) (bs : List Byte) (c : BitVec 4) (rest : List Token),
    s.cfg.legal = true → s.up.PHASE = 0#4 ∨ s.up.PHASE = 6#4 → s.up.WIDTH = w →
    s.up.HEIGHT = h → s.up.DEPTH = d → 1 ≤ w → 1 ≤ h → d = 1 ∨ d = 4 ∨ d = 8 → bs.length < bytesNeeded w h d →
    q = bs.length / stride w d * w + min w (bs.length % stride w d * pixelsPerByte d) →
    (∀ k, k < q → (indexAt w d bs (k / w) (k % w)).toNat < s.up.PAL_LEN) →
    s.inUp.queue = dataTokens bs ++ .END c :: rest →
    ∃ n : Nat, ∀ moves : List Move,
      ∃ p : Unpacker,
        Host.Core.run Sys2Proof.core (1 + n)
            { s with agenda := transformAgenda .UP n moves } =
          .next { s with up := p, inUp := ⟨s.inUp.passed ++ dataTokens bs, .END c :: rest⟩,
                         outUp := ⟨s.outUp.passed, s.outUp.queue ++ frame ((unpack w h d bs).take q) 4⟩,
                         agenda := moves } ∧
        p.PHASE = 8#4 ∧ p.ERRCODE = 4#4 ∧ p.ROW = q / w ∧ p.COL = q % w

/-- The round trip through the hardware (R200, which the spec derives): the frame of a packing, fed whole into an unpacker
with the same configuration, gives the indices back: the first `NEED` bytes of the packing are taken, and the last row's
padding and the packer's `END(0)` are left. That the transform runs as moves of an agenda is the model's choice (log 2). -/
def Obligations.RoundTripThroughTheUnpacker : Prop :=
  ∀ (s : State) (w h d : Nat) (idx : List Byte) (rest : List Token) (moves : List Move),
    s.cfg.legal = true → s.up.PHASE = 0#4 ∨ s.up.PHASE = 6#4 → s.up.WIDTH = w →
    s.up.HEIGHT = h → s.up.DEPTH = d → 1 ≤ w → 1 ≤ h → d = 1 ∨ d = 4 ∨ d = 8 → idx.length = w * h → (∀ v ∈ idx, v.toNat < 2 ^ d) →
    (∀ v ∈ idx, v.toNat < s.up.PAL_LEN) →
    s.inUp.queue = frame (pack w h d idx) 0 ++ rest →
    ∃ p : Unpacker,
      Host.Core.run Sys2Proof.core (1 + unpackSteps w h d)
          { s with agenda := transformAgenda .UP (unpackSteps w h d) moves } =
        .next { s with up := p,
                       inUp := ⟨s.inUp.passed ++ dataTokens ((pack w h d idx).take (bytesNeeded w h d)),
                                dataTokens (List.replicate (bytePad w d) 0) ++ .END 0 :: rest⟩,
                       outUp := ⟨s.outUp.passed, s.outUp.queue ++ frame idx 0⟩, agenda := moves } ∧
      p.PHASE = 6#4 ∧ p.ERRCODE = 0#4 ∧ p.ROW = h ∧ p.COL = 0

/-- A frame is a result only if `END(0)` closes it (R235): one closed by another code, or never closed, is none. On the
machine, for the tokens that a unit has appended after those of earlier transforms: `OKTERM` makes its data the result,
`FAILTERM` in a state that meets the invariant makes them none whatever the fault, and after any other operation, a `RESET`
in the middle of a transform among them, they are still none. -/
def Obligations.OnlyAnEndZeroFrameIsAResult : Prop :=
  (∀ (vs : List Byte) (c : BitVec 4),
    frameResult (frame vs 0) = some vs ∧ (c ≠ 0 → frameResult (frame vs c) = none) ∧
    frameResult (dataTokens vs) = none) ∧
  (∀ (s : State) (before : List Token) (vs : List Byte), s.outPk.trace = before ++ dataTokens vs →
    (∃ (t : State) (ts : List Token), exec .pkOkterm s = .next t ∧ t.outPk.trace = before ++ ts ∧
      frameResult ts = some vs) ∧
    (s.Inv → s.pk.PHASE = 7#4 → ∃ (t : State) (ts : List Token), exec .pkFailterm s = .next t ∧
      t.outPk.trace = before ++ ts ∧ frameResult ts = none) ∧
    (∀ (i : Instr) (t : State), i ≠ .pkOkterm → i ≠ .pkFailterm → exec i s = .next t →
      ∃ ts : List Token, t.outPk.trace = before ++ ts ∧ frameResult ts = none)) ∧
  (∀ (s : State) (before : List Token) (vs : List Byte), s.outUp.trace = before ++ dataTokens vs →
    (∃ (t : State) (ts : List Token), exec .upOkterm s = .next t ∧ t.outUp.trace = before ++ ts ∧
      frameResult ts = some vs) ∧
    (s.Inv → s.up.PHASE = 7#4 → ∃ (t : State) (ts : List Token), exec .upFailterm s = .next t ∧
      t.outUp.trace = before ++ ts ∧ frameResult ts = none) ∧
    (∀ (i : Instr) (t : State), i ≠ .upOkterm → i ≠ .upFailterm → exec i s = .next t →
      ∃ ts : List Token, t.outUp.trace = before ++ ts ∧ frameResult ts = none))

/-! ### The parameter -/

/-- `REGW` is a parameter of the block (R5): no step changes it, and a block comes out of reset with its own. That it stands
in the state, and that the reset of the model is that of a block with the default 32, is the model's choice (log 1). -/
def Obligations.NoStepChangesTheParameter : Prop :=
  (∀ s t : State, step s = .next t → t.cfg = s.cfg) ∧
  (∀ c : Config, (State.resetAt c).cfg = c) ∧ State.reset = State.resetAt { REGW := 32 }

/-- In every state that meets the invariant what a read returns is a word of `REGW` bits, whichever register it names
(R21, R42, R131): a parameter of at least 16 (R5) has room for every field of `STATUS`, and no register of `REGW` bits
exceeds them. That a register is a natural number below `2 ^ REGW` is the model's choice (log 18). -/
def Obligations.EveryReadFitsTheRegisterWidth : Prop :=
  ∀ (s : State) (reg : BitVec 6), s.Inv →
    s.pk.read reg < 2 ^ s.cfg.REGW ∧ s.up.read reg < 2 ^ s.cfg.REGW
end

