-- ==== Sys2Proof/Laws/Encoding.lean ====
section
/-! SUPPORT. The fields of a descriptor and of a command word, and what each selects (R101, R102, R106, R134). -/

namespace Sys2Proof

/-! ### The fields of a descriptor that is put together from its fields -/

@[simp] theorem unit_descriptor (u : UnitId) (wr : Bool) (reg : BitVec 6) (v : Nat) :
    (descriptor u wr reg v).unit = u := by
  have h : (descriptor u wr reg v).A.getLsbD 7 = (u == .UP) := by
    simp only [descriptor, BitVec.getLsbD_cast, BitVec.getLsbD_append]
    cases u <;> rfl
  rw [Descriptor.unit, h]
  cases u <;> rfl

@[simp] theorem isWrite_descriptor (u : UnitId) (wr : Bool) (reg : BitVec 6) (v : Nat) :
    (descriptor u wr reg v).isWrite = wr := by
  show (descriptor u wr reg v).A.getLsbD 6 = wr
  simp only [descriptor, BitVec.getLsbD_cast, BitVec.getLsbD_append]
  cases wr <;> rfl

@[simp] theorem reg_descriptor (u : UnitId) (wr : Bool) (reg : BitVec 6) (v : Nat) :
    (descriptor u wr reg v).reg = reg := by
  ext i hi
  simp only [Descriptor.reg, descriptor, BitVec.getElem_extractLsb', BitVec.getLsbD_cast, BitVec.getLsbD_append]
  simp [hi]

@[simp] theorem D_descriptor (u : UnitId) (wr : Bool) (reg : BitVec 6) (v : Nat) : (descriptor u wr reg v).D = v := rfl

/-- The eight bits of `A` are its three fields and nothing else. -/
theorem A_fields : ∀ a : BitVec 8,
    (descriptor (Descriptor.mk a 0).unit (Descriptor.mk a 0).isWrite (Descriptor.mk a 0).reg 0).A = a := by decide

/-- A descriptor is its four fields and nothing else. -/
theorem descriptor_fields (d : Descriptor) : descriptor d.unit d.isWrite d.reg d.D = d :=
  congrArg (fun a => ({ A := a, D := d.D } : Descriptor)) (A_fields d.A)

/-- What a descriptor put together from its fields decodes to (R106). -/
theorem decodeHostOp_descriptor (u : UnitId) (wr : Bool) (reg : BitVec 6) (v : Nat) :
    decodeHostOp (descriptor u wr reg v) =
      match u, wr with
      | .PK, true => decodePkWrite reg v
      | .PK, false => .pkRd reg
      | .UP, true => decodeUpWrite reg v
      | .UP, false => .upRd reg := by
  cases u <;> cases wr <;> simp [decodeHostOp]

/-! ### The bits of a descriptor -/

/-- The bits of a descriptor with a data word of `regw` bits give it back. -/
theorem ofBits_bits {regw : Nat} {d : Descriptor} (h : d.D < 2 ^ regw) : Descriptor.ofBits regw (d.bits regw) = d := by
  have hdiv : d.bits regw / 2 ^ regw = d.A.toNat := by
    rw [Descriptor.bits, Nat.mul_comm, Nat.mul_add_div (Nat.two_pow_pos _), Nat.div_eq_of_lt h, Nat.add_zero]
  have hmod : d.bits regw % 2 ^ regw = d.D := by
    rw [Descriptor.bits, Nat.mul_comm, Nat.mul_add_mod, Nat.mod_eq_of_lt h]
  rw [Descriptor.ofBits, hdiv, hmod, BitVec.ofNat_toNat, BitVec.setWidth_eq]

/-- A data word of `regw` bits is not cut. -/
theorem atWidth_of_lt {regw : Nat} {d : Descriptor} (h : d.D < 2 ^ regw) : d.atWidth regw = d := by
  rw [Descriptor.atWidth, Nat.mod_eq_of_lt h]

/-- A data word has `regw` bits after it is cut. -/
theorem atWidth_lt (regw : Nat) (d : Descriptor) : (d.atWidth regw).D < 2 ^ regw :=
  Nat.mod_lt _ (Nat.two_pow_pos _)

@[simp] theorem atWidth_A (regw : Nat) (d : Descriptor) : (d.atWidth regw).A = d.A := rfl
@[simp] theorem atWidth_D (regw : Nat) (d : Descriptor) : (d.atWidth regw).D = d.D % 2 ^ regw := rfl

/-! ### Command words -/

/-- The test of R134 in numbers: the words that are no command are those from 3 on. -/
theorem illegal_command_iff (v : Nat) : (cmdReserved v ≠ 0 ∨ cmdOpc v = 3) ↔ 3 ≤ v := by
  unfold cmdReserved cmdOpc
  omega

theorem decodePkCommand_illegal {d : Nat} (h : illegalCommandWord d = true) : decodePkCommand d = .pkCmdIllegal d := by
  rw [decodePkCommand, if_pos ((illegal_command_iff d).2 (by simpa [illegalCommandWord] using h))]

theorem decodeUpCommand_illegal {d : Nat} (h : illegalCommandWord d = true) : decodeUpCommand d = .upCmdIllegal d := by
  rw [decodeUpCommand, if_pos ((illegal_command_iff d).2 (by simpa [illegalCommandWord] using h))]

/-! ### Writes -/

theorem decodePkWrite_ignored {reg : BitVec 6} {v : Nat} (h : ignoredReg .PK reg = true) :
    decodePkWrite reg v = .pkWrIgnored reg v := by
  simp only [decodePkWrite, ignoredReg] at *
  simp [bne, BitVec.toNat_eq] at h ⊢
  simp [h]

theorem decodeUpWrite_ignored {reg : BitVec 6} {v : Nat} (h : ignoredReg .UP reg = true) :
    decodeUpWrite reg v = .upWrIgnored reg v := by
  simp only [decodeUpWrite, ignoredReg] at *
  simp [bne, BitVec.toNat_eq] at h ⊢
  simp [h]

end Sys2Proof
end

