-- ==== Sys2Proof/Laws/State.lean ====
section
/-! SUPPORT. One lemma for each field and each named update of the state's parts, true by `rfl`, so that no later proof
unfolds a record update. -/

namespace Sys2Proof.Machine

/-! ### Fault entry (R224) -/

@[simp] theorem UnitRegs.raiseFault_WIDTH (c : BitVec 4) (r : UnitRegs) : (r.raiseFault c).WIDTH = r.WIDTH := rfl
@[simp] theorem UnitRegs.raiseFault_HEIGHT (c : BitVec 4) (r : UnitRegs) : (r.raiseFault c).HEIGHT = r.HEIGHT := rfl
@[simp] theorem UnitRegs.raiseFault_DEPTH (c : BitVec 4) (r : UnitRegs) : (r.raiseFault c).DEPTH = r.DEPTH := rfl
@[simp] theorem UnitRegs.raiseFault_W (c : BitVec 4) (r : UnitRegs) : (r.raiseFault c).W = r.W := rfl
@[simp] theorem UnitRegs.raiseFault_H (c : BitVec 4) (r : UnitRegs) : (r.raiseFault c).H = r.H := rfl
@[simp] theorem UnitRegs.raiseFault_S (c : BitVec 4) (r : UnitRegs) : (r.raiseFault c).S = r.S := rfl
@[simp] theorem UnitRegs.raiseFault_BITPAD (c : BitVec 4) (r : UnitRegs) : (r.raiseFault c).BITPAD = r.BITPAD := rfl
@[simp] theorem UnitRegs.raiseFault_BYTEW (c : BitVec 4) (r : UnitRegs) : (r.raiseFault c).BYTEW = r.BYTEW := rfl
@[simp] theorem UnitRegs.raiseFault_BYTEPAD (c : BitVec 4) (r : UnitRegs) : (r.raiseFault c).BYTEPAD = r.BYTEPAD := rfl
@[simp] theorem UnitRegs.raiseFault_BITCNT (c : BitVec 4) (r : UnitRegs) : (r.raiseFault c).BITCNT = r.BITCNT := rfl
@[simp] theorem UnitRegs.raiseFault_COL (c : BitVec 4) (r : UnitRegs) : (r.raiseFault c).COL = r.COL := rfl
@[simp] theorem UnitRegs.raiseFault_ROW (c : BitVec 4) (r : UnitRegs) : (r.raiseFault c).ROW = r.ROW := rfl
@[simp] theorem UnitRegs.raiseFault_PADCNT (c : BitVec 4) (r : UnitRegs) : (r.raiseFault c).PADCNT = r.PADCNT := rfl
@[simp] theorem UnitRegs.raiseFault_PHASE (c : BitVec 4) (r : UnitRegs) : (r.raiseFault c).PHASE = 7#4 := rfl
@[simp] theorem UnitRegs.raiseFault_ERRCODE (c : BitVec 4) (r : UnitRegs) : (r.raiseFault c).ERRCODE = c := rfl
@[simp] theorem UnitRegs.raiseFault_CMDERR (c : BitVec 4) (r : UnitRegs) : (r.raiseFault c).CMDERR = r.CMDERR := rfl
@[simp] theorem Packer.raiseFault_regs (c : BitVec 4) (p : Packer) :
    (p.raiseFault c).toUnitRegs = p.toUnitRegs.raiseFault c := rfl
@[simp] theorem Packer.raiseFault_ACC (c : BitVec 4) (p : Packer) : (p.raiseFault c).ACC = p.ACC := rfl
@[simp] theorem Unpacker.raiseFault_regs (c : BitVec 4) (p : Unpacker) :
    (p.raiseFault c).toUnitRegs = p.toUnitRegs.raiseFault c := rfl
@[simp] theorem Unpacker.raiseFault_PAL_LEN (c : BitVec 4) (p : Unpacker) : (p.raiseFault c).PAL_LEN = p.PAL_LEN := rfl
@[simp] theorem Unpacker.raiseFault_P (c : BitVec 4) (p : Unpacker) : (p.raiseFault c).P = p.P := rfl
@[simp] theorem Unpacker.raiseFault_SHREG (c : BitVec 4) (p : Unpacker) : (p.raiseFault c).SHREG = p.SHREG := rfl

/-! ### `RESET` (R140) -/

@[simp] theorem UnitRegs.softReset_WIDTH (r : UnitRegs) : r.softReset.WIDTH = r.WIDTH := rfl
@[simp] theorem UnitRegs.softReset_HEIGHT (r : UnitRegs) : r.softReset.HEIGHT = r.HEIGHT := rfl
@[simp] theorem UnitRegs.softReset_DEPTH (r : UnitRegs) : r.softReset.DEPTH = r.DEPTH := rfl
@[simp] theorem UnitRegs.softReset_W (r : UnitRegs) : r.softReset.W = 0 := rfl
@[simp] theorem UnitRegs.softReset_H (r : UnitRegs) : r.softReset.H = 0 := rfl
@[simp] theorem UnitRegs.softReset_S (r : UnitRegs) : r.softReset.S = 0 := rfl
@[simp] theorem UnitRegs.softReset_BITPAD (r : UnitRegs) : r.softReset.BITPAD = 0 := rfl
@[simp] theorem UnitRegs.softReset_BYTEW (r : UnitRegs) : r.softReset.BYTEW = 0 := rfl
@[simp] theorem UnitRegs.softReset_BYTEPAD (r : UnitRegs) : r.softReset.BYTEPAD = 0 := rfl
@[simp] theorem UnitRegs.softReset_BITCNT (r : UnitRegs) : r.softReset.BITCNT = 0 := rfl
@[simp] theorem UnitRegs.softReset_COL (r : UnitRegs) : r.softReset.COL = 0 := rfl
@[simp] theorem UnitRegs.softReset_ROW (r : UnitRegs) : r.softReset.ROW = 0 := rfl
@[simp] theorem UnitRegs.softReset_PADCNT (r : UnitRegs) : r.softReset.PADCNT = 0 := rfl
@[simp] theorem UnitRegs.softReset_PHASE (r : UnitRegs) : r.softReset.PHASE = 0 := rfl
@[simp] theorem UnitRegs.softReset_ERRCODE (r : UnitRegs) : r.softReset.ERRCODE = 0 := rfl
@[simp] theorem UnitRegs.softReset_CMDERR (r : UnitRegs) : r.softReset.CMDERR = false := rfl
@[simp] theorem Packer.softReset_regs (p : Packer) : p.softReset.toUnitRegs = p.toUnitRegs.softReset := rfl
@[simp] theorem Packer.softReset_ACC (p : Packer) : p.softReset.ACC = 0 := rfl
@[simp] theorem Unpacker.softReset_regs (p : Unpacker) : p.softReset.toUnitRegs = p.toUnitRegs.softReset := rfl
@[simp] theorem Unpacker.softReset_PAL_LEN (p : Unpacker) : p.softReset.PAL_LEN = p.PAL_LEN := rfl
@[simp] theorem Unpacker.softReset_P (p : Unpacker) : p.softReset.P = 0 := rfl
@[simp] theorem Unpacker.softReset_SHREG (p : Unpacker) : p.softReset.SHREG = 0 := rfl

/-! ### The illegal command (R141) -/

@[simp] theorem UnitRegs.illegalCommand_WIDTH (r : UnitRegs) : r.illegalCommand.WIDTH = r.WIDTH := rfl
@[simp] theorem UnitRegs.illegalCommand_HEIGHT (r : UnitRegs) : r.illegalCommand.HEIGHT = r.HEIGHT := rfl
@[simp] theorem UnitRegs.illegalCommand_DEPTH (r : UnitRegs) : r.illegalCommand.DEPTH = r.DEPTH := rfl
@[simp] theorem UnitRegs.illegalCommand_W (r : UnitRegs) : r.illegalCommand.W = r.W := rfl
@[simp] theorem UnitRegs.illegalCommand_H (r : UnitRegs) : r.illegalCommand.H = r.H := rfl
@[simp] theorem UnitRegs.illegalCommand_S (r : UnitRegs) : r.illegalCommand.S = r.S := rfl
@[simp] theorem UnitRegs.illegalCommand_BITPAD (r : UnitRegs) : r.illegalCommand.BITPAD = r.BITPAD := rfl
@[simp] theorem UnitRegs.illegalCommand_BYTEW (r : UnitRegs) : r.illegalCommand.BYTEW = r.BYTEW := rfl
@[simp] theorem UnitRegs.illegalCommand_BYTEPAD (r : UnitRegs) : r.illegalCommand.BYTEPAD = r.BYTEPAD := rfl
@[simp] theorem UnitRegs.illegalCommand_BITCNT (r : UnitRegs) : r.illegalCommand.BITCNT = r.BITCNT := rfl
@[simp] theorem UnitRegs.illegalCommand_COL (r : UnitRegs) : r.illegalCommand.COL = r.COL := rfl
@[simp] theorem UnitRegs.illegalCommand_ROW (r : UnitRegs) : r.illegalCommand.ROW = r.ROW := rfl
@[simp] theorem UnitRegs.illegalCommand_PADCNT (r : UnitRegs) : r.illegalCommand.PADCNT = r.PADCNT := rfl
@[simp] theorem UnitRegs.illegalCommand_PHASE (r : UnitRegs) : r.illegalCommand.PHASE = r.PHASE := rfl
@[simp] theorem UnitRegs.illegalCommand_ERRCODE (r : UnitRegs) : r.illegalCommand.ERRCODE = r.ERRCODE := rfl
@[simp] theorem UnitRegs.illegalCommand_CMDERR (r : UnitRegs) : r.illegalCommand.CMDERR = true := rfl
@[simp] theorem Packer.illegalCommand_regs (p : Packer) :
    p.illegalCommand.toUnitRegs = p.toUnitRegs.illegalCommand := rfl
@[simp] theorem Packer.illegalCommand_ACC (p : Packer) : p.illegalCommand.ACC = p.ACC := rfl
@[simp] theorem Unpacker.illegalCommand_regs (p : Unpacker) :
    p.illegalCommand.toUnitRegs = p.toUnitRegs.illegalCommand := rfl
@[simp] theorem Unpacker.illegalCommand_PAL_LEN (p : Unpacker) : p.illegalCommand.PAL_LEN = p.PAL_LEN := rfl
@[simp] theorem Unpacker.illegalCommand_P (p : Unpacker) : p.illegalCommand.P = p.P := rfl
@[simp] theorem Unpacker.illegalCommand_SHREG (p : Unpacker) : p.illegalCommand.SHREG = p.SHREG := rfl

/-! ### The latch of `START` (R139) -/

@[simp] theorem UnitRegs.latch_WIDTH (r : UnitRegs) : r.latch.WIDTH = r.WIDTH := rfl
@[simp] theorem UnitRegs.latch_HEIGHT (r : UnitRegs) : r.latch.HEIGHT = r.HEIGHT := rfl
@[simp] theorem UnitRegs.latch_DEPTH (r : UnitRegs) : r.latch.DEPTH = r.DEPTH := rfl
@[simp] theorem UnitRegs.latch_W (r : UnitRegs) : r.latch.W = r.WIDTH := rfl
@[simp] theorem UnitRegs.latch_H (r : UnitRegs) : r.latch.H = r.HEIGHT := rfl
@[simp] theorem UnitRegs.latch_S (r : UnitRegs) : r.latch.S = BitVec.ofNat 4 r.DEPTH := rfl
@[simp] theorem UnitRegs.latch_BITPAD (r : UnitRegs) :
    r.latch.BITPAD = BitVec.ofNat 3 (bitPad r.WIDTH (BitVec.ofNat 4 r.DEPTH).toNat) := rfl
@[simp] theorem UnitRegs.latch_BYTEW (r : UnitRegs) :
    r.latch.BYTEW = byteWidth r.WIDTH (BitVec.ofNat 4 r.DEPTH).toNat := rfl
@[simp] theorem UnitRegs.latch_BYTEPAD (r : UnitRegs) :
    r.latch.BYTEPAD = BitVec.ofNat 2 (bytePad r.WIDTH (BitVec.ofNat 4 r.DEPTH).toNat) := rfl
@[simp] theorem UnitRegs.latch_BITCNT (r : UnitRegs) : r.latch.BITCNT = 0 := rfl
@[simp] theorem UnitRegs.latch_COL (r : UnitRegs) : r.latch.COL = 0 := rfl
@[simp] theorem UnitRegs.latch_ROW (r : UnitRegs) : r.latch.ROW = 0 := rfl
@[simp] theorem UnitRegs.latch_PADCNT (r : UnitRegs) : r.latch.PADCNT = 0 := rfl
@[simp] theorem UnitRegs.latch_PHASE (r : UnitRegs) : r.latch.PHASE = 1#4 := rfl
@[simp] theorem UnitRegs.latch_ERRCODE (r : UnitRegs) : r.latch.ERRCODE = 0 := rfl
@[simp] theorem UnitRegs.latch_CMDERR (r : UnitRegs) : r.latch.CMDERR = r.CMDERR := rfl
@[simp] theorem Packer.latch_regs (p : Packer) : p.latch.toUnitRegs = p.toUnitRegs.latch := rfl
@[simp] theorem Packer.latch_ACC (p : Packer) : p.latch.ACC = 0 := rfl
@[simp] theorem Unpacker.latch_regs (p : Unpacker) : p.latch.toUnitRegs = p.toUnitRegs.latch := rfl
@[simp] theorem Unpacker.latch_PAL_LEN (p : Unpacker) : p.latch.PAL_LEN = p.PAL_LEN := rfl
@[simp] theorem Unpacker.latch_P (p : Unpacker) : p.latch.P = p.PAL_LEN := rfl
@[simp] theorem Unpacker.latch_SHREG (p : Unpacker) : p.latch.SHREG = 0 := rfl

/-! ### Channels (R61) -/

@[simp] theorem Channel.push_passed (c : Channel) (t : Token) : (c.push t).passed = c.passed := rfl
@[simp] theorem Channel.push_queue (c : Channel) (t : Token) : (c.push t).queue = c.queue ++ [t] := rfl
@[simp] theorem Channel.discard_passed (c : Channel) : c.discard.passed = c.passed := rfl
@[simp] theorem Channel.discard_queue (c : Channel) : c.discard.queue = c.queue.tail := rfl

/-! ### Whose move is next -/

@[simp] theorem State.phaseOf_pk (s : State) : s.phaseOf .PK = s.pk.PHASE := rfl
@[simp] theorem State.phaseOf_up (s : State) : s.phaseOf .UP = s.up.PHASE := rfl
@[simp] theorem UnitId.other_pk : UnitId.PK.other = .UP := rfl
@[simp] theorem UnitId.other_up : UnitId.UP.other = .PK := rfl

end Sys2Proof.Machine
end

