-- ==== Sys2Proof/Laws/Ops.lean ====
section
/-! SUPPORT. For each shared operation, one lemma that says everything it can do. -/

namespace Sys2Proof.Machine

/-! ### Channels -/

theorem Channel.pop_nil {c : Channel} (h : c.queue = []) : c.pop = c := by
  simp [Channel.pop, h]

theorem Channel.pop_cons {c : Channel} {t : Token} {rest : List Token} (h : c.queue = t :: rest) :
    c.pop = ⟨c.passed ++ [t], rest⟩ := by
  simp [Channel.pop, h]

theorem Channel.push_eq (c : Channel) (t : Token) : c.push t = ⟨c.passed, c.queue ++ [t]⟩ := rfl

@[simp] theorem Channel.trace_push (c : Channel) (t : Token) : (c.push t).trace = c.trace ++ [t] := by
  simp [Channel.trace]

/-- A receiver that takes the head token loses nothing from the sequence of tokens that went through. -/
@[simp] theorem Channel.trace_pop (c : Channel) : c.pop.trace = c.trace := by
  cases h : c.queue with
  | nil => rw [Channel.pop_nil h]
  | cons t rest => simp [Channel.pop_cons h, Channel.trace, h]

/-! ### `START` -/

theorem Packer.start_cases (p : Packer) :
    (p.startAccepted = true ∧ p.configLegal = true ∧ p.start = p.latch) ∨
    (p.startAccepted = true ∧ p.configLegal = false ∧ p.start = p.raiseFault E_CFG) ∨
    (p.startAccepted = false ∧ p.start = p.illegalCommand) := by
  unfold Packer.start
  cases p.startAccepted <;> cases p.configLegal <;> simp

theorem Unpacker.start_cases (p : Unpacker) :
    (p.startAccepted = true ∧ p.configLegal = true ∧ p.start = p.latch) ∨
    (p.startAccepted = true ∧ p.configLegal = false ∧ p.start = p.raiseFault E_CFG) ∨
    (p.startAccepted = false ∧ p.start = p.illegalCommand) := by
  unfold Unpacker.start
  cases p.startAccepted <;> cases p.configLegal <;> simp

theorem UnitRegs.startAccepted_iff (r : UnitRegs) :
    r.startAccepted = true ↔ r.PHASE = 0#4 ∨ r.PHASE = 6#4 := by
  simp [UnitRegs.startAccepted]

theorem UnitRegs.configLegal_iff (r : UnitRegs) :
    r.configLegal = true ↔ (r.DEPTH = 1 ∨ r.DEPTH = 4 ∨ r.DEPTH = 8) ∧ r.WIDTH ≠ 0 ∧ r.HEIGHT ≠ 0 := by
  simp [UnitRegs.configLegal, and_assoc, or_assoc]

/-! ### Row ends of the packer -/

theorem Packer.nextRow_cases (p : Packer) :
    (p.ROW + 1 = p.H ∧ p.nextRow = { p with ROW := p.ROW + 1, COL := 0, PHASE := 5#4 }) ∨
    (p.ROW + 1 ≠ p.H ∧ p.nextRow = { p with ROW := p.ROW + 1, COL := 0, PHASE := 1#4 }) := by
  by_cases h : p.ROW + 1 = p.H
  · exact .inl ⟨h, by simp only [Packer.nextRow, if_pos h]⟩
  · exact .inr ⟨h, by simp only [Packer.nextRow, if_neg h]⟩

theorem Packer.rowEnd_cases (p : Packer) :
    (p.BYTEPAD ≠ 0#2 ∧ p.rowEnd = { p with PADCNT := p.BYTEPAD, PHASE := 4#4 }) ∨
    (p.BYTEPAD = 0#2 ∧ p.ROW + 1 = p.H ∧
      p.rowEnd = { p with PADCNT := 0, ROW := p.ROW + 1, COL := 0, PHASE := 5#4 }) ∨
    (p.BYTEPAD = 0#2 ∧ p.ROW + 1 ≠ p.H ∧
      p.rowEnd = { p with PADCNT := 0, ROW := p.ROW + 1, COL := 0, PHASE := 1#4 }) := by
  unfold Packer.rowEnd
  by_cases h : p.BYTEPAD = 0#2
  · rcases Packer.nextRow_cases { p with PADCNT := p.BYTEPAD } with ⟨h1, h2⟩ | ⟨h1, h2⟩
    · exact .inr (.inl ⟨h, h1, by simp only [h2]; simp [h]⟩)
    · exact .inr (.inr ⟨h, h1, by simp only [h2]; simp [h]⟩)
  · have : 0 < p.BYTEPAD.toNat := by
      rcases Nat.eq_zero_or_pos p.BYTEPAD.toNat with h0 | h0
      · exact absurd (BitVec.eq_of_toNat_eq (by simpa using h0)) h
      · exact h0
    exact .inl ⟨h, by simp [this]⟩

/-! ### One row of the unpacker -/

theorem Unpacker.advance_cases (p : Unpacker) :
    (p.COL + 1 ≠ p.W ∧ p.BITCNT + p.S = 8#4 ∧
      p.advance = { p with SHREG := shiftOut p.S p.SHREG, BITCNT := p.BITCNT + p.S, COL := p.COL + 1, PHASE := 1#4 }) ∨
    (p.COL + 1 ≠ p.W ∧ p.BITCNT + p.S ≠ 8#4 ∧
      p.advance = { p with SHREG := shiftOut p.S p.SHREG, BITCNT := p.BITCNT + p.S, COL := p.COL + 1, PHASE := 2#4 }) ∨
    (p.COL + 1 = p.W ∧ p.ROW + 1 = p.H ∧
      p.advance = { p with SHREG := shiftOut p.S p.SHREG, BITCNT := p.BITCNT + p.S, COL := 0, ROW := p.ROW + 1,
                           PHASE := 5#4 }) ∨
    (p.COL + 1 = p.W ∧ p.ROW + 1 ≠ p.H ∧ p.BYTEPAD = 0#2 ∧
      p.advance = { p with SHREG := shiftOut p.S p.SHREG, BITCNT := p.BITCNT + p.S, COL := 0, ROW := p.ROW + 1,
                           PADCNT := p.BYTEPAD, PHASE := 1#4 }) ∨
    (p.COL + 1 = p.W ∧ p.ROW + 1 ≠ p.H ∧ p.BYTEPAD ≠ 0#2 ∧
      p.advance = { p with SHREG := shiftOut p.S p.SHREG, BITCNT := p.BITCNT + p.S, COL := 0, ROW := p.ROW + 1,
                           PADCNT := p.BYTEPAD, PHASE := 3#4 }) := by
  by_cases hc : p.COL + 1 = p.W
  · by_cases hr : p.ROW + 1 = p.H
    · exact .inr (.inr (.inl ⟨hc, hr, by simp only [Unpacker.advance, if_pos hc, if_pos hr]⟩))
    · by_cases hb : p.BYTEPAD = 0#2
      · exact .inr (.inr (.inr (.inl ⟨hc, hr, hb, by simp only [Unpacker.advance, if_pos hc, if_neg hr, hb]; rfl⟩)))
      · have : 0 < p.BYTEPAD.toNat := by
          rcases Nat.eq_zero_or_pos p.BYTEPAD.toNat with h0 | h0
          · exact absurd (BitVec.eq_of_toNat_eq (by simpa using h0)) hb
          · exact h0
        exact .inr (.inr (.inr (.inr ⟨hc, hr, hb, by simp only [Unpacker.advance, if_pos hc, if_neg hr, if_pos this]⟩)))
  · by_cases hb : p.BITCNT + p.S = 8#4
    · exact .inl ⟨hc, hb, by simp only [Unpacker.advance, if_neg hc, if_pos hb]⟩
    · exact .inr (.inl ⟨hc, hb, by simp only [Unpacker.advance, if_neg hc, if_neg hb]⟩)

/-! ### The micro-operations that read a token -/

/-- Everything `PK.ACCUM` can do (R161). -/
theorem execPkAccum_cases {s t : State} (h : execPkAccum s = .next t) :
    (s.inPk.queue = [] ∧ t = s) ∨
    (∃ c rest, s.inPk.queue = .END c :: rest ∧ t = { s with pk := s.pk.raiseFault E_TRUNC }) ∨
    (∃ v rest, s.inPk.queue = .D v :: rest ∧ 2 ^ s.pk.S.toNat ≤ v.toNat ∧
      t = { s with inPk := ⟨s.inPk.passed ++ [.D v], rest⟩, pk := s.pk.raiseFault E_RANGE }) ∨
    (∃ v rest, s.inPk.queue = .D v :: rest ∧ v.toNat < 2 ^ s.pk.S.toNat ∧
      t = { s with inPk := ⟨s.inPk.passed ++ [.D v], rest⟩, pk := s.pk.accumulate v }) := by
  unfold execPkAccum at h
  cases hq : s.inPk.queue with
  | nil => simp [hq] at h; exact .inl ⟨rfl, h.symm⟩
  | cons k rest =>
    cases k with
    | END c => simp [hq] at h; exact .inr (.inl ⟨c, rest, rfl, h.symm⟩)
    | D v =>
      by_cases hv : v.toNat < 2 ^ s.pk.S.toNat
      · simp [hq, indexFits, hv, Channel.pop_cons hq] at h
        exact .inr (.inr (.inr ⟨v, rest, rfl, hv, h.symm⟩))
      · simp [hq, indexFits, hv, Channel.pop_cons hq] at h
        exact .inr (.inr (.inl ⟨v, rest, rfl, by omega, h.symm⟩))

/-- Everything `UP.FETCH` can do (R191). -/
theorem execUpFetch_cases {s t : State} (h : execUpFetch s = .next t) :
    (s.inUp.queue = [] ∧ t = s) ∨
    (∃ c rest, s.inUp.queue = .END c :: rest ∧ t = { s with up := s.up.raiseFault E_TRUNC }) ∨
    (∃ b rest, s.inUp.queue = .D b :: rest ∧
      t = { s with inUp := ⟨s.inUp.passed ++ [.D b], rest⟩, up := s.up.load b }) := by
  unfold execUpFetch at h
  cases hq : s.inUp.queue with
  | nil => simp [hq] at h; exact .inl ⟨rfl, h.symm⟩
  | cons k rest =>
    cases k with
    | END c => simp [hq] at h; exact .inr (.inl ⟨c, rest, rfl, h.symm⟩)
    | D b => simp [hq, Channel.pop_cons hq] at h; exact .inr (.inr ⟨b, rest, rfl, h.symm⟩)

/-- Everything `UP.SKIP` can do (R193). -/
theorem execUpSkip_cases {s t : State} (h : execUpSkip s = .next t) :
    (s.inUp.queue = [] ∧ t = s) ∨
    (∃ c rest, s.inUp.queue = .END c :: rest ∧ t = { s with up := s.up.raiseFault E_TRUNC }) ∨
    (∃ b rest, s.inUp.queue = .D b :: rest ∧
      t = { s with inUp := ⟨s.inUp.passed ++ [.D b], rest⟩, up := s.up.skipByte }) := by
  unfold execUpSkip at h
  cases hq : s.inUp.queue with
  | nil => simp [hq] at h; exact .inl ⟨rfl, h.symm⟩
  | cons k rest =>
    cases k with
    | END c => simp [hq] at h; exact .inr (.inl ⟨c, rest, rfl, h.symm⟩)
    | D b => simp [hq, Channel.pop_cons hq] at h; exact .inr (.inr ⟨b, rest, rfl, h.symm⟩)

/-- Everything `UP.EXTRACT` can do (R192). -/
theorem execUpExtract_cases {s t : State} (h : execUpExtract s = .next t) :
    (s.up.P ≤ (topIndex s.up.S s.up.SHREG).toNat ∧ t = { s with up := s.up.raiseFault E_DECODE }) ∨
    ((topIndex s.up.S s.up.SHREG).toNat < s.up.P ∧
      t = { s with outUp := s.outUp.push (.D (topIndex s.up.S s.up.SHREG)), up := s.up.advance }) := by
  unfold execUpExtract at h
  by_cases hp : (topIndex s.up.S s.up.SHREG).toNat < s.up.P
  · simp [indexInPalette, hp] at h; exact .inr ⟨hp, h.symm⟩
  · simp [indexInPalette, hp] at h; exact .inl ⟨by omega, h.symm⟩

/-! ### The step -/

/-- Everything a step can do: run the operation that the next move brings, or make the environment's move. -/
theorem step_cases {s t : State} (h : step s = .next t) :
    (∃ c i, fetch s.nextMove.1 s.nextMove.2 = some c ∧ decode c = .ok i ∧ exec i s.nextMove.2 = .next t) ∨
    (fetch s.nextMove.1 s.nextMove.2 = none ∧ t = environmentMove s.nextMove.1 s.nextMove.2) := by
  unfold step at h
  cases hf : fetch s.nextMove.1 s.nextMove.2 with
  | none => simp [hf] at h; exact .inr ⟨rfl, h.symm⟩
  | some c =>
    cases hd : decode c with
    | error e => simp [hf, hd] at h
    | ok i => simp [hf, hd] at h; exact .inl ⟨c, i, rfl, hd, h⟩

/-- Taking the next move off changes nothing but the agenda and the turn. -/
theorem State.nextMove_frame (s : State) :
    s.nextMove.2 = { s with agenda := s.nextMove.2.agenda, turn := s.nextMove.2.turn } := by
  unfold State.nextMove
  cases s.agenda <;> rfl

end Sys2Proof.Machine
end

