-- ==== Sys2Proof/Laws/Geometry.lean ====
section
/-! SUPPORT. Facts about the geometry of a configuration (R138) and about the latch that stores it (R139). -/

namespace Sys2Proof.Machine

theorem bitPad_lt (w s : Nat) : bitPad w s < 8 := by
  unfold bitPad; omega

theorem bytePad_lt (w s : Nat) : bytePad w s < 4 := by
  unfold bytePad; omega

/-- The division in `BYTEW` is exact. -/
theorem eight_mul_byteWidth (w s : Nat) : 8 * byteWidth w s = w * s + bitPad w s := by
  unfold byteWidth bitPad bitsPerRow
  generalize w * s = n
  omega

theorem byteWidth_le {w s : Nat} (hs : s = 1 ∨ s = 4 ∨ s = 8) : byteWidth w s ≤ w := by
  have h := eight_mul_byteWidth w s
  have hb := bitPad_lt w s
  unfold bitPad bitsPerRow at *
  rcases hs with rfl | rfl | rfl <;> omega

theorem byteWidth_pos {w s : Nat} (hw : 1 ≤ w) (hs : s = 1 ∨ s = 4 ∨ s = 8) : 1 ≤ byteWidth w s := by
  have h := eight_mul_byteWidth w s
  rcases hs with rfl | rfl | rfl <;> omega

/-- A word that is 1, 4 or 8 keeps its value in the 4 bits of `S`. -/
theorem depth_toNat {d : Nat} (hd : d = 1 ∨ d = 4 ∨ d = 8) : (BitVec.ofNat 4 d).toNat = d := by
  rcases hd with rfl | rfl | rfl <;> rfl

theorem legal_depth {r : UnitRegs} (h : r.configLegal = true) : r.DEPTH = 1 ∨ r.DEPTH = 4 ∨ r.DEPTH = 8 :=
  ((UnitRegs.configLegal_iff r).1 h).1

theorem legal_width {r : UnitRegs} (h : r.configLegal = true) : 1 ≤ r.WIDTH :=
  Nat.one_le_iff_ne_zero.2 ((UnitRegs.configLegal_iff r).1 h).2.1

theorem legal_height {r : UnitRegs} (h : r.configLegal = true) : 1 ≤ r.HEIGHT :=
  Nat.one_le_iff_ne_zero.2 ((UnitRegs.configLegal_iff r).1 h).2.2

/-- The latch stores the geometry without loss (R143). -/
theorem latch_geometry (r : UnitRegs) : GeometryHolds r.latch where
  bitpad := by
    simp only [UnitRegs.latch_BITPAD, UnitRegs.latch_W, UnitRegs.latch_S, BitVec.toNat_ofNat]
    exact Nat.mod_eq_of_lt (bitPad_lt _ _)
  bytew := rfl
  bytepad := by
    simp only [UnitRegs.latch_BYTEPAD, UnitRegs.latch_W, UnitRegs.latch_S, BitVec.toNat_ofNat]
    exact Nat.mod_eq_of_lt (bytePad_lt _ _)

theorem latch_depth {r : UnitRegs} (h : r.configLegal = true) :
    r.latch.S = 1#4 ∨ r.latch.S = 4#4 ∨ r.latch.S = 8#4 := by
  rw [UnitRegs.latch_S]
  rcases legal_depth h with h | h | h <;> rw [h] <;> decide

theorem latch_activeLegal {r : UnitRegs} (h : r.configLegal = true) : ActiveLegal r.latch where
  depth := latch_depth h
  width := legal_width h
  height := legal_height h
  geometry := latch_geometry _

end Sys2Proof.Machine
end

