-- ==== Sys2Proof/Laws/Invariant.lean ====
section
/-! SUPPORT. Every shared operation keeps the invariant of the registers (R46). -/

namespace Sys2Proof.Machine

/-! ### Registers both units have -/

/-- The configuration registers and `CMDERR` are in no clause of the invariant. -/
theorem UnitInv.configuration {r : UnitRegs} (h : UnitInv r) (w ht d : Nat) (e : Bool) :
    UnitInv { r with WIDTH := w, HEIGHT := ht, DEPTH := d, CMDERR := e } where
  phase_le := h.phase_le
  errcode_iff := h.errcode_iff
  errcode_le := h.errcode_le
  depth := h.depth
  active h1 h2 :=
    have a := h.active h1 h2
    ⟨a.depth, a.width, a.height, ⟨a.geometry.bitpad, a.geometry.bytew, a.geometry.bytepad⟩⟩
  running := h.running
  finished := h.finished

theorem UnitInv.raiseFault {r : UnitRegs} (h : UnitInv r) {c : BitVec 4} (h0 : c ≠ 0#4) (h4 : c.toNat ≤ 4) :
    UnitInv (r.raiseFault c) where
  phase_le := by simp
  errcode_iff := by simp [h0]
  errcode_le := h4
  depth := h.depth
  active := by simp
  running := by simp
  finished := by simp

theorem UnitInv.latch {r : UnitRegs} (h : r.configLegal = true) : UnitInv r.latch where
  phase_le := by simp
  errcode_iff := by simp
  errcode_le := by simp
  depth := .inr (latch_depth h)
  active _ _ := latch_activeLegal h
  running _ _ := ⟨legal_height h, Nat.zero_le _⟩
  finished := by simp

theorem UnitInv.softReset (r : UnitRegs) : UnitInv r.softReset := by
  constructor <;> simp

/-- Outside `FAILTERM` and `ERR` no error code is held. -/
theorem UnitInv.errcode_zero {r : UnitRegs} (h : UnitInv r) (hp : r.PHASE.toNat ≤ 6) : r.ERRCODE = 0#4 := by
  by_contra hne
  rcases h.errcode_iff.1 hne with h' | h' <;> rw [h'] at hp <;> exact absurd hp (by decide)

/-- Writing the working registers and going to another running phase keeps the invariant, as long as `ROW` and `COL` stay
in their ranges. -/
theorem UnitInv.run {r : UnitRegs} (h : UnitInv r) (hp : 1 ≤ r.PHASE.toNat ∧ r.PHASE.toNat ≤ 6) {q : PhaseCode}
    {n : BitVec 4} {k : BitVec 2} {row col : Nat} (hq : 1 ≤ q.toNat ∧ q.toNat ≤ 4) (hrow : row < r.H)
    (hcol : col ≤ r.W) :
    UnitInv { r with BITCNT := n, PADCNT := k, ROW := row, COL := col, PHASE := q } where
  phase_le := show q.toNat ≤ 8 by omega
  errcode_iff := by
    have he := h.errcode_zero hp.2
    constructor
    · intro hne; exact absurd he hne
    · rintro (h' | h') <;> (have h'' : q = _ := h'; rw [h''] at hq; exact absurd hq (by decide))
  errcode_le := h.errcode_le
  depth := h.depth
  active _ _ :=
    have a := h.active hp.1 hp.2
    ⟨a.depth, a.width, a.height, ⟨a.geometry.bitpad, a.geometry.bytew, a.geometry.bytepad⟩⟩
  running _ _ := ⟨hrow, hcol⟩
  finished := by
    rintro (h' | h') <;> (have h'' : q = _ := h'; rw [h''] at hq; exact absurd hq (by decide))

/-- Going to `OKTERM` or `DONE` with all rows complete keeps the invariant. -/
theorem UnitInv.finish {r : UnitRegs} (h : UnitInv r) (hp : 1 ≤ r.PHASE.toNat ∧ r.PHASE.toNat ≤ 6) {q : PhaseCode}
    {n : BitVec 4} {k : BitVec 2} {row : Nat} (hq : q = 5#4 ∨ q = 6#4) (hrow : row = r.H) :
    UnitInv { r with BITCNT := n, PADCNT := k, ROW := row, COL := 0, PHASE := q } where
  phase_le := by rcases hq with rfl | rfl <;> simp
  errcode_iff := by
    have he := h.errcode_zero hp.2
    rcases hq with rfl | rfl <;> simp [he]
  errcode_le := h.errcode_le
  depth := h.depth
  active _ _ :=
    have a := h.active hp.1 hp.2
    ⟨a.depth, a.width, a.height, ⟨a.geometry.bitpad, a.geometry.bytew, a.geometry.bytepad⟩⟩
  running := by rcases hq with rfl | rfl <;> simp
  finished _ := ⟨hrow, rfl⟩

/-- `FAILTERM` to `ERR`. -/
theorem UnitInv.toErr {r : UnitRegs} (h : UnitInv r) (hp : r.PHASE = 7#4) : UnitInv { r with PHASE := 8#4 } where
  phase_le := by simp
  errcode_iff := by simpa using h.errcode_iff.2 (.inl hp)
  errcode_le := h.errcode_le
  depth := h.depth
  active := by simp
  running := by simp
  finished := by simp

/-- Counting a row that is not the last. -/
theorem next_row_lt {row h : Nat} (hlt : row < h) (hne : row + 1 ≠ h) : row + 1 < h := by omega

/-! ### The packer -/

theorem PkInv.raiseFault {p : Packer} (h : PkInv p) {c : BitVec 4} (h0 : c ≠ 0#4) (h3 : c ≠ 3#4) (h4 : c.toNat ≤ 4) :
    PkInv (p.raiseFault c) where
  unit := h.unit.raiseFault h0 h4
  code := h3
  accum := by simp
  emit := by simp
  flush := by simp
  pad := by simp
  empty := by simp
  acc_lt := h.acc_lt

theorem PkInv.configuration {p : Packer} (h : PkInv p) (w ht d : Nat) (e : Bool) :
    PkInv { p with WIDTH := w, HEIGHT := ht, DEPTH := d, CMDERR := e } where
  unit := h.unit.configuration w ht d e
  code := h.code
  accum := h.accum
  emit := h.emit
  flush := h.flush
  pad := h.pad
  empty := h.empty
  acc_lt := h.acc_lt

theorem PkInv.softReset (p : Packer) : PkInv p.softReset where
  unit := UnitInv.softReset _
  code := by simp
  accum := by simp
  emit := by simp
  flush := by simp
  pad := by simp
  empty := by simp
  acc_lt := by simp

theorem PkInv.start {p : Packer} (h : PkInv p) : PkInv p.start := by
  rcases p.start_cases with ⟨-, hc, e⟩ | ⟨-, -, e⟩ | ⟨-, e⟩ <;> rw [e]
  · exact ⟨UnitInv.latch hc, by simp, fun _ => ⟨by simp, legal_width hc⟩, by simp, by simp, by simp, by simp, by simp⟩
  · exact h.raiseFault (by decide) (by decide) (by decide)
  · exact h.configuration _ _ _ _

/-- The end of a row, from `EMIT` or `FLUSH`, keeps the invariant. -/
theorem PkInv.rowEnd {p : Packer} (h : PkInv p) (hp : 1 ≤ p.PHASE.toNat ∧ p.PHASE.toNat ≤ 4) (hcol : p.COL = p.W) :
    PkInv p.clearAcc.rowEnd := by
  have hr := h.unit.running hp.1 hp.2
  have hp' : 1 ≤ p.PHASE.toNat ∧ p.PHASE.toNat ≤ 6 := by omega
  have ha := h.unit.active hp'.1 hp'.2
  rcases p.clearAcc.rowEnd_cases with ⟨hb, e⟩ | ⟨-, hrow, e⟩ | ⟨-, hrow, e⟩ <;> rw [e]
  · have hpos : 1 ≤ p.BYTEPAD.toNat := by
      rcases Nat.eq_zero_or_pos p.BYTEPAD.toNat with h0 | h0
      · exact absurd (BitVec.eq_of_toNat_eq h0) hb
      · exact h0
    exact ⟨h.unit.run hp' (by decide) hr.1 hr.2, h.code, by simp, by simp, by simp,
      fun _ => ⟨hpos, Nat.le_refl _, hcol⟩, fun _ => ⟨rfl, rfl⟩, by simp [Packer.clearAcc]⟩
  · exact ⟨h.unit.finish hp' (.inl rfl) hrow, h.code, by simp, by simp, by simp, by simp, fun _ => ⟨rfl, rfl⟩,
      by simp [Packer.clearAcc]⟩
  · exact ⟨h.unit.run hp' (by decide) (next_row_lt hr.1 hrow) (Nat.zero_le _), h.code,
      fun _ => ⟨by simp [Packer.clearAcc], ha.width⟩, by simp, by simp, by simp, fun _ => ⟨rfl, rfl⟩,
      by simp [Packer.clearAcc]⟩

/-- `PK.EMIT` keeps the invariant. -/
theorem PkInv.emitted {p : Packer} (h : PkInv p) (hp : p.PHASE = 2#4) :
    PkInv (if p.clearAcc.COL = p.clearAcc.W then p.clearAcc.rowEnd else { p.clearAcc with PHASE := Phase.accum }) := by
  have hph : 1 ≤ p.PHASE.toNat ∧ p.PHASE.toNat ≤ 4 := by rw [hp]; decide
  split
  · exact h.rowEnd hph ‹_›
  · rename_i hne
    have hr := h.unit.running hph.1 hph.2
    have hlt : p.COL < p.W := Nat.lt_of_le_of_ne hr.2 hne
    exact ⟨h.unit.run (n := 0) (k := p.PADCNT) ⟨hph.1, by omega⟩ (by decide) hr.1 hr.2, h.code,
      fun _ => ⟨by simpa [Packer.clearAcc] using ((h.emit hp).2.1).symm, hlt⟩, by simp, by simp, by simp,
      fun _ => ⟨rfl, rfl⟩, by simp [Packer.clearAcc]⟩

/-- `PK.PAD` keeps the invariant. -/
theorem PkInv.padded {p : Packer} (h : PkInv p) (hp : p.PHASE = 4#4) :
    PkInv (if p.PADCNT - 1 = 0#2 then { p with PADCNT := p.PADCNT - 1 }.nextRow
           else { p with PADCNT := p.PADCNT - 1, PHASE := Phase.pad }) := by
  have hph : 1 ≤ p.PHASE.toNat ∧ p.PHASE.toNat ≤ 4 := by rw [hp]; decide
  have hr := h.unit.running hph.1 hph.2
  have hpad := h.pad hp
  have hz := h.empty (.inr (.inl hp))
  have hacc : p.ACC.toNat < 2 ^ p.BITCNT.toNat := h.acc_lt
  have ha := h.unit.active hph.1 (by omega)
  split
  · rcases Packer.nextRow_cases { p with PADCNT := p.PADCNT - 1 } with ⟨hrow, e⟩ | ⟨hrow, e⟩ <;> rw [e]
    · exact ⟨h.unit.finish ⟨hph.1, by omega⟩ (.inl rfl) hrow, h.code, by simp, by simp, by simp, by simp,
        fun _ => hz, hacc⟩
    · exact ⟨h.unit.run ⟨hph.1, by omega⟩ (by decide) (next_row_lt hr.1 hrow) (Nat.zero_le _), h.code,
        fun _ => ⟨by simp [hz.1], ha.width⟩, by simp, by simp, by simp, fun _ => hz, hacc⟩
  · rename_i hne
    have hsub : (p.PADCNT - 1).toNat = p.PADCNT.toNat - 1 := by
      have := p.PADCNT.isLt
      rw [BitVec.toNat_sub]
      simp
      omega
    have hpos : 1 ≤ (p.PADCNT - 1).toNat := by
      rcases Nat.eq_zero_or_pos (p.PADCNT - 1).toNat with h0 | h0
      · exact absurd (BitVec.eq_of_toNat_eq (by simpa using h0)) hne
      · exact h0
    exact ⟨h.unit.run (n := p.BITCNT) ⟨hph.1, by omega⟩ (by decide) hr.1 hr.2, h.code, by simp, by simp, by simp,
      fun _ => ⟨hpos, by show (p.PADCNT - 1).toNat ≤ p.BYTEPAD.toNat; omega, hpad.2.2⟩, fun _ => hz, hacc⟩

/-- In `ACCUM` the bits of one more pixel fit into the accumulator. -/
theorem PkInv.accum_room {p : Packer} (h : PkInv p) (hp : p.PHASE = 1#4) :
    (p.S = 1#4 ∨ p.S = 4#4 ∨ p.S = 8#4) ∧ p.BITCNT.toNat + p.S.toNat ≤ 8 ∧
      (p.BITCNT + p.S).toNat = p.BITCNT.toNat + p.S.toNat := by
  have hs := (h.unit.active (by rw [hp]; decide) (by rw [hp]; decide)).depth
  have hb := (h.accum hp).1
  have hle : p.BITCNT.toNat + p.S.toNat ≤ 8 := by
    rcases hs with e | e | e <;> (rw [e] at hb ⊢; simp at hb ⊢; omega)
  exact ⟨hs, hle, by rw [BitVec.toNat_add]; exact Nat.mod_eq_of_lt (by omega)⟩

/-- No set bit is lost when an index is taken into the accumulator (R143). -/
theorem assemble_toNat {s : BitVec 4} {acc v : Byte} {n : Nat} (hacc : acc.toNat < 2 ^ n) (hn : n + s.toNat ≤ 8)
    (hv : v.toNat < 2 ^ s.toNat) : (assemble s acc v).toNat = acc.toNat * 2 ^ s.toNat + v.toNat := by
  have hlt : acc.toNat * 2 ^ s.toNat < 256 := by
    calc acc.toNat * 2 ^ s.toNat < 2 ^ n * 2 ^ s.toNat := Nat.mul_lt_mul_of_pos_right hacc (Nat.two_pow_pos _)
      _ = 2 ^ (n + s.toNat) := (Nat.pow_add ..).symm
      _ ≤ 2 ^ 8 := Nat.pow_le_pow_right (by decide) hn
  unfold assemble
  rw [BitVec.toNat_or, BitVec.toNat_shiftLeft, Nat.shiftLeft_eq, Nat.mod_eq_of_lt hlt,
    ← Nat.shiftLeft_eq, ← Nat.shiftLeft_add_eq_or_of_lt hv]

/-- `PK.ACCUM` with a legal index keeps the invariant. -/
theorem PkInv.accumulate {p : Packer} (h : PkInv p) (hp : p.PHASE = 1#4) {v : Byte} (hv : v.toNat < 2 ^ p.S.toNat) :
    PkInv (p.accumulate v) := by
  have hph : 1 ≤ p.PHASE.toNat ∧ p.PHASE.toNat ≤ 4 := by rw [hp]; decide
  have hr := h.unit.running hph.1 hph.2
  have ha := h.unit.active hph.1 (by omega)
  obtain ⟨hb, hlt⟩ := h.accum hp
  obtain ⟨hs, hle, hadd⟩ := h.accum_room hp
  have hmul : (p.COL + 1) * p.S.toNat = p.COL * p.S.toNat + p.S.toNat := by rw [Nat.add_mul, Nat.one_mul]
  have hacc : (assemble p.S p.ACC v).toNat < 2 ^ (p.BITCNT + p.S).toNat := by
    rw [assemble_toNat h.acc_lt hle hv, hadd, Nat.pow_add]
    have := h.acc_lt
    calc p.ACC.toNat * 2 ^ p.S.toNat + v.toNat < p.ACC.toNat * 2 ^ p.S.toNat + 2 ^ p.S.toNat := by omega
      _ = (p.ACC.toNat + 1) * 2 ^ p.S.toNat := by rw [Nat.add_mul, Nat.one_mul]
      _ ≤ 2 ^ p.BITCNT.toNat * 2 ^ p.S.toNat := Nat.mul_le_mul_right _ this
  have hmod : (p.COL + 1) * p.S.toNat % 8 = (p.BITCNT.toNat + p.S.toNat) % 8 := by rw [hmul, hb]; omega
  have hunit : ∀ q : PhaseCode, 1 ≤ q.toNat ∧ q.toNat ≤ 4 →
      UnitInv { p.toUnitRegs with BITCNT := p.BITCNT + p.S, COL := p.COL + 1, PHASE := q } := fun q hq =>
    h.unit.run (k := p.PADCNT) ⟨hph.1, by omega⟩ hq hr.1 (by omega)
  simp only [Packer.accumulate]
  by_cases h8 : p.BITCNT + p.S = 8#4
  · have h8' : p.BITCNT.toNat + p.S.toNat = 8 := by rw [← hadd, h8]; rfl
    rw [if_pos h8]
    exact ⟨hunit _ (by decide), h.code, by simp,
      fun _ => ⟨h8, by show (p.COL + 1) * p.S.toNat % 8 = 0; omega, by show 1 ≤ p.COL + 1; omega⟩,
      by simp, by simp, by simp, hacc⟩
  · have h8' : p.BITCNT.toNat + p.S.toNat < 8 := by
      have : (p.BITCNT + p.S).toNat ≠ 8 := fun e => h8 (BitVec.eq_of_toNat_eq e)
      omega
    have hspos : 1 ≤ p.S.toNat := by rcases hs with e | e | e <;> rw [e] <;> decide
    rw [if_neg h8]
    by_cases hw : p.COL + 1 = p.W
    · rw [if_pos ⟨by omega, hw⟩]
      refine ⟨hunit _ (by decide), h.code, by simp, by simp, fun _ => ⟨?_, ?_, hw, ?_⟩, by simp, by simp, hacc⟩
      · show 1 ≤ (p.BITCNT + p.S).toNat; omega
      · show (p.BITCNT + p.S).toNat ≤ 7; omega
      · show 8 - (p.BITCNT + p.S).toNat = p.BITPAD.toNat
        rw [ha.geometry.bitpad, ← hw]
        unfold bitPad bitsPerRow
        omega
    · rw [if_neg (fun hh => hw hh.2)]
      refine ⟨hunit _ (by decide), h.code, fun _ => ⟨?_, ?_⟩, by simp, by simp, by simp, by simp, hacc⟩
      · show (p.BITCNT + p.S).toNat = (p.COL + 1) * p.S.toNat % 8
        omega
      · show p.COL + 1 < p.W
        omega

/-- `PK.OKTERM` keeps the invariant. -/
theorem PkInv.terminated {p : Packer} (h : PkInv p) (hp : p.PHASE = 5#4) : PkInv { p with PHASE := 6#4 } := by
  have hf := h.unit.finished (.inl hp)
  have hz := h.empty (.inr (.inr (.inl hp)))
  have hu : UnitInv { p.toUnitRegs with PHASE := 6#4 } := by
    have := h.unit.finish (q := 6#4) (n := p.BITCNT) (k := p.PADCNT) (by rw [hp]; decide) (.inr rfl) hf.1
    rwa [← hf.2] at this
  exact ⟨hu, h.code, by simp, by simp, by simp, by simp, fun _ => hz, h.acc_lt⟩

/-- `PK.FAILTERM` keeps the invariant. -/
theorem PkInv.failed {p : Packer} (h : PkInv p) (hp : p.PHASE = 7#4) : PkInv { p with PHASE := 8#4 } :=
  ⟨h.unit.toErr hp, h.code, by simp, by simp, by simp, by simp, by simp, h.acc_lt⟩

/-! ### The unpacker -/

theorem UpInv.raiseFault {p : Unpacker} (h : UpInv p) {c : BitVec 4} (h0 : c ≠ 0#4) (h2 : c ≠ 2#4) (h4 : c.toNat ≤ 4) :
    UpInv (p.raiseFault c) where
  unit := h.unit.raiseFault h0 h4
  code := h2
  no_pad := by simp
  fetch := by simp
  extract := by simp
  skip := by simp

theorem UpInv.configuration {p : Unpacker} (h : UpInv p) (w ht d pl : Nat) (e : Bool) :
    UpInv { p with WIDTH := w, HEIGHT := ht, DEPTH := d, PAL_LEN := pl, CMDERR := e } where
  unit := h.unit.configuration w ht d e
  code := h.code
  no_pad := h.no_pad
  fetch := h.fetch
  extract := h.extract
  skip := h.skip

theorem UpInv.softReset (p : Unpacker) : UpInv p.softReset where
  unit := UnitInv.softReset _
  code := by simp
  no_pad := by simp
  fetch := by simp
  extract := by simp
  skip := by simp

theorem UpInv.start {p : Unpacker} (h : UpInv p) : UpInv p.start := by
  rcases p.start_cases with ⟨-, hc, e⟩ | ⟨-, -, e⟩ | ⟨-, e⟩ <;> rw [e]
  · exact ⟨UnitInv.latch hc, by simp, by simp, fun _ => ⟨legal_width hc, by simp⟩, by simp, by simp⟩
  · exact h.raiseFault (by decide) (by decide) (by decide)
  · exact h.configuration _ _ _ _ _

/-- `UP.FETCH` keeps the invariant. -/
theorem UpInv.load {p : Unpacker} (h : UpInv p) (hp : p.PHASE = 1#4) (b : Byte) : UpInv (p.load b) := by
  have hph : 1 ≤ p.PHASE.toNat ∧ p.PHASE.toNat ≤ 4 := by rw [hp]; decide
  have hr := h.unit.running hph.1 hph.2
  have hs := (h.unit.active hph.1 (by omega)).depth
  obtain ⟨hlt, hmod⟩ := h.fetch hp
  refine ⟨h.unit.run (k := p.PADCNT) ⟨hph.1, by omega⟩ (by decide) hr.1 hr.2, h.code, by simp [Unpacker.load],
    by simp [Unpacker.load], fun _ => ⟨hlt, ?_, ?_, ?_, ?_⟩, by simp [Unpacker.load]⟩
  · simpa [Unpacker.load] using hmod.symm
  · rcases hs with e | e | e <;> simp [Unpacker.load, e]
  · simp [Unpacker.load]
  · simp [Unpacker.load, Nat.mod_one]

/-- `UP.SKIP` keeps the invariant. -/
theorem UpInv.skipped {p : Unpacker} (h : UpInv p) (hp : p.PHASE = 3#4) : UpInv p.skipByte := by
  have hph : 1 ≤ p.PHASE.toNat ∧ p.PHASE.toNat ≤ 4 := by rw [hp]; decide
  have hr := h.unit.running hph.1 hph.2
  have hk := h.skip hp
  have ha := h.unit.active hph.1 (by omega)
  have hsub : (p.PADCNT - 1).toNat = p.PADCNT.toNat - 1 := by
    have := p.PADCNT.isLt
    rw [BitVec.toNat_sub]
    simp
    omega
  simp only [Unpacker.skipByte]
  by_cases h0 : p.PADCNT - 1 = 0#2
  · rw [if_pos h0]
    refine ⟨h.unit.run (n := p.BITCNT) (col := p.COL) ⟨hph.1, by omega⟩ (by decide) hr.1 hr.2, h.code, by simp,
      fun _ => ⟨?_, ?_⟩, by simp, by simp⟩
    · show p.COL < p.W
      have := ha.width
      rw [hk.2.2.1]; exact this
    · show p.COL * p.S.toNat % 8 = 0
      rw [hk.2.2.1]; simp
  · rw [if_neg h0]
    have hpos : 1 ≤ (p.PADCNT - 1).toNat := by
      rcases Nat.eq_zero_or_pos (p.PADCNT - 1).toNat with h' | h'
      · exact absurd (BitVec.eq_of_toNat_eq (by simpa using h')) h0
      · exact h'
    exact ⟨h.unit.run (n := p.BITCNT) (col := p.COL) ⟨hph.1, by omega⟩ (by decide) hr.1 hr.2, h.code, by simp, by simp,
      by simp, fun _ => ⟨hpos, by show (p.PADCNT - 1).toNat ≤ p.BYTEPAD.toNat; omega, hk.2.2.1, hk.2.2.2⟩⟩

/-- The bits below those already extracted are zero after another index was shifted out. -/
theorem shiftOut_low {s : BitVec 4} {b : Byte} {n : Nat} (hb : b.toNat % 2 ^ n = 0) (hn : n + s.toNat ≤ 8) :
    (shiftOut s b).toNat % 2 ^ (n + s.toNat) = 0 := by
  unfold shiftOut
  rw [BitVec.toNat_shiftLeft, Nat.shiftLeft_eq]
  have hd : 2 ^ (n + s.toNat) ∣ 2 ^ 8 := Nat.pow_dvd_pow 2 hn
  rw [Nat.mod_mod_of_dvd _ hd, Nat.pow_add]
  obtain ⟨k, hk⟩ := Nat.dvd_of_mod_eq_zero hb
  rw [hk, Nat.mul_assoc, Nat.mul_comm k, ← Nat.mul_assoc]
  exact Nat.mul_mod_right _ _

/-- `UP.EXTRACT` of an index in the palette keeps the invariant. -/
theorem UpInv.advance {p : Unpacker} (h : UpInv p) (hp : p.PHASE = 2#4) : UpInv p.advance := by
  have hph : 1 ≤ p.PHASE.toNat ∧ p.PHASE.toNat ≤ 4 := by rw [hp]; decide
  have hp6 : 1 ≤ p.PHASE.toNat ∧ p.PHASE.toNat ≤ 6 := by omega
  have hr := h.unit.running hph.1 hph.2
  have ha := h.unit.active hph.1 (by omega)
  obtain ⟨hlt, hb, hle, hdiv, hlow⟩ := h.extract hp
  have hadd : (p.BITCNT + p.S).toNat = p.BITCNT.toNat + p.S.toNat := by
    rw [BitVec.toNat_add]; exact Nat.mod_eq_of_lt (by omega)
  have hmul : (p.COL + 1) * p.S.toNat = p.COL * p.S.toNat + p.S.toNat := by rw [Nat.add_mul, Nat.one_mul]
  have hmod : (p.COL + 1) * p.S.toNat % 8 = (p.BITCNT.toNat + p.S.toNat) % 8 := by rw [hmul, hb]; omega
  have hlt' : p.COL + 1 ≠ p.W → p.COL + 1 < p.W := fun hne => by omega
  rcases p.advance_cases with ⟨hc, h8, e⟩ | ⟨hc, h8, e⟩ | ⟨hc, hrw, e⟩ | ⟨hc, hrw, hbp, e⟩ | ⟨hc, hrw, hbp, e⟩ <;> rw [e]
  · have h8' : p.BITCNT.toNat + p.S.toNat = 8 := by rw [← hadd, h8]; rfl
    exact ⟨h.unit.run (k := p.PADCNT) hp6 (by decide) hr.1 (by omega), h.code, by simp,
      fun _ => ⟨hlt' hc, by show (p.COL + 1) * p.S.toNat % 8 = 0; omega⟩, by simp, by simp⟩
  · have h8' : p.BITCNT.toNat + p.S.toNat < 8 := by
      have : (p.BITCNT + p.S).toNat ≠ 8 := fun e => h8 (BitVec.eq_of_toNat_eq e)
      omega
    refine ⟨h.unit.run (k := p.PADCNT) hp6 (by decide) hr.1 (by omega), h.code, by simp, by simp,
      fun _ => ⟨hlt' hc, ?_, ?_, ?_, ?_⟩, by simp⟩
    · show (p.BITCNT + p.S).toNat = (p.COL + 1) * p.S.toNat % 8
      omega
    · show (p.BITCNT + p.S).toNat + p.S.toNat ≤ 8
      rcases ha.depth with e | e | e <;> (rw [e] at hdiv h8' hadd ⊢; simp at hdiv h8' hadd ⊢ <;> omega)
    · show (p.BITCNT + p.S).toNat % p.S.toNat = 0
      rw [hadd, Nat.add_mod_right]; exact hdiv
    · show (shiftOut p.S p.SHREG).toNat % 2 ^ (p.BITCNT + p.S).toNat = 0
      rw [hadd]; exact shiftOut_low hlow hle
  · exact ⟨h.unit.finish hp6 (.inl rfl) hrw, h.code, by simp, by simp, by simp, by simp⟩
  · exact ⟨h.unit.run hp6 (by decide) (next_row_lt hr.1 hrw) (Nat.zero_le _), h.code, by simp,
      fun _ => ⟨ha.width, by simp⟩, by simp, by simp⟩
  · have hpos : 1 ≤ p.BYTEPAD.toNat := by
      rcases Nat.eq_zero_or_pos p.BYTEPAD.toNat with h' | h'
      · exact absurd (BitVec.eq_of_toNat_eq (by simpa using h')) hbp
      · exact h'
    exact ⟨h.unit.run hp6 (by decide) (next_row_lt hr.1 hrw) (Nat.zero_le _), h.code, by simp, by simp, by simp,
      fun _ => ⟨hpos, Nat.le_refl _, rfl, by show 1 ≤ p.ROW + 1; omega⟩⟩

/-- `UP.OKTERM` keeps the invariant. -/
theorem UpInv.terminated {p : Unpacker} (h : UpInv p) (hp : p.PHASE = 5#4) : UpInv { p with PHASE := 6#4 } := by
  have hf := h.unit.finished (.inl hp)
  have hu : UnitInv { p.toUnitRegs with PHASE := 6#4 } := by
    have := h.unit.finish (q := 6#4) (n := p.BITCNT) (k := p.PADCNT) (by rw [hp]; decide) (.inr rfl) hf.1
    rwa [← hf.2] at this
  exact ⟨hu, h.code, by simp, by simp, by simp, by simp⟩

/-- `UP.FAILTERM` keeps the invariant. -/
theorem UpInv.failed {p : Unpacker} (h : UpInv p) (hp : p.PHASE = 7#4) : UpInv { p with PHASE := 8#4 } :=
  ⟨h.unit.toErr hp, h.code, by simp, by simp, by simp, by simp⟩

/-! ### The registers of `REGW` bits hold numbers of `REGW` bits (R143)

Counters stay below the sizes they count to, and a byte width is at most the width it is computed from. -/

theorem RegsFit.configuration {c : Config} {r : UnitRegs} (h : RegsFit c r) {w ht d : Nat} (e : Bool)
    (hw : w < 2 ^ c.REGW) (hh : ht < 2 ^ c.REGW) (hd : d < 2 ^ c.REGW) :
    RegsFit c { r with WIDTH := w, HEIGHT := ht, DEPTH := d, CMDERR := e } :=
  ⟨hw, hh, hd, h.w, h.h, h.bytew, h.col, h.row⟩

theorem RegsFit.raiseFault {c : Config} {r : UnitRegs} (h : RegsFit c r) (e : BitVec 4) : RegsFit c (r.raiseFault e) :=
  ⟨h.width, h.height, h.depth, h.w, h.h, h.bytew, h.col, h.row⟩

theorem RegsFit.softReset {c : Config} {r : UnitRegs} (h : RegsFit c r) : RegsFit c r.softReset :=
  have z := Nat.two_pow_pos c.REGW
  ⟨h.width, h.height, h.depth, z, z, z, z, z⟩

theorem RegsFit.latch {c : Config} {r : UnitRegs} (h : RegsFit c r) (hl : r.configLegal = true) : RegsFit c r.latch where
  width := h.width
  height := h.height
  depth := h.depth
  w := h.width
  h := h.height
  bytew := by
    have hd := legal_depth hl
    rw [UnitRegs.latch_BYTEW, depth_toNat hd]
    exact Nat.lt_of_le_of_lt (byteWidth_le hd) h.width
  col := Nat.two_pow_pos _
  row := Nat.two_pow_pos _

/-- Writing the working registers keeps the widths, as long as `ROW` and `COL` stay in their ranges. -/
theorem RegsFit.run {c : Config} {r : UnitRegs} (h : RegsFit c r) {q : PhaseCode} {n : BitVec 4} {k : BitVec 2}
    {row col : Nat} (hrow : row ≤ r.H) (hcol : col ≤ r.W) :
    RegsFit c { r with BITCNT := n, PADCNT := k, ROW := row, COL := col, PHASE := q } :=
  ⟨h.width, h.height, h.depth, h.w, h.h, h.bytew, Nat.lt_of_le_of_lt hcol h.w, Nat.lt_of_le_of_lt hrow h.h⟩

/-- A change of phase keeps the widths. -/
theorem RegsFit.toPhase {c : Config} {r : UnitRegs} (h : RegsFit c r) (q : PhaseCode) :
    RegsFit c { r with PHASE := q } :=
  ⟨h.width, h.height, h.depth, h.w, h.h, h.bytew, h.col, h.row⟩

theorem RegsFit.packerStart {c : Config} {p : Packer} (h : RegsFit c p.toUnitRegs) : RegsFit c p.start.toUnitRegs := by
  rcases p.start_cases with ⟨-, hc, e⟩ | ⟨-, -, e⟩ | ⟨-, e⟩ <;> rw [e]
  · exact h.latch hc
  · exact h.raiseFault _
  · exact h.configuration true h.width h.height h.depth

theorem RegsFit.unpackerStart {c : Config} {p : Unpacker} (h : RegsFit c p.toUnitRegs) :
    RegsFit c p.start.toUnitRegs := by
  rcases p.start_cases with ⟨-, hc, e⟩ | ⟨-, -, e⟩ | ⟨-, e⟩ <;> rw [e]
  · exact h.latch hc
  · exact h.raiseFault _
  · exact h.configuration true h.width h.height h.depth

theorem RegsFit.accumulate {c : Config} {p : Packer} (h : RegsFit c p.toUnitRegs) (hcol : p.COL < p.W) (v : Byte) :
    RegsFit c (p.accumulate v).toUnitRegs :=
  ⟨h.width, h.height, h.depth, h.w, h.h, h.bytew, Nat.lt_of_le_of_lt (Nat.succ_le_of_lt hcol) h.w, h.row⟩

theorem RegsFit.nextRow {c : Config} {p : Packer} (h : RegsFit c p.toUnitRegs) (hrow : p.ROW < p.H) :
    RegsFit c p.nextRow.toUnitRegs := by
  rcases p.nextRow_cases with ⟨-, e⟩ | ⟨-, e⟩ <;> rw [e] <;> exact h.run hrow (Nat.zero_le _)

theorem RegsFit.rowEnd {c : Config} {p : Packer} (h : RegsFit c p.toUnitRegs) (hrow : p.ROW < p.H) :
    RegsFit c p.rowEnd.toUnitRegs := by
  rcases p.rowEnd_cases with ⟨-, e⟩ | ⟨-, -, e⟩ | ⟨-, -, e⟩ <;> rw [e]
  · exact ⟨h.width, h.height, h.depth, h.w, h.h, h.bytew, h.col, h.row⟩
  · exact h.run hrow (Nat.zero_le _)
  · exact h.run hrow (Nat.zero_le _)

theorem RegsFit.advance {c : Config} {p : Unpacker} (h : RegsFit c p.toUnitRegs) (hrow : p.ROW < p.H)
    (hcol : p.COL < p.W) : RegsFit c p.advance.toUnitRegs := by
  have hr := Nat.le_of_lt hrow
  rcases p.advance_cases with ⟨-, -, e⟩ | ⟨-, -, e⟩ | ⟨-, -, e⟩ | ⟨-, -, -, e⟩ | ⟨-, -, -, e⟩ <;> rw [e]
  · exact h.run (k := p.PADCNT) hr hcol
  · exact h.run (k := p.PADCNT) hr hcol
  · exact h.run (k := p.PADCNT) hrow (Nat.zero_le _)
  · exact h.run hrow (Nat.zero_le _)
  · exact h.run hrow (Nat.zero_le _)

theorem RegsFit.load {c : Config} {p : Unpacker} (h : RegsFit c p.toUnitRegs) (b : Byte) :
    RegsFit c (p.load b).toUnitRegs :=
  ⟨h.width, h.height, h.depth, h.w, h.h, h.bytew, h.col, h.row⟩

theorem RegsFit.skipByte {c : Config} {p : Unpacker} (h : RegsFit c p.toUnitRegs) : RegsFit c p.skipByte.toUnitRegs :=
  ⟨h.width, h.height, h.depth, h.w, h.h, h.bytew, h.col, h.row⟩

end Sys2Proof.Machine
end

