-- ==== Sys2Proof/Laws/PerInstr.lean ====
section
/-! SUPPORT. One lemma per operation: decoding its encoding gives the operation back, and the bits of its descriptor give
the descriptor back, for each width of the registers (R5, R101, R102, R106, R107). -/

namespace Sys2Proof.Laws.RoundTrip

/-- The statement about one operation, on a block with `REGW = regw`. -/
def Statement (i : Instr) : Prop :=
  ∀ regw : Nat, 16 ≤ regw → i.wellFormed regw = true →
    decode (encode i) = .ok i ∧ ∀ d, encode i = .hostop d → Descriptor.ofBits regw (d.bits regw) = d

/-- A host operation goes round if its descriptor, read field by field, gives it back and its data word has `regw` bits. -/
theorem of_descriptor {i : Instr} {u : UnitId} {wr : Bool} {reg : BitVec 6} {v : Nat}
    (he : encode i = .hostop (descriptor u wr reg v))
    (hd : ∀ regw, i.wellFormed regw = true → decodeHostOp (descriptor u wr reg v) = i)
    (hv : ∀ regw, 16 ≤ regw → i.wellFormed regw = true → v < 2 ^ regw) : Statement i := by
  intro regw hr h
  refine ⟨by rw [he, decode, hd regw h], fun d hd' => ?_⟩
  obtain rfl : descriptor u wr reg v = d := by rw [he] at hd'; exact Code.hostop.inj hd'
  exact ofBits_bits (hv regw hr h)

/-- A micro-operation goes round if its phase code decodes to it. -/
theorem of_phase {i : Instr} {u : UnitId} {p : PhaseCode} (he : encode i = .phase u p)
    (hd : decode (.phase u p) = .ok i) : Statement i := fun _ _ _ =>
  ⟨by rw [he, hd], fun d hd' => by rw [he] at hd'; exact Code.noConfusion hd'⟩

/-- The data words of the commands have two bits. -/
theorem small_fits {v regw : Nat} (hv : v < 3) (hr : 16 ≤ regw) : v < 2 ^ regw :=
  Nat.lt_of_lt_of_le (Nat.lt_trans hv (by decide)) (Nat.pow_le_pow_right (by decide : 0 < 2) hr : 2 ^ 16 ≤ _)

theorem fits {v regw : Nat} (h : fitsWord regw v = true) : v < 2 ^ regw := of_decide_eq_true h

theorem pkNop : Statement .pkNop :=
  of_descriptor rfl (fun _ _ => by rw [decodeHostOp_descriptor]; rfl) fun _ hr _ => small_fits (by decide) hr

theorem pkStart : Statement .pkStart :=
  of_descriptor rfl (fun _ _ => by rw [decodeHostOp_descriptor]; rfl) fun _ hr _ => small_fits (by decide) hr

theorem pkReset : Statement .pkReset :=
  of_descriptor rfl (fun _ _ => by rw [decodeHostOp_descriptor]; rfl) fun _ hr _ => small_fits (by decide) hr

theorem pkCmdIllegal (d : Nat) : Statement (.pkCmdIllegal d) :=
  of_descriptor rfl
    (fun _ h => by rw [decodeHostOp_descriptor]; exact decodePkCommand_illegal (Bool.and_eq_true_iff.1 h).2)
    fun _ _ h => fits (Bool.and_eq_true_iff.1 h).1

theorem pkWrWidth (v : Nat) : Statement (.pkWrWidth v) :=
  of_descriptor rfl (fun _ _ => by rw [decodeHostOp_descriptor]; rfl) fun _ _ h => fits h

theorem pkWrHeight (v : Nat) : Statement (.pkWrHeight v) :=
  of_descriptor rfl (fun _ _ => by rw [decodeHostOp_descriptor]; rfl) fun _ _ h => fits h

theorem pkWrDepth (v : Nat) : Statement (.pkWrDepth v) :=
  of_descriptor rfl (fun _ _ => by rw [decodeHostOp_descriptor]; rfl) fun _ _ h => fits h

theorem pkWrIgnored (reg : BitVec 6) (v : Nat) : Statement (.pkWrIgnored reg v) :=
  of_descriptor rfl
    (fun _ h => by rw [decodeHostOp_descriptor]; exact decodePkWrite_ignored (Bool.and_eq_true_iff.1 h).2)
    fun _ _ h => fits (Bool.and_eq_true_iff.1 h).1

theorem pkRd (reg : BitVec 6) : Statement (.pkRd reg) :=
  of_descriptor rfl (fun _ _ => decodeHostOp_descriptor _ _ _ _) fun _ hr _ => small_fits (by decide) hr

theorem upNop : Statement .upNop :=
  of_descriptor rfl (fun _ _ => by rw [decodeHostOp_descriptor]; rfl) fun _ hr _ => small_fits (by decide) hr

theorem upStart : Statement .upStart :=
  of_descriptor rfl (fun _ _ => by rw [decodeHostOp_descriptor]; rfl) fun _ hr _ => small_fits (by decide) hr

theorem upReset : Statement .upReset :=
  of_descriptor rfl (fun _ _ => by rw [decodeHostOp_descriptor]; rfl) fun _ hr _ => small_fits (by decide) hr

theorem upCmdIllegal (d : Nat) : Statement (.upCmdIllegal d) :=
  of_descriptor rfl
    (fun _ h => by rw [decodeHostOp_descriptor]; exact decodeUpCommand_illegal (Bool.and_eq_true_iff.1 h).2)
    fun _ _ h => fits (Bool.and_eq_true_iff.1 h).1

theorem upWrWidth (v : Nat) : Statement (.upWrWidth v) :=
  of_descriptor rfl (fun _ _ => by rw [decodeHostOp_descriptor]; rfl) fun _ _ h => fits h

theorem upWrHeight (v : Nat) : Statement (.upWrHeight v) :=
  of_descriptor rfl (fun _ _ => by rw [decodeHostOp_descriptor]; rfl) fun _ _ h => fits h

theorem upWrDepth (v : Nat) : Statement (.upWrDepth v) :=
  of_descriptor rfl (fun _ _ => by rw [decodeHostOp_descriptor]; rfl) fun _ _ h => fits h

theorem upWrPalLen (v : Nat) : Statement (.upWrPalLen v) :=
  of_descriptor rfl (fun _ _ => by rw [decodeHostOp_descriptor]; rfl) fun _ _ h => fits h

theorem upWrIgnored (reg : BitVec 6) (v : Nat) : Statement (.upWrIgnored reg v) :=
  of_descriptor rfl
    (fun _ h => by rw [decodeHostOp_descriptor]; exact decodeUpWrite_ignored (Bool.and_eq_true_iff.1 h).2)
    fun _ _ h => fits (Bool.and_eq_true_iff.1 h).1

theorem upRd (reg : BitVec 6) : Statement (.upRd reg) :=
  of_descriptor rfl (fun _ _ => decodeHostOp_descriptor _ _ _ _) fun _ hr _ => small_fits (by decide) hr

theorem pkAccum : Statement .pkAccum := of_phase rfl rfl

theorem pkEmit : Statement .pkEmit := of_phase rfl rfl

theorem pkFlush : Statement .pkFlush := of_phase rfl rfl

theorem pkPad : Statement .pkPad := of_phase rfl rfl

theorem pkOkterm : Statement .pkOkterm := of_phase rfl rfl

theorem pkFailterm : Statement .pkFailterm := of_phase rfl rfl

theorem upFetch : Statement .upFetch := of_phase rfl rfl

theorem upExtract : Statement .upExtract := of_phase rfl rfl

theorem upSkip : Statement .upSkip := of_phase rfl rfl

theorem upOkterm : Statement .upOkterm := of_phase rfl rfl

theorem upFailterm : Statement .upFailterm := of_phase rfl rfl

theorem pkIdle : Statement .pkIdle := of_phase rfl rfl

theorem pkDone : Statement .pkDone := of_phase rfl rfl

theorem pkErr : Statement .pkErr := of_phase rfl rfl

theorem upIdle : Statement .upIdle := of_phase rfl rfl

theorem upDone : Statement .upDone := of_phase rfl rfl

theorem upErr : Statement .upErr := of_phase rfl rfl

end Sys2Proof.Laws.RoundTrip
end

