-- ==== Sys2Proof/Laws/Phases.lean ====
section
/-! SUPPORT. What the phase of a unit selects, where each operation leaves the phase, and how the invariant of the
channels is kept (R37, R66, R79, R107). -/

namespace Sys2Proof.Machine

/-! ### Operations answer a next state -/

/-- No operation stops. -/
theorem exec_next (i : Instr) (s : State) : ∃ t, exec i s = .next t := by
  cases i <;> simp only [exec, execPkNop, execPkStart, execPkReset, execPkCmdIllegal, execPkWrWidth, execPkWrHeight,
    execPkWrDepth, execPkWrIgnored, execPkRd, execUpNop, execUpStart, execUpReset, execUpCmdIllegal, execUpWrWidth,
    execUpWrHeight, execUpWrDepth, execUpWrPalLen, execUpWrIgnored, execUpRd, execPkAccum, execPkEmit, execPkFlush,
    execPkPad, execPkOkterm, execPkFailterm, execUpFetch, execUpExtract, execUpSkip, execUpOkterm, execUpFailterm,
    execPkIdle, execPkDone, execPkErr, execUpIdle, execUpDone, execUpErr] <;> (repeat' split) <;> exact ⟨_, rfl⟩

/-! ### What a phase selects -/

/-- A bit vector with a known value. -/
theorem eq_ofNat_of_toNat {w : Nat} {p : BitVec w} {k : Nat} (h : p.toNat = k) : p = BitVec.ofNat w k := by
  rw [← h, BitVec.ofNat_toNat, BitVec.setWidth_eq]

/-- The phase in which `PK` takes an operation (R107). -/
theorem decode_phase_pk {p : PhaseCode} {i : Instr} (h : decode (.phase .PK p) = .ok i) :
    (p = 0#4 ∧ i = .pkIdle) ∨ (p = 1#4 ∧ i = .pkAccum) ∨ (p = 2#4 ∧ i = .pkEmit) ∨ (p = 3#4 ∧ i = .pkFlush) ∨
    (p = 4#4 ∧ i = .pkPad) ∨ (p = 5#4 ∧ i = .pkOkterm) ∨ (p = 6#4 ∧ i = .pkDone) ∨ (p = 7#4 ∧ i = .pkFailterm) ∨
    (p = 8#4 ∧ i = .pkErr) := by
  simp only [decode, decodePkPhase] at h
  split at h <;> cases h <;> (rename_i hp; have := eq_ofNat_of_toNat hp; subst this; simp)

/-- The phase in which `UP` takes an operation (R107). -/
theorem decode_phase_up {p : PhaseCode} {i : Instr} (h : decode (.phase .UP p) = .ok i) :
    (p = 0#4 ∧ i = .upIdle) ∨ (p = 1#4 ∧ i = .upFetch) ∨ (p = 2#4 ∧ i = .upExtract) ∨ (p = 3#4 ∧ i = .upSkip) ∨
    (p = 5#4 ∧ i = .upOkterm) ∨ (p = 6#4 ∧ i = .upDone) ∨ (p = 7#4 ∧ i = .upFailterm) ∨ (p = 8#4 ∧ i = .upErr) := by
  simp only [decode, decodeUpPhase] at h
  split at h <;> cases h <;> (rename_i hp; have := eq_ofNat_of_toNat hp; subst this; simp)

/-! ### Where the phase goes -/

/-- `START` of `PK` goes to `ACCUM` or `FAILTERM`, or leaves the phase and the code. -/
theorem Packer.start_phase (p : Packer) :
    p.start.PHASE = 1#4 ∨ p.start.PHASE = 7#4 ∨ (p.start.PHASE = p.PHASE ∧ p.start.ERRCODE = p.ERRCODE) := by
  rcases p.start_cases with ⟨-, hc, e⟩ | ⟨-, -, e⟩ | ⟨-, e⟩ <;> rw [e] <;> simp

/-- `START` of `UP` goes to `FETCH` or `FAILTERM`, or leaves the phase and the code. -/
theorem Unpacker.start_phase (p : Unpacker) :
    p.start.PHASE = 1#4 ∨ p.start.PHASE = 7#4 ∨ (p.start.PHASE = p.PHASE ∧ p.start.ERRCODE = p.ERRCODE) := by
  rcases p.start_cases with ⟨-, hc, e⟩ | ⟨-, -, e⟩ | ⟨-, e⟩ <;> rw [e] <;> simp

/-- After the end of a row comes `PAD`, `OKTERM` or `ACCUM` (R165). -/
theorem Packer.rowEnd_phase (p : Packer) : p.rowEnd.PHASE = 4#4 ∨ p.rowEnd.PHASE = 5#4 ∨ p.rowEnd.PHASE = 1#4 := by
  rcases p.rowEnd_cases with ⟨_, e⟩ | ⟨_, _, e⟩ | ⟨_, _, e⟩ <;> rw [e] <;> simp

/-- After a row is counted comes `OKTERM` or `ACCUM` (R165). -/
theorem Packer.nextRow_phase (p : Packer) : p.nextRow.PHASE = 5#4 ∨ p.nextRow.PHASE = 1#4 := by
  rcases p.nextRow_cases with ⟨_, e⟩ | ⟨_, e⟩ <;> rw [e] <;> simp

/-- After an index was taken comes `ACCUM`, `EMIT` or `FLUSH` (R161). -/
theorem Packer.accumulate_phase (p : Packer) (v : Byte) :
    (p.accumulate v).PHASE = 1#4 ∨ (p.accumulate v).PHASE = 2#4 ∨ (p.accumulate v).PHASE = 3#4 := by
  simp only [Packer.accumulate]
  repeat' split
  all_goals simp

/-- After an index was given out comes `FETCH`, `EXTRACT`, `SKIP` or `OKTERM` (R192). -/
theorem Unpacker.advance_phase (p : Unpacker) :
    p.advance.PHASE = 1#4 ∨ p.advance.PHASE = 2#4 ∨ p.advance.PHASE = 3#4 ∨ p.advance.PHASE = 5#4 := by
  rcases p.advance_cases with ⟨_, _, e⟩ | ⟨_, _, e⟩ | ⟨_, _, e⟩ | ⟨_, _, _, e⟩ | ⟨_, _, _, e⟩ <;> rw [e] <;> simp

/-- After a padding byte was discarded comes `FETCH` or `SKIP` (R193). -/
theorem Unpacker.skipByte_phase (p : Unpacker) : p.skipByte.PHASE = 1#4 ∨ p.skipByte.PHASE = 3#4 := by
  simp only [Unpacker.skipByte]
  split <;> simp

/-! ### What an operation appends -/

/-- An operation other than the two that close a frame appends nothing to `Out(PK)`, or one data token (R74). -/
theorem exec_outPk {i : Instr} {s t : State} (h1 : i ≠ .pkOkterm) (h2 : i ≠ .pkFailterm) (he : exec i s = .next t) :
    t.outPk = s.outPk ∨ ∃ v, t.outPk = s.outPk.push (.D v) := by
  cases i
  case pkOkterm => exact absurd rfl h1
  case pkFailterm => exact absurd rfl h2
  case pkAccum =>
    rcases execPkAccum_cases he with ⟨-, rfl⟩ | ⟨_, _, -, rfl⟩ | ⟨_, _, -, -, rfl⟩ | ⟨_, _, -, -, rfl⟩ <;> exact .inl rfl
  case upFetch =>
    rcases execUpFetch_cases he with ⟨-, rfl⟩ | ⟨_, _, -, rfl⟩ | ⟨_, _, -, rfl⟩ <;> exact .inl rfl
  case upSkip =>
    rcases execUpSkip_cases he with ⟨-, rfl⟩ | ⟨_, _, -, rfl⟩ | ⟨_, _, -, rfl⟩ <;> exact .inl rfl
  case upExtract =>
    rcases execUpExtract_cases he with ⟨-, rfl⟩ | ⟨-, rfl⟩ <;> exact .inl rfl
  case pkEmit => cases he; exact .inr ⟨_, rfl⟩
  case pkFlush => cases he; exact .inr ⟨_, rfl⟩
  case pkPad => cases he; exact .inr ⟨_, rfl⟩
  all_goals cases he; exact .inl rfl

/-- An operation other than the two that close a frame appends nothing to `Out(UP)`, or one data token (R74). -/
theorem exec_outUp {i : Instr} {s t : State} (h1 : i ≠ .upOkterm) (h2 : i ≠ .upFailterm) (he : exec i s = .next t) :
    t.outUp = s.outUp ∨ ∃ v, t.outUp = s.outUp.push (.D v) := by
  cases i
  case upOkterm => exact absurd rfl h1
  case upFailterm => exact absurd rfl h2
  case pkAccum =>
    rcases execPkAccum_cases he with ⟨-, rfl⟩ | ⟨_, _, -, rfl⟩ | ⟨_, _, -, -, rfl⟩ | ⟨_, _, -, -, rfl⟩ <;> exact .inl rfl
  case upFetch =>
    rcases execUpFetch_cases he with ⟨-, rfl⟩ | ⟨_, _, -, rfl⟩ | ⟨_, _, -, rfl⟩ <;> exact .inl rfl
  case upSkip =>
    rcases execUpSkip_cases he with ⟨-, rfl⟩ | ⟨_, _, -, rfl⟩ | ⟨_, _, -, rfl⟩ <;> exact .inl rfl
  case upExtract =>
    rcases execUpExtract_cases he with ⟨-, rfl⟩ | ⟨-, rfl⟩
    · exact .inl rfl
    · exact .inr ⟨_, rfl⟩
  all_goals cases he; exact .inl rfl

/-! ### The invariant of the channels -/

/-- Registers may change as long as the unit does not come into `DONE` or `ERR`. -/
theorem OutInv.regs {r r' : UnitRegs} {c : Channel} (h : OutInv r c) (h6 : r'.PHASE = 6#4 → r.PHASE = 6#4)
    (h8 : r'.PHASE = 8#4 → r.PHASE = 8#4 ∧ r'.ERRCODE = r.ERRCODE) : OutInv r' c :=
  ⟨h.1, fun x => h.2 (h6 x), fun x => by rw [(h8 x).2]; exact h.3 (h8 x).1⟩

/-- A token is appended; a unit that comes into `DONE` or `ERR` by it has closed its frame. -/
theorem OutInv.push {r r' : UnitRegs} {c : Channel} (h : OutInv r c) (k : Token) (hk : ∀ e, k = .END e → e.toNat ≤ 4)
    (h6 : r'.PHASE = 6#4 → k = .END 0) (h8 : r'.PHASE = 8#4 → k = .END r'.ERRCODE) : OutInv r' (c.push k) := by
  refine ⟨?_, ?_, ?_⟩
  · intro e he
    simp only [Channel.trace_push, List.mem_append, List.mem_singleton] at he
    rcases he with he | he
    · exact h.1 e he
    · exact hk e he.symm
  · intro x; simp [h6 x]
  · intro x; simp [h8 x]

/-- `START` keeps the invariant of the output channel. -/
theorem OutInv.start {r r' : UnitRegs} {c : Channel} (h : OutInv r c)
    (hp : r'.PHASE = 1#4 ∨ r'.PHASE = 7#4 ∨ (r'.PHASE = r.PHASE ∧ r'.ERRCODE = r.ERRCODE)) : OutInv r' c := by
  apply h.regs <;> intro x <;> rcases hp with y | y | ⟨y, z⟩ <;> simp_all

/-- A data token is taken. -/
theorem TookOnlyData.take {c : Channel} (h : TookOnlyData c) (v : Byte) (rest : List Token) :
    TookOnlyData ⟨c.passed ++ [Token.D v], rest⟩ := by
  intro t ht
  simp only [List.mem_append, List.mem_singleton] at ht
  rcases ht with ht | ht
  · exact h t ht
  · exact ⟨v, ht⟩

end Sys2Proof.Machine
end

