-- ==== Sys2Proof/Tests/Slice0.lean ====
section
/-! SUPPORT. The tests: ill-formed terms, words written out from the spec's encodings, one step of each operation with
the values of 95_test_vectors.md, and for each statement with hypotheses a state that meets them. -/

open Sys2Proof Sys2Proof.Machine

namespace Sys2Proof.Tests

/-! ### Ill-formed terms, one for each check of `Instr.wellFormed` -/

theorem test_wf_pk_illegal_command_is_no_legal_command : (Instr.pkCmdIllegal 2).wellFormed 32 = false := by decide
theorem test_wf_up_illegal_command_is_no_legal_command : (Instr.upCmdIllegal 0).wellFormed 32 = false := by decide
theorem test_wf_pk_ignored_write_is_no_depth_write : (Instr.pkWrIgnored 4 1).wellFormed 32 = false := by decide
theorem test_wf_up_ignored_write_is_no_pal_len_write : (Instr.upWrIgnored 5 1).wellFormed 32 = false := by decide
theorem test_wf_pk_ignored_write_is_no_command : (Instr.pkWrIgnored 0 7).wellFormed 32 = false := by decide
theorem test_wf_register_5_is_reserved_in_pk : (Instr.pkWrIgnored 5 1).wellFormed 32 = true := by decide
/-- The data word has `REGW` bits: 2^16 is one bit too long for the narrowest block (R5), in each operation that carries
one. -/
theorem test_wf_data_word_has_regw_bits :
    [Instr.pkCmdIllegal 0x10000, .pkWrWidth 0x10000, .pkWrHeight 0x10000, .pkWrDepth 0x10000, .pkWrIgnored 1 0x10000,
     .upCmdIllegal 0x10000, .upWrWidth 0x10000, .upWrHeight 0x10000, .upWrDepth 0x10000, .upWrPalLen 0x10000,
     .upWrIgnored 1 0x10000].map (fun i => (i.wellFormed 16, i.wellFormed 17)) =
      List.replicate 11 (false, true) := by decide

/-! ### Words written out

The descriptor is `A` then `D`: unit, write, register number (R101); the words are those of 95_test_vectors.md section 2.5
and of the rows of R106. -/

theorem test_word_pk_nop : decodeHostOp (.ofBits 32 0b01_000000_00000000000000000000000000000000) = .pkNop := by decide
theorem test_word_pk_start : decodeHostOp (.ofBits 32 0b01_000000_00000000000000000000000000000001) = .pkStart := by decide
theorem test_word_pk_reset : decodeHostOp (.ofBits 32 0b01_000000_00000000000000000000000000000010) = .pkReset := by decide
theorem test_word_pk_cmd_opc_3 : decodeHostOp (.ofBits 32 0x4000000003) = .pkCmdIllegal 3 := by decide
theorem test_word_pk_cmd_reserved_bit : decodeHostOp (.ofBits 32 0x4080000001) = .pkCmdIllegal 0x80000001 := by decide
theorem test_word_pk_wr_width : decodeHostOp (.ofBits 32 0b01_000010_00000000000000000000001010000000) = .pkWrWidth 640 := by decide
theorem test_word_pk_wr_height : decodeHostOp (.ofBits 32 0x43000001E0) = .pkWrHeight 480 := by decide
theorem test_word_pk_wr_depth : decodeHostOp (.ofBits 32 0x4400000004) = .pkWrDepth 4 := by decide
theorem test_word_pk_wr_pal_len_is_ignored : decodeHostOp (.ofBits 32 0x4500000009) = .pkWrIgnored 5 9 := by decide
theorem test_word_pk_rd_status : decodeHostOp (.ofBits 32 0b00_000001_00000000000000000000000000000000) = .pkRd 1 := by decide
theorem test_word_up_nop : decodeHostOp (.ofBits 32 0b11_000000_00000000000000000000000000000000) = .upNop := by decide
theorem test_word_up_start : decodeHostOp (.ofBits 32 0xC000000001) = .upStart := by decide
theorem test_word_up_reset : decodeHostOp (.ofBits 32 0xC000000002) = .upReset := by decide
theorem test_word_up_cmd_reset_with_reserved_bit : decodeHostOp (.ofBits 32 0xC000000006) = .upCmdIllegal 6 := by decide
theorem test_word_up_wr_width : decodeHostOp (.ofBits 32 0xC200000280) = .upWrWidth 640 := by decide
theorem test_word_up_wr_height : decodeHostOp (.ofBits 32 0xC3000001E0) = .upWrHeight 480 := by decide
theorem test_word_up_wr_depth : decodeHostOp (.ofBits 32 0xC400000004) = .upWrDepth 4 := by decide
theorem test_word_up_wr_pal_len : decodeHostOp (.ofBits 32 0b11_000101_00000000000000000000000000010001) = .upWrPalLen 17 := by decide
theorem test_word_up_wr_63_is_ignored : decodeHostOp (.ofBits 32 0xFF00000001) = .upWrIgnored 63 1 := by decide
theorem test_word_up_rd_col : decodeHostOp (.ofBits 32 0x8A00000000) = .upRd 10 := by decide
/-- The same operation at the narrowest width and at 64 bits: `A` is the top byte at each (R5, R101). -/
theorem test_word_at_other_widths :
    decodeHostOp (.ofBits 16 0x420280) = .pkWrWidth 640 ∧
    decodeHostOp (.ofBits 64 0xC50000000000000011) = .upWrPalLen 17 := by decide

/-- The phase codes of R37 that select a micro-operation of `PK` (R107). -/
theorem test_phase_codes_pk :
    [0b0000#4, 0b0001#4, 0b0010#4, 0b0011#4, 0b0100#4, 0b0101#4, 0b0110#4, 0b0111#4, 0b1000#4].map
      (fun p => (decode (.phase .PK p)).toOption) =
    [some .pkIdle, some .pkAccum, some .pkEmit, some .pkFlush, some .pkPad, some .pkOkterm, some .pkDone,
     some .pkFailterm, some .pkErr] := by decide

/-- The phase codes of R37 that select a micro-operation of `UP` (R107); 4 is none (R108). -/
theorem test_phase_codes_up :
    [0b0000#4, 0b0001#4, 0b0010#4, 0b0011#4, 0b0100#4, 0b0101#4, 0b0110#4, 0b0111#4, 0b1000#4].map
      (fun p => (decode (.phase .UP p)).toOption) =
    [some .upIdle, some .upFetch, some .upExtract, some .upSkip, none, some .upOkterm, some .upDone,
     some .upFailterm, some .upErr] := by decide

/-- Token words of 95_test_vectors.md section 2.5. -/
theorem test_token_words :
    encodeToken (.D 0xA0) = 0x0A0#9 ∧ encodeToken (.END 4) = 0x104#9 ∧ decodeToken 0x0FF#9 = .D 0xFF ∧
    decodeToken 0x1F4#9 = .END 4 := by decide

theorem test_table_words :
    decodeTableWord 40 0x4000000001 = some .pkStart ∧ decodeTableWord 40 0xC400000000 = some (.upWrDepth 0) ∧
    decodeTableWord 8 3 = some .pkFlush ∧ decodeTableWord 8 9 = none := by decide

/-! ### States the tests start from -/

/-- What holds after an operation that answers a next state. -/
def after (o : Host.Outcome State Fault Refusal) (p : State → Bool) : Bool :=
  match o with
  | .next t => p t
  | .fault _ => false
  | .refused _ => false

/-- `PACK w, h, d`, up to the `START` (R111). -/
def configuredPk (w h d : Nat) : State :=
  { State.reset with pk := { State.reset.pk with WIDTH := w, HEIGHT := h, DEPTH := d } }

/-- `UNPACK w, h, d, p`, up to the `START` (R111). -/
def configuredUp (w h d p : Nat) : State :=
  { State.reset with up := { State.reset.up with WIDTH := w, HEIGHT := h, DEPTH := d, PAL_LEN := p } }

/-- The packer right after the `START` of that transform, with these tokens standing in its input channel. -/
def packing (w h d : Nat) (ts : List Token) : State :=
  { configuredPk w h d with pk := (configuredPk w h d).pk.start, inPk := ⟨[], ts⟩ }

/-- The unpacker right after the `START` of that transform, with these tokens standing in its input channel. -/
def unpacking (w h d p : Nat) (ts : List Token) : State :=
  { configuredUp w h d p with up := (configuredUp w h d p).up.start, inUp := ⟨[], ts⟩ }

/-- A packer somewhere in a row. -/
def packingAt (s : State) (phase : PhaseCode) (acc : Byte) (bitcnt : BitVec 4) (col row : Nat) (padcnt : BitVec 2) :
    State :=
  { s with pk := { s.pk with PHASE := phase, ACC := acc, BITCNT := bitcnt, COL := col, ROW := row, PADCNT := padcnt } }

/-- An unpacker somewhere in a row. -/
def unpackingAt (s : State) (phase : PhaseCode) (shreg : Byte) (bitcnt : BitVec 4) (col row : Nat)
    (padcnt : BitVec 2) : State :=
  { s with
    up := { s.up with PHASE := phase, SHREG := shreg, BITCNT := bitcnt, COL := col, ROW := row, PADCNT := padcnt } }

/-! ### Host operations (95_test_vectors.md section 2.2) -/

/-- H10. -/
theorem test_pk_nop : exec .pkNop (configuredPk 3 2 1) = .next (configuredPk 3 2 1) := rfl
theorem test_up_nop : exec .upNop (configuredUp 3 2 1 2) = .next (configuredUp 3 2 1 2) := rfl

/-- H19: `STATUS = 0x101`, `BITPAD = 5`, `BYTEW = 1`, `BYTEPAD = 3`. -/
theorem test_pk_start :
    after (exec .pkStart (configuredPk 3 2 1)) (fun t => t.pk.read 1 == 0x101 && t.pk.read 6 == 5 &&
      t.pk.read 7 == 1 && t.pk.read 8 == 3 && t.pk.read 9 == 0 && t.pk.read 10 == 0) = true := by decide
/-- H23: `DEPTH = 0x108` is compared as a whole word; `STATUS = 0x715`. -/
theorem test_pk_start_depth_whole_word :
    after (exec .pkStart (configuredPk 1 1 0x108)) (fun t => t.pk.read 1 == 0x715) = true := by decide
/-- Section 2.1, the corner of the arithmetic: `W = 0xFFFFFFFF`, `S = 4`; and `P` latches `PAL_LEN`. -/
theorem test_up_start_corner :
    after (exec .upStart (configuredUp 0xFFFFFFFF 1 4 16)) (fun t => t.up.read 6 == 4 && t.up.read 7 == 0x80000000 &&
      t.up.read 8 == 0 && t.up.P == 16) = true := by decide
/-- H20 for `UP`: refused while busy, `STATUS = 0x109`. -/
theorem test_up_start_busy :
    after (exec .upStart (unpacking 3 2 1 2 [])) (fun t => t.up.read 1 == 0x109 && t.up.W == 3) = true := by decide
/-- H22: `STATUS = 0`, `WIDTH` kept, `BITPAD` cleared. -/
theorem test_pk_reset :
    after (exec .pkReset (packing 3 2 1 [])) (fun t => t.pk.read 1 == 0 && t.pk.read 2 == 3 && t.pk.read 6 == 0) =
      true := by decide
theorem test_up_reset :
    after (exec .upReset (unpacking 10 2 8 256 [])) (fun t => t.up.read 1 == 0 && t.up.read 2 == 10 &&
      t.up.read 5 == 256 && t.up.read 7 == 0 && t.up.P == 0) = true := by decide
/-- H11. -/
theorem test_pk_cmd_illegal :
    after (exec (.pkCmdIllegal 3) State.reset) (fun t => t.pk.read 1 == 0x008 && t.up.read 1 == 0) = true := by decide
theorem test_up_cmd_illegal :
    after (exec (.upCmdIllegal 4) State.reset) (fun t => t.up.read 1 == 0x008 && t.pk.read 1 == 0) = true := by decide
/-- H21: the running transform keeps its geometry. -/
theorem test_pk_wr_width :
    after (exec (.pkWrWidth 9) (packing 3 2 1 [])) (fun t => t.pk.read 2 == 9 && t.pk.read 7 == 1 && t.pk.W == 3) =
      true := by decide
theorem test_pk_wr_height :
    after (exec (.pkWrHeight 7) State.reset) (fun t => t.pk.read 3 == 7 && t.up.read 3 == 0) = true := by decide
/-- H4: an illegal value is stored. -/
theorem test_pk_wr_depth : after (exec (.pkWrDepth 3) State.reset) (fun t => t.pk.read 4 == 3) = true := by decide
theorem test_up_wr_width :
    after (exec (.upWrWidth 9) State.reset) (fun t => t.up.read 2 == 9 && t.pk.read 2 == 0) = true := by decide
theorem test_up_wr_height : after (exec (.upWrHeight 9) State.reset) (fun t => t.up.read 3 == 9) = true := by decide
theorem test_up_wr_depth : after (exec (.upWrDepth 9) State.reset) (fun t => t.up.read 4 == 9) = true := by decide
/-- H6. -/
theorem test_up_wr_pal_len :
    after (exec (.upWrPalLen 9) State.reset) (fun t => t.up.read 5 == 9 && t.up.P == 0) = true := by decide
/-- H5: register 5 of `PK` is reserved. -/
theorem test_pk_wr_ignored :
    after (exec (.pkWrIgnored 5 9) State.reset) (fun t => t.pk.read 5 == 0 && t.pk.read 1 == 0) = true := by decide
/-- H8. -/
theorem test_up_wr_ignored :
    after (exec (.upWrIgnored 63 1) State.reset) (fun t => t.up.read 63 == 0 && t.up.read 1 == 0) = true := by decide
/-- H17: `STATUS = 0x81C`. -/
theorem test_pk_rd :
    after (exec (.pkRd 1) { State.reset with pk := { State.reset.pk with PHASE := 8, ERRCODE := 1, CMDERR := true } })
      (fun t => t.readsPk == [⟨1, 0x81C⟩] && t.readsUp == []) = true := by decide
/-- H2: `CMD` reads 0. -/
theorem test_up_rd : after (exec (.upRd 0) (unpacking 3 2 1 2 [])) (fun t => t.readsUp == [⟨0, 0⟩]) = true := by decide

/-- A block with 64-bit registers: `W = 2^32` at depth 1 has `2^29` bytes a row, with no padding (R5, R138). -/
theorem test_up_start_wide :
    after (exec .upStart (configuredUp 0x100000000 1 1 2)) (fun t => t.up.W == 0x100000000 &&
      t.up.read 7 == 0x20000000 && t.up.read 8 == 0) = true := by decide

/-! ### Micro-operations of the packer (95_test_vectors.md section 2.3) -/

/-- P1, step 3: the last index of the row goes on to `FLUSH`. -/
theorem test_pk_accum :
    after (exec .pkAccum (packingAt (packing 3 2 1 [.D 1, .D 0]) 1 2 2 2 0 0)) (fun t => t.pk.ACC == 5 &&
      t.pk.BITCNT == 3 && t.pk.COL == 3 && t.pk.PHASE == 3 && t.inPk == ⟨[.D 1], [.D 0]⟩) = true := by decide
/-- PF1: the index 2 at depth 1 is removed and faults with `E_RANGE`. -/
theorem test_pk_accum_range :
    after (exec .pkAccum (packingAt (packing 3 2 1 [.D 2, .D 1, .END 0]) 1 0 1 1 1 0)) (fun t => t.pk.read 1 == 0x725 &&
      t.pk.ROW == 1 && t.pk.COL == 1 && t.inPk.queue == [.D 1, .END 0]) = true := by decide
/-- P2: the eighth bit goes out at the end of the row, `BYTEPAD = 3`. -/
theorem test_pk_emit :
    after (exec .pkEmit (packingAt (packing 8 1 1 []) 2 0xCA 8 8 0 0)) (fun t => t.outPk.queue == [.D 0xCA] &&
      t.pk.ACC == 0 && t.pk.BITCNT == 0 && t.pk.PADCNT == 3 && t.pk.PHASE == 4) = true := by decide
/-- P1, step 4: `D(A0)`. -/
theorem test_pk_flush :
    after (exec .pkFlush (packingAt (packing 3 2 1 []) 3 5 3 3 0 0)) (fun t => t.outPk.queue == [.D 0xA0] &&
      t.pk.ACC == 0 && t.pk.BITCNT == 0 && t.pk.COL == 3 && t.pk.PADCNT == 3 && t.pk.PHASE == 4) = true := by decide
/-- P1, step 7: the last padding byte of row 0. -/
theorem test_pk_pad :
    after (exec .pkPad (packingAt (packing 3 2 1 []) 4 0 0 3 0 1)) (fun t => t.outPk.queue == [.D 0] &&
      t.pk.COL == 0 && t.pk.ROW == 1 && t.pk.PADCNT == 0 && t.pk.PHASE == 1) = true := by decide
/-- P1, step 14: the last padding byte of the last row. -/
theorem test_pk_pad_last :
    after (exec .pkPad (packingAt (packing 3 2 1 []) 4 0 0 3 1 1)) (fun t => t.pk.ROW == 2 && t.pk.PHASE == 5) =
      true := by decide
/-- P1, step 15. -/
theorem test_pk_okterm :
    after (exec .pkOkterm (packingAt (packing 3 2 1 []) 5 0 0 0 2 0)) (fun t => t.outPk.queue == [.END 0] &&
      t.pk.read 1 == 0x602) = true := by decide
/-- H16: `END(1)`, `STATUS = 0x814`. -/
theorem test_pk_failterm :
    after (exec .pkFailterm { State.reset with pk := State.reset.pk.start }) (fun t => t.outPk.queue == [.END 1] &&
      t.pk.read 1 == 0x814) = true := by decide
theorem test_pk_resting :
    exec .pkIdle State.reset = .next State.reset ∧ exec .pkDone State.reset = .next State.reset ∧
    exec .pkErr State.reset = .next State.reset := ⟨rfl, rfl, rfl⟩

/-! ### Micro-operations of the unpacker (95_test_vectors.md section 2.4) -/

/-- Program 2, step 1. -/
theorem test_up_fetch :
    after (exec .upFetch (unpacking 3 2 4 16 [.D 0xAB, .D 0xC0])) (fun t => t.up.SHREG == 0xAB && t.up.BITCNT == 0 &&
      t.up.PHASE == 2 && t.inUp == ⟨[.D 0xAB], [.D 0xC0]⟩) = true := by decide
/-- UF12: an `END` token of any code faults with `E_TRUNC` and stays. -/
theorem test_up_fetch_trunc :
    after (exec .upFetch (unpacking 3 2 1 2 [.END 7])) (fun t => t.up.read 1 == 0x745 && t.inUp.queue == [.END 7]) =
      true := by decide
/-- Program 2, step 5: the last index of row 0; the padding lane is not extracted. -/
theorem test_up_extract :
    after (exec .upExtract (unpackingAt (unpacking 3 2 4 16 []) 2 0xC0 0 2 0 0)) (fun t =>
      t.outUp.queue == [.D 12] && t.up.SHREG == 0 && t.up.BITCNT == 4 && t.up.COL == 0 && t.up.ROW == 1 &&
      t.up.PADCNT == 2 && t.up.PHASE == 3) = true := by decide
/-- UF4: index 11 with a palette of 11 faults with `E_DECODE`; `SHREG = B0` stays. -/
theorem test_up_extract_decode :
    after (exec .upExtract (unpackingAt (unpacking 3 1 4 11 []) 2 0xB0 4 1 0 0)) (fun t => t.up.read 1 == 0x735 &&
      t.outUp.queue == [] && t.up.SHREG == 0xB0 && t.up.COL == 1) = true := by decide
/-- Program 2, step 7. -/
theorem test_up_skip :
    after (exec .upSkip (unpackingAt (unpacking 3 2 4 16 [.D 0, .D 0x12]) 3 0 4 0 1 1)) (fun t => t.up.PADCNT == 0 &&
      t.up.PHASE == 1 && t.inUp.queue == [.D 0x12]) = true := by decide
/-- UF2: truncated inside the padding; `PADCNT = 1` stays. -/
theorem test_up_skip_trunc :
    after (exec .upSkip (unpackingAt (unpacking 3 2 1 2 [.END 0]) 3 0 3 0 1 1)) (fun t => t.up.read 1 == 0x745 &&
      t.up.PADCNT == 1 && t.inUp.queue == [.END 0]) = true := by decide
/-- Program 2, step 13. -/
theorem test_up_okterm :
    after (exec .upOkterm (unpackingAt (unpacking 3 2 4 16 []) 5 0 4 0 2 0)) (fun t => t.outUp.queue == [.END 0] &&
      t.up.read 1 == 0x602) = true := by decide
/-- UF6: `END(3)`, `STATUS = 0x834`. -/
theorem test_up_failterm :
    after (exec .upFailterm { State.reset with up := State.reset.up.raiseFault E_DECODE }) (fun t =>
      t.outUp.queue == [.END 3] && t.up.read 1 == 0x834) = true := by decide
theorem test_up_resting :
    exec .upIdle State.reset = .next State.reset ∧ exec .upDone State.reset = .next State.reset ∧
    exec .upErr State.reset = .next State.reset := ⟨rfl, rfl, rfl⟩

/-! ### One step -/

theorem test_step_host :
    after (step { State.reset with agenda := [.host ⟨0x42, 3⟩, .feed .PK 1] }) (fun t => t.pk.read 2 == 3 &&
      t.agenda == [.feed .PK 1]) = true := by decide
/-- On a block with 16-bit registers the data word has 16 bits (R5, R67). -/
theorem test_step_host_word_is_cut :
    after (step { State.resetAt ⟨16⟩ with agenda := [.host ⟨0x42, 0x10003⟩] }) (fun t => t.pk.read 2 == 3) = true ∧
    after (step { State.resetAt ⟨17⟩ with agenda := [.host ⟨0x42, 0x10003⟩] }) (fun t => t.pk.read 2 == 0x10003) =
      true := by decide
theorem test_step_micro_op :
    after (step { packing 3 2 1 [.D 1] with agenda := [.microOp .PK] }) (fun t => t.pk.ACC == 1 && t.agenda == []) =
      true := by decide
theorem test_step_turns :
    after (step State.reset) (fun t => t.turn == .UP) = true ∧
    after (step (packing 3 2 1 [.D 1])) (fun t => t.pk.COL == 1 && t.turn == .UP) = true := by decide
theorem test_step_environment :
    after (step { State.reset with agenda := [.feed .UP 0x1F4] }) (fun t => t.inUp.queue == [.END 4]) = true ∧
    after (step { State.reset with outPk := ⟨[], [.D 1, .END 0]⟩, agenda := [.drain .PK] })
      (fun t => t.outPk == ⟨[.D 1], [.END 0]⟩) = true ∧
    after (step { State.reset with inPk := ⟨[.D 1], [.END 0]⟩, agenda := [.discard .PK] })
      (fun t => t.inPk == ⟨[.D 1], []⟩) = true := by decide
theorem test_step_reserved_phase :
    step { State.reset with up := { State.reset.up with PHASE := 4 }, agenda := [.microOp .UP] } =
      .refused (.reservedPhase .UP 4) := rfl
theorem test_with_fetch_word :
    after (step (State.reset.withFetchWord 40 0xC500000011)) (fun t => t.up.PAL_LEN == 17 && t.agenda == []) = true ∧
    after (step (State.reset.withFetchWord 8 7)) (fun t => t.outPk.queue == [.END 0] && t.pk.PHASE == 8) = true := by
  decide

/-! ### Witnesses: for each statement with hypotheses, a state and operands that meet them -/

/-- At the narrowest width, and at a width beyond the default. -/
theorem witness_DecodeInvertsEncode :
    16 ≤ 16 ∧ (Instr.pkCmdIllegal 3).wellFormed 16 = true ∧ (Instr.upCmdIllegal 0xFFFF).wellFormed 16 = true ∧
    (Instr.pkWrIgnored 1 0).wellFormed 16 = true ∧ (Instr.upWrIgnored 6 0).wellFormed 16 = true ∧
    (Instr.pkWrWidth 0x100000000).wellFormed 64 = true ∧ Instr.upExtract.wellFormed 64 = true ∧
    encode .pkStart = .hostop ⟨0x40, 1⟩ := by decide

theorem witness_EncodeInvertsDecode :
    ((⟨0x42, 640⟩ : Descriptor).D < 2 ^ 16 ∧ (⟨0x42, 640⟩ : Descriptor).isWrite = true) ∧
    ((⟨0x8A, 0⟩ : Descriptor).D < 2 ^ 16 ∧ (⟨0x8A, 0⟩ : Descriptor).D = 0) ∧ 0xFFFFFF < 2 ^ (8 + 16) ∧
    decode (.phase .UP 8) = .ok .upErr := by decide

theorem witness_DescriptorFieldsSelectTheOperation :
    (1#6).toNat = 1 ∧ 5 ≤ (5#6).toNat ∧ 6 ≤ (6#6).toNat ∧ 6 ≤ (63#6).toNat ∧ 3 ≤ 3 ∧
    (1 < 2 ∧ 63 < 64 ∧ 0xFFFF < 2 ^ 16) ∧ (⟨0xFF, 0xFFFFFFFF⟩ : Descriptor).D < 2 ^ 32 := by decide

theorem witness_TokenWordFormat : (0x0FF#9).toNat < 256 ∧ 256 ≤ (0x100#9).toNat := by decide

theorem witness_PhaseCodeSelectsTheMicroOperation :
    9 ≤ (9#4).toNat ∧ (UnitId.UP = .UP ∧ (4#4).toNat = 4) := by decide

/-- A host operation on a 16-bit block, a micro-operation from the agenda, and one by turns. -/
theorem witness_StepRunsTheDecodedOperation :
    ({ State.resetAt ⟨16⟩ with agenda := [.host ⟨0x40, 1⟩] } : State).agenda = .host ⟨0x40, 1⟩ :: [] ∧
    decode (.hostop ⟨0x40, 1 % 2 ^ (State.resetAt ⟨16⟩).cfg.REGW⟩) = .ok .pkStart ∧
    ({ packing 3 2 1 [] with agenda := [.microOp .PK] } : State).agenda = .microOp .PK :: [] ∧
    decode (.phase .PK ((packing 3 2 1 []).phaseOf .PK)) = .ok .pkAccum ∧
    (packing 3 2 1 []).agenda = [] ∧
    decode (.phase (packing 3 2 1 []).turn ((packing 3 2 1 []).phaseOf (packing 3 2 1 []).turn)) = .ok .pkAccum :=
  ⟨rfl, by decide, rfl, rfl, rfl, rfl⟩

theorem witness_PlacedTableWordRunsNext :
    decodeTableWord 40 0x4000000001 = some .pkStart ∧ 8 < 40 ∧
    0x4000000001 % 2 ^ 32 < 2 ^ State.reset.cfg.REGW ∧
    decodeTableWord 8 8 = some .pkErr ∧ 8 ≤ 8 := by decide

theorem witness_EnvironmentMovesOneToken :
    ({ State.reset with agenda := [.feed .PK 0x100] } : State).agenda = .feed .PK 0x100 :: [] ∧
    ({ State.reset with agenda := [.feed .UP 0x0FF] } : State).agenda = .feed .UP 0x0FF :: [] ∧
    (∃ s : State, s.agenda = .drain .PK :: [] ∧ s.outPk.queue = .END 0 :: []) ∧
    (∃ s : State, s.agenda = .drain .UP :: [] ∧ s.outUp.queue = .D 1 :: [.END 0]) ∧
    (∃ s : State, s.agenda = .discard .PK :: [] ∧ s.inPk.queue = .END 0 :: []) ∧
    (∃ s : State, s.agenda = .discard .UP :: [] ∧ s.inUp.queue = .END 0 :: []) :=
  ⟨rfl, rfl,
   ⟨{ State.reset with agenda := [.drain .PK], outPk := ⟨[], [.END 0]⟩ }, rfl, rfl⟩,
   ⟨{ State.reset with agenda := [.drain .UP], outUp := ⟨[], [.D 1, .END 0]⟩ }, rfl, rfl⟩,
   ⟨{ State.reset with agenda := [.discard .PK], inPk := ⟨[], [.END 0]⟩ }, rfl, rfl⟩,
   ⟨{ State.reset with agenda := [.discard .UP], inUp := ⟨[], [.END 0]⟩ }, rfl, rfl⟩⟩

/-- In the middle of the first row of P1 (95_test_vectors.md section 2.3, after step 2). -/
def midRow : State := packingAt (packing 3 2 1 [.D 1, .D 0]) 1 2 2 2 0 0

theorem midRow_pk_inv : PkInv midRow.pk where
  unit :=
    { phase_le := by decide
      errcode_iff := by decide
      errcode_le := by decide
      depth := by decide
      active := fun _ _ => ⟨by decide, by decide, by decide, ⟨by decide, by decide, by decide⟩⟩
      running := by decide
      finished := by decide }
  code := by decide
  accum := by decide
  emit := by decide
  flush := by decide
  pad := by decide
  empty := by decide
  acc_lt := by decide

theorem reset_up_inv : UpInv State.reset.up where
  unit :=
    { phase_le := by decide
      errcode_iff := by decide
      errcode_le := by decide
      depth := by decide
      active := fun h _ => absurd h (by decide)
      running := by decide
      finished := by decide }
  code := by decide
  no_pad := by decide
  fetch := by decide
  extract := by decide
  skip := by decide

theorem midRow_inv : midRow.Inv where
  cfg := by decide
  fitPk := ⟨by decide, by decide, by decide, by decide, by decide, by decide, by decide, by decide⟩
  fitUp := ⟨by decide, by decide, by decide, by decide, by decide, by decide, by decide, by decide⟩
  fitPal := by decide
  pk := midRow_pk_inv
  up := reset_up_inv
  inPk := fun _ h => nomatch h
  inUp := fun _ h => nomatch h
  outPk := ⟨fun _ h => (nomatch h), by decide, by decide⟩
  outUp := ⟨fun _ h => (nomatch h), by decide, by decide⟩

/-- The narrowest block and a wide one are legal; a block below the bound is not (R5). -/
theorem witness_ResetMeetsTheInvariant :
    (⟨16⟩ : Config).legal = true ∧ (⟨64⟩ : Config).legal = true ∧ (⟨15⟩ : Config).legal = false := by decide

theorem witness_EveryInterleavingRunsFromReset : (⟨16⟩ : Config).legal = true := by decide

theorem witness_StepKeepsTheInvariant : ∃ s t : State, s.Inv ∧ step s = .next t :=
  ⟨midRow, _, midRow_inv, rfl⟩

theorem witness_InvariantStatesAlwaysStep : ∃ s : State, s.Inv ∧ s.pk.PHASE = 1#4 := ⟨midRow, midRow_inv, rfl⟩

theorem witness_PkAccumLosesNoBit :
    midRow.Inv ∧ midRow.pk.PHASE = 1#4 ∧ midRow.inPk.queue = .D 1 :: [.D 0] ∧
    (1#8).toNat < 2 ^ midRow.pk.S.toNat := ⟨midRow_inv, rfl, rfl, by decide⟩

theorem witness_WriteToReadOnlyOrReservedIsIgnored :
    ((1#6).toNat = 1 ∨ 5 ≤ (1#6).toNat) ∧ ((5#6).toNat = 1 ∨ 5 ≤ (5#6).toNat) ∧
    ((6#6).toNat = 1 ∨ 6 ≤ (6#6).toNat) ∧ ((63#6).toNat = 1 ∨ 6 ≤ (63#6).toNat) := by decide

theorem witness_IllegalCommandSetsOnlyCmderr :
    3 % 4 = 3 ∧ 4 ≤ 4 ∧ 4 ≤ 0x80000001 ∧
    (midRow.pk.PHASE ≠ 0#4 ∧ midRow.pk.PHASE ≠ 6#4) ∧
    ((unpacking 3 2 1 2 []).up.PHASE ≠ 0#4 ∧ (unpacking 3 2 1 2 []).up.PHASE ≠ 6#4) := by decide

theorem witness_IllegalCommandSetsOnlyCmderr_sticky :
    ∃ s t : State, step s = .next t ∧ s.pk.CMDERR = true ∧ s.up.CMDERR = true :=
  ⟨{ State.reset with
      pk := { State.reset.pk with CMDERR := true }, up := { State.reset.up with CMDERR := true } }, _, rfl, rfl, rfl⟩

theorem witness_StatusWordFields : ∃ s : State, s.Inv := ⟨midRow, midRow_inv⟩

theorem witness_CmderrIsSticky :
    (∃ t, exec .pkReset midRow = .next t ∧ Instr.pkReset = .pkReset) ∧
    (∃ t, exec .upReset midRow = .next t ∧ Instr.upReset = .upReset) ∧
    (∃ t, exec .pkStart midRow = .next t ∧ Instr.pkStart ≠ .pkReset ∧ t.pk.CMDERR = true) ∧
    (∃ t, exec (.upCmdIllegal 3) midRow = .next t ∧ Instr.upCmdIllegal 3 ≠ .upReset ∧ t.up.CMDERR = true) ∧
    (∃ t, isHostOp .pkAccum = false ∧ exec .pkAccum midRow = .next t) :=
  ⟨⟨_, rfl, rfl⟩, ⟨_, rfl, rfl⟩, ⟨_, rfl, by decide, by decide⟩, ⟨_, rfl, by decide, by decide⟩, ⟨_, rfl, rfl⟩⟩

theorem witness_ReadReturnsTheRegister :
    (0#6).toNat = 0 ∧ (1#6).toNat = 1 ∧ (2#6).toNat = 2 ∧ (3#6).toNat = 3 ∧ (4#6).toNat = 4 ∧ (5#6).toNat = 5 ∧
    (6#6).toNat = 6 ∧ (7#6).toNat = 7 ∧ (8#6).toNat = 8 ∧ (9#6).toNat = 9 ∧ (10#6).toNat = 10 ∧
    11 ≤ (11#6).toNat ∧ 11 ≤ (63#6).toNat := by decide

/-- The largest width at depth 8 in `PK`, one pixel at depth 4 in `UP` with an empty palette. -/
theorem witness_StartLatchesTheConfiguration :
    ((configuredPk 0xFFFFFFFF 1 8).pk.PHASE = 0#4 ∧ (configuredPk 0xFFFFFFFF 1 8).pk.DEPTH = 8 ∧
      1 ≤ (configuredPk 0xFFFFFFFF 1 8).pk.WIDTH ∧ 1 ≤ (configuredPk 0xFFFFFFFF 1 8).pk.HEIGHT) ∧
    ((configuredUp 1 1 4 0).up.PHASE = 0#4 ∧ (configuredUp 1 1 4 0).up.DEPTH = 4 ∧
      1 ≤ (configuredUp 1 1 4 0).up.WIDTH ∧ 1 ≤ (configuredUp 1 1 4 0).up.HEIGHT) := by decide

theorem witness_StartFaultsOnAnIllegalConfiguration :
    ((configuredPk 1 1 0x108).pk.PHASE = 0#4 ∧ (configuredPk 1 1 0x108).pk.DEPTH ≠ 1 ∧
      (configuredPk 1 1 0x108).pk.DEPTH ≠ 4 ∧ (configuredPk 1 1 0x108).pk.DEPTH ≠ 8) ∧
    ((configuredUp 0 1 8 2).up.PHASE = 0#4 ∧ (configuredUp 0 1 8 2).up.WIDTH = 0) ∧
    ((configuredUp 1 0 8 2).up.PHASE = 0#4 ∧ (configuredUp 1 0 8 2).up.HEIGHT = 0) := by decide

theorem witness_GeometryClosedForms :
    1 ≤ 1 ∧ (1 = 1 ∨ 1 = 4 ∨ 1 = 8) ∧ (4 = 1 ∨ 4 = 4 ∨ 4 = 8) ∧ (8 = 1 ∨ 8 = 4 ∨ 8 = 8) ∧ 3 % 2 = 1 := by decide

theorem witness_ConfigurationWritesDoNotDisturbATransform :
    (∃ t, isHostOp .pkAccum = false ∧ exec .pkAccum midRow = .next t) ∧
    (∃ t, isHostOp .upFetch = false ∧ exec .upFetch (unpacking 3 2 4 16 [.D 0xAB]) = .next t) ∧
    (∃ t, (configuredPk 3 2 1).pk.startAccepted = true ∧ (configuredPk 3 2 1).pk.configLegal = true ∧
      exec .pkStart (configuredPk 3 2 1) = .next t) ∧
    (∃ t, (configuredUp 3 2 1 0).up.startAccepted = true ∧ (configuredUp 3 2 1 0).up.configLegal = true ∧
      exec .upStart (configuredUp 3 2 1 0) = .next t) :=
  ⟨⟨_, rfl, rfl⟩, ⟨_, rfl, rfl⟩, ⟨_, by decide, by decide, rfl⟩, ⟨_, by decide, by decide, rfl⟩⟩

theorem witness_AnEmptyInputChannelIsWaitedOn :
    (packing 3 2 1 []).inPk.queue = [] ∧ (unpacking 3 2 4 16 []).inUp.queue = [] := by decide

/-- The three cases of the token at the head, and the three phases that a legal index leads to. -/
theorem witness_PkAccumTakesOneIndex :
    (packing 3 2 1 [.END 7]).inPk.queue = .END 7 :: [] ∧
    ((packing 3 2 1 [.D 2]).inPk.queue = .D 2 :: [] ∧ 2 ^ (packing 3 2 1 [.D 2]).pk.S.toNat ≤ (2#8).toNat) ∧
    (midRow.inPk.queue = .D 1 :: [.D 0] ∧ (1#8).toNat < 2 ^ midRow.pk.S.toNat) ∧
    ((midRow.pk.BITCNT + midRow.pk.S).toNat < 8 ∧ midRow.pk.COL + 1 = midRow.pk.W) ∧
    ((packing 1 1 8 [.D 255]).pk.BITCNT + (packing 1 1 8 [.D 255]).pk.S).toNat = 8 ∧
    (((packing 3 2 1 [.D 1]).pk.BITCNT + (packing 3 2 1 [.D 1]).pk.S).toNat ≠ 8 ∧
      ¬ (packing 3 2 1 [.D 1]).pk.COL + 1 = (packing 3 2 1 [.D 1]).pk.W) := by decide

/-- The row goes on; padding follows; the next row follows; the last row is over. -/
theorem witness_PkEmitAppendsTheAccumulator :
    (packingAt (packing 9 1 1 []) 2 0x81 8 8 0 0).pk.COL ≠ (packingAt (packing 9 1 1 []) 2 0x81 8 8 0 0).pk.W ∧
    ((packingAt (packing 8 1 1 []) 2 0xCA 8 8 0 0).pk.COL = (packing 8 1 1 []).pk.W ∧
      (packing 8 1 1 []).pk.BYTEPAD ≠ 0#2) ∧
    ((packingAt (packing 4 2 8 []) 2 64 8 4 0 0).pk.COL = (packing 4 2 8 []).pk.W ∧
      (packing 4 2 8 []).pk.BYTEPAD = 0#2 ∧ (packing 4 2 8 []).pk.ROW + 1 ≠ (packing 4 2 8 []).pk.H) ∧
    ((packingAt (packing 4 2 8 []) 2 64 8 4 1 0).pk.COL = (packing 4 2 8 []).pk.W ∧
      (packingAt (packing 4 2 8 []) 2 64 8 4 1 0).pk.ROW + 1 = (packing 4 2 8 []).pk.H) := by decide

theorem witness_PkFlushAppendsThePartialByte :
    (packing 3 2 1 []).pk.BYTEPAD ≠ 0#2 ∧
    ((packing 7 2 4 []).pk.BYTEPAD = 0#2 ∧ (packing 7 2 4 []).pk.ROW + 1 ≠ (packing 7 2 4 []).pk.H) ∧
    ((packing 7 1 4 []).pk.BYTEPAD = 0#2 ∧ (packing 7 1 4 []).pk.ROW + 1 = (packing 7 1 4 []).pk.H) := by decide

theorem witness_PkPadAppendsAZeroByte :
    (packingAt (packing 3 2 1 []) 4 0 0 3 0 3).pk.PADCNT ≠ 1#2 ∧
    ((packingAt (packing 3 2 1 []) 4 0 0 3 0 1).pk.PADCNT = 1#2 ∧
      (packing 3 2 1 []).pk.ROW + 1 ≠ (packing 3 2 1 []).pk.H) ∧
    ((packingAt (packing 3 2 1 []) 4 0 0 3 1 1).pk.PADCNT = 1#2 ∧
      (packingAt (packing 3 2 1 []) 4 0 0 3 1 1).pk.ROW + 1 = (packing 3 2 1 []).pk.H) := by decide

theorem witness_UpFetchTakesOneByte :
    (unpacking 3 2 4 16 [.END 7]).inUp.queue = .END 7 :: [] ∧
    (unpacking 3 2 4 16 [.D 0xAB]).inUp.queue = .D 0xAB :: [] := by decide

/-- A bad index; the byte goes on; the next byte follows; padding, the next row, and the end of the transform. -/
theorem witness_UpExtractGivesOutOneIndex :
    (unpackingAt (unpacking 3 1 4 11 []) 2 0xB0 4 1 0 0).up.P ≤ 0xB0 / 2 ^ (8 - 4) ∧
    0xAB / 2 ^ (8 - 4) < (unpacking 3 2 4 16 []).up.P ∧
    ((unpackingAt (unpacking 3 2 4 16 []) 2 0xAB 0 0 0 0).up.COL + 1 ≠ (unpacking 3 2 4 16 []).up.W ∧
      ((0#4) + (unpacking 3 2 4 16 []).up.S).toNat ≠ 8 ∧ ((4#4) + (unpacking 3 2 4 16 []).up.S).toNat = 8) ∧
    ((unpackingAt (unpacking 3 2 4 16 []) 2 0xC0 0 2 0 0).up.COL + 1 = (unpacking 3 2 4 16 []).up.W ∧
      0 + 1 ≠ (unpacking 3 2 4 16 []).up.H ∧ (unpacking 3 2 4 16 []).up.BYTEPAD ≠ 0#2 ∧
      (unpacking 4 2 8 16 []).up.BYTEPAD = 0#2 ∧ 1 + 1 = (unpacking 3 2 4 16 []).up.H) := by decide

theorem witness_UpSkipDiscardsOneByte :
    (unpackingAt (unpacking 3 2 4 16 [.END 0]) 3 0 4 0 1 2).inUp.queue = .END 0 :: [] ∧
    (unpackingAt (unpacking 3 2 4 16 [.D 9]) 3 0 4 0 1 2).inUp.queue = .D 9 :: [] ∧
    (unpackingAt (unpacking 3 2 4 16 [.D 9]) 3 0 4 0 1 2).up.PADCNT - 1 ≠ 0#2 ∧
    (unpackingAt (unpacking 3 2 4 16 [.D 9]) 3 0 4 0 1 1).up.PADCNT - 1 = 0#2 := by decide

/-- Each of the five ways into `FAILTERM`. -/
theorem witness_FaultEntryWritesCodeAndPhaseOnly :
    (∃ t, exec .pkStart State.reset = .next t ∧ State.reset.pk.PHASE ≠ 7#4 ∧ t.pk.PHASE = 7#4) ∧
    (∃ t, exec .pkAccum (packing 3 2 1 [.D 2]) = .next t ∧ (packing 3 2 1 [.D 2]).pk.PHASE ≠ 7#4 ∧
      t.pk.PHASE = 7#4) ∧
    (∃ t, exec .upStart State.reset = .next t ∧ State.reset.up.PHASE ≠ 7#4 ∧ t.up.PHASE = 7#4) ∧
    (∃ t, exec .upFetch (unpacking 3 2 1 2 [.END 0]) = .next t ∧ (unpacking 3 2 1 2 [.END 0]).up.PHASE ≠ 7#4 ∧
      t.up.PHASE = 7#4) :=
  ⟨⟨_, rfl, by decide, by decide⟩, ⟨_, rfl, by decide, by decide⟩, ⟨_, rfl, by decide, by decide⟩,
   ⟨_, rfl, by decide, by decide⟩⟩

theorem witness_EveryFaultHasItsCause :
    (∃ t, exec .pkAccum (packing 3 2 1 [.END 3]) = .next t ∧ (packing 3 2 1 [.END 3]).pk.PHASE ≠ 7#4 ∧
      t.pk.PHASE = 7#4) ∧
    (∃ t, exec .upExtract (unpackingAt (unpacking 3 1 4 11 []) 2 0xB0 4 1 0 0) = .next t ∧
      (unpackingAt (unpacking 3 1 4 11 []) 2 0xB0 4 1 0 0).up.PHASE ≠ 7#4 ∧ t.up.PHASE = 7#4) :=
  ⟨⟨_, rfl, by decide, by decide⟩, ⟨_, rfl, by decide, by decide⟩⟩

/-- A packer in `FAILTERM` and an unpacker in `ERR`. -/
def bothFailed : State :=
  { State.reset with pk := State.reset.pk.start, up := { State.reset.up with PHASE := 8, ERRCODE := 4 } }

theorem witness_OnlyResetLeavesAFault :
    (∃ t, Selected .pkFailterm bothFailed ∧ exec .pkFailterm bothFailed = .next t ∧ bothFailed.pk.PHASE = 7#4) ∧
    (∃ t, Selected .pkReset bothFailed ∧ exec .pkReset bothFailed = .next t) ∧
    (∃ t, Selected .pkStart bothFailed ∧ exec .pkStart bothFailed = .next t) ∧
    (∃ t, Selected .upErr bothFailed ∧ exec .upErr bothFailed = .next t ∧ bothFailed.up.PHASE = 8#4) ∧
    (∃ t, Selected .upReset bothFailed ∧ exec .upReset bothFailed = .next t) ∧
    (∃ t, Selected .upStart bothFailed ∧ exec .upStart bothFailed = .next t) :=
  ⟨⟨_, .inr rfl, rfl, rfl⟩, ⟨_, .inl rfl, rfl⟩, ⟨_, .inl rfl, rfl⟩, ⟨_, .inr rfl, rfl, rfl⟩, ⟨_, .inl rfl, rfl⟩,
   ⟨_, .inl rfl, rfl⟩⟩

theorem witness_UnitsDoNotInterfere :
    ∃ a b, unitOf .pkAccum = .PK ∧ unitOf .upStart = .UP ∧ exec .pkAccum midRow = .next a ∧
      exec .upStart midRow = .next b := ⟨_, _, rfl, rfl, rfl, rfl⟩

theorem witness_AtMostOneTransferAStep :
    (∃ t, exec .pkAccum midRow = .next t ∧ t.inPk = ⟨[.D 1], [.D 0]⟩) ∧
    (∃ t, exec .pkFlush midRow = .next t ∧ t.outPk = ⟨[], [.D 0x40]⟩) ∧
    (∃ t, exec .upFetch (unpacking 3 2 4 16 [.D 0xAB]) = .next t ∧ t.inUp = ⟨[.D 0xAB], []⟩) ∧
    (∃ t, exec .upOkterm midRow = .next t ∧ t.outUp = ⟨[], [.END 0]⟩) :=
  ⟨⟨_, rfl, by decide⟩, ⟨_, rfl, by decide⟩, ⟨_, rfl, by decide⟩, ⟨_, rfl, by decide⟩⟩

/-- A micro-operation that reads, with a token to read; ones that do not read, with the fed channel empty, as in program 1
(95_test_vectors.md section 3), where the indices are fed one at a time; and one of the other unit. -/
theorem witness_FeedingEarlierChangesNothing :
    (∃ t, isHostOp .pkAccum = false ∧ exec .pkAccum midRow = .next t ∧
      (Instr.pkAccum = .pkAccum → midRow.inPk.queue ≠ [])) ∧
    (∃ t, exec .pkFlush (packingAt (packing 3 2 1 []) 3 5 3 3 0 0) = .next t ∧ (packing 3 2 1 []).inPk.queue = [] ∧
      Instr.pkFlush ≠ .pkAccum) ∧
    (∃ t, exec .upExtract (unpackingAt (unpacking 3 2 4 16 []) 2 0xAB 0 0 0 0) = .next t ∧
      (unpacking 3 2 4 16 []).inUp.queue = [] ∧ Instr.upExtract ≠ .upFetch ∧ Instr.upExtract ≠ .upSkip) ∧
    (∃ t, exec .upSkip (unpackingAt (unpacking 3 2 4 16 [.D 9]) 3 0 4 0 1 1) = .next t ∧
      (unpacking 3 2 4 16 [.D 9]).inUp.queue ≠ []) :=
  ⟨⟨_, rfl, rfl, fun _ => by decide⟩, ⟨_, rfl, rfl, by decide⟩, ⟨_, rfl, rfl, by decide, by decide⟩,
   ⟨_, rfl, by decide⟩⟩

theorem witness_PhaseChangesFollowTheGraph :
    (∃ t, Selected .pkAccum midRow ∧ exec .pkAccum midRow = .next t ∧ t.pk.PHASE ≠ midRow.pk.PHASE) ∧
    (∃ t, Selected .upFetch (unpacking 3 2 4 16 [.D 0xAB]) ∧
      exec .upFetch (unpacking 3 2 4 16 [.D 0xAB]) = .next t ∧
      t.up.PHASE ≠ (unpacking 3 2 4 16 [.D 0xAB]).up.PHASE) :=
  ⟨⟨_, .inr rfl, rfl, by decide⟩, ⟨_, .inr rfl, rfl, by decide⟩⟩

theorem witness_OnlyTheHostWritesConfiguration :
    ∃ t, exec (.pkWrWidth 9) midRow = .next t ∧ Instr.pkWrWidth 9 = .pkWrWidth 9 ∧
      (∀ v, Instr.pkWrWidth 9 ≠ .pkWrHeight v) := ⟨_, rfl, rfl, by simp⟩

theorem witness_OnlyStartAndResetWriteTheActiveConfiguration :
    ∃ t, exec .pkAccum midRow = .next t ∧ Instr.pkAccum ≠ .pkStart ∧ Instr.pkAccum ≠ .pkReset ∧
      Instr.pkAccum ≠ .upStart ∧ Instr.pkAccum ≠ .upReset :=
  ⟨_, rfl, by decide, by decide, by decide, by decide⟩

/-- Three lanes at depth 1, and a full byte at depth 4. -/
theorem witness_IndexStandsInItsLane :
    ([1, 0, 1] : List Byte).length ≤ pixelsPerByte 1 ∧ (∀ v ∈ ([1, 0, 1] : List Byte), v.toNat < 2 ^ 1) ∧
    ([9, 6] : List Byte).length ≤ pixelsPerByte 4 ∧ (∀ v ∈ ([9, 6] : List Byte), v.toNat < 2 ^ 4) := by decide

theorem witness_PackedRowsAreAligned : 1 < 2 := by decide

/-- P1 of 95_test_vectors.md section 2.3. -/
theorem test_pack_function : pack 3 2 1 [1, 0, 1, 0, 1, 1] = [0xA0, 0, 0, 0, 0x60, 0, 0, 0] := by decide

/-- The indices of program 2 (95_test_vectors.md section 3). -/
def program2Indices : List Byte := [10, 11, 12, 1, 2, 3]

/-- The bytes of program 2 without the padding of the last row. -/
def program2Bytes : List Byte := [0xAB, 0xC0, 0, 0, 0x12, 0x30]

theorem test_unpack_function : unpack 3 2 4 program2Bytes = program2Indices := by decide

theorem witness_UnpackInvertsPack :
    1 ≤ 3 ∧ 1 ≤ 2 ∧ (4 = 1 ∨ 4 = 4 ∨ 4 = 8) ∧ program2Indices.length = 3 * 2 ∧
    ∀ v ∈ program2Indices, v.toNat < 2 ^ 4 := by decide

/-- The bytes of program 2 with other padding in the first row: both padding bytes and the low lane before them. -/
def program2Padded : List Byte := [0xAB, 0xCF, 7, 9, 0x12, 0x30]

theorem witness_PaddingDoesNotMatter :
    1 ≤ 3 ∧ (4 = 1 ∨ 4 = 4 ∨ 4 = 8) ∧
    (∀ r m, r < 2 → m + 1 < byteWidth 3 4 →
      program2Bytes.getD (r * stride 3 4 + m) 0 = program2Padded.getD (r * stride 3 4 + m) 0) ∧
    (∀ r, r < 2 → (program2Bytes.getD (r * stride 3 4 + (byteWidth 3 4 - 1)) 0).toNat / 2 ^ bitPad 3 4 =
      (program2Padded.getD (r * stride 3 4 + (byteWidth 3 4 - 1)) 0).toNat / 2 ^ bitPad 3 4) := by
  refine ⟨by decide, by decide, fun r m hr hm => ?_, by decide⟩
  have h : ∀ r, r < 2 → ∀ m, m < byteWidth 3 4 - 1 →
      program2Bytes.getD (r * stride 3 4 + m) 0 = program2Padded.getD (r * stride 3 4 + m) 0 := by decide
  exact h r hr m (by omega)

/-- The packer configured for program 2 with its indices and an end token standing in the input channel. -/
def readyPk : State := { configuredPk 3 2 4 with inPk := ⟨[], dataTokens program2Indices ++ [.END 0]⟩ }

theorem witness_PackerComputesPack :
    readyPk.cfg.legal = true ∧ readyPk.pk.PHASE = 0#4 ∧ readyPk.pk.WIDTH = 3 ∧ readyPk.pk.HEIGHT = 2 ∧ readyPk.pk.DEPTH = 4 ∧
    program2Indices.length = 3 * 2 ∧ (∀ v ∈ program2Indices, v.toNat < 2 ^ 4) ∧
    readyPk.inPk.queue = dataTokens program2Indices ++ [.END 0] := by decide

/-- The unpacker configured as in program 2, with a palette of `p` colours and these tokens in the input channel. -/
def readyUp (p : Nat) (ts : List Token) : State := { configuredUp 3 2 4 p with inUp := ⟨[], ts⟩ }

theorem witness_UnpackerComputesUnpack :
    (readyUp 16 (dataTokens program2Bytes)).cfg.legal = true ∧ (readyUp 16 (dataTokens program2Bytes)).up.PHASE = 0#4 ∧ (readyUp 16 []).up.WIDTH = 3 ∧
    (readyUp 16 []).up.HEIGHT = 2 ∧ (readyUp 16 []).up.DEPTH = 4 ∧
    program2Bytes.length = bytesNeeded 3 2 4 ∧
    (∀ v ∈ unpack 3 2 4 program2Bytes, v.toNat < (readyUp 16 []).up.PAL_LEN) ∧
    (readyUp 16 (dataTokens program2Bytes)).inUp.queue = dataTokens program2Bytes ++ [] := by decide

/-- As in program 4: index 11 with a palette of 11, at pixel 1. -/
theorem witness_UnpackerStopsAtTheFirstBadIndex :
    (readyUp 11 (dataTokens [0xAB])).cfg.legal = true ∧ (readyUp 11 (dataTokens [0xAB])).up.PHASE = 0#4 ∧ 1 < 3 * 2 ∧
    (readyUp 11 []).up.PAL_LEN ≤ (indexAt 3 4 [0xAB] (1 / 3) (1 % 3)).toNat ∧
    (∀ k, k < 1 → (indexAt 3 4 [0xAB] (k / 3) (k % 3)).toNat < (readyUp 11 []).up.PAL_LEN) ∧
    ([0xAB] : List Byte).length = pixelByteAt 3 4 (1 / 3) (1 % 3) + 1 ∧
    (readyUp 11 (dataTokens [0xAB])).inUp.queue = dataTokens [0xAB] ++ [] := by decide

/-- Cut off in the padding of the first row: three pixels are held in the three bytes. -/
theorem witness_UnpackerReportsTruncation :
    (readyUp 16 (dataTokens [0xAB, 0xC0, 0] ++ [.END 7])).cfg.legal = true ∧
    ([0xAB, 0xC0, 0] : List Byte).length < bytesNeeded 3 2 4 ∧
    3 = ([0xAB, 0xC0, 0] : List Byte).length / stride 3 4 * 3 +
      min 3 (([0xAB, 0xC0, 0] : List Byte).length % stride 3 4 * pixelsPerByte 4) ∧
    (∀ k, k < 3 → (indexAt 3 4 [0xAB, 0xC0, 0] (k / 3) (k % 3)).toNat < (readyUp 16 []).up.PAL_LEN) ∧
    (readyUp 16 (dataTokens [0xAB, 0xC0, 0] ++ [.END 7])).inUp.queue =
      dataTokens [0xAB, 0xC0, 0] ++ .END 7 :: [] := by decide

theorem witness_RoundTripThroughTheUnpacker :
    (readyUp 16 (frame (pack 3 2 4 program2Indices) 0)).cfg.legal = true ∧
    (∀ v ∈ program2Indices, v.toNat < (readyUp 16 []).up.PAL_LEN) ∧
    (∀ v ∈ program2Indices, v.toNat < 2 ^ 4) ∧ program2Indices.length = 3 * 2 ∧
    (readyUp 16 (frame (pack 3 2 4 program2Indices) 0)).up.PHASE = 0#4 ∧
    (readyUp 16 (frame (pack 3 2 4 program2Indices) 0)).inUp.queue =
      frame (pack 3 2 4 program2Indices) 0 ++ [] := by decide

/-- The tokens that the statement names are those of program 2. -/
theorem test_round_trip_taken :
    dataTokens ((pack 3 2 4 program2Indices).take (bytesNeeded 3 2 4)) = dataTokens program2Bytes := by decide

theorem witness_NoStepChangesTheParameter : ∃ s t : State, step s = .next t := ⟨State.resetAt ⟨16⟩, _, rfl⟩

theorem witness_EveryReadFitsTheRegisterWidth : ∃ s : State, s.Inv := ⟨midRow, midRow_inv⟩

/-- Both units in `FAILTERM`: `START` right after reset faults with `E_CFG`. -/
def bothFaulted : State := { State.reset with pk := State.reset.pk.start, up := State.reset.up.start }

theorem reset_pk_inv : PkInv State.reset.pk where
  unit := UnitInv.softReset State.reset.pk.toUnitRegs
  code := by decide
  accum := by decide
  emit := by decide
  flush := by decide
  pad := by decide
  empty := by decide
  acc_lt := by decide

theorem bothFaulted_inv : bothFaulted.Inv where
  cfg := by decide
  fitPk := midRow_inv.fitUp.packerStart (p := State.reset.pk)
  fitUp := midRow_inv.fitUp.unpackerStart
  fitPal := by decide
  pk := reset_pk_inv.start
  up := reset_up_inv.start
  inPk := fun _ h => nomatch h
  inUp := fun _ h => nomatch h
  outPk := ⟨fun _ h => (nomatch h), by decide, by decide⟩
  outUp := ⟨fun _ h => (nomatch h), by decide, by decide⟩

/-- A unit that closes its frame after two data tokens, units that fail, and a `RESET` and a micro-operation in
mid-frame. -/
theorem witness_OnlyAnEndZeroFrameIsAResult :
    (4#4) ≠ 0 ∧
    ({ State.reset with outPk := ⟨[.END 0, .D 1], [.D 2]⟩ } : State).outPk.trace = [.END 0] ++ dataTokens [1, 2] ∧
    ({ State.reset with outUp := ⟨[.END 0], [.D 1]⟩ } : State).outUp.trace = [.END 0] ++ dataTokens [1] ∧
    (bothFaulted.Inv ∧ bothFaulted.pk.PHASE = 7#4 ∧ bothFaulted.up.PHASE = 7#4 ∧
      bothFaulted.outPk.trace = [] ++ dataTokens [] ∧ bothFaulted.outUp.trace = [] ++ dataTokens []) ∧
    (∃ t, Instr.pkReset ≠ .pkOkterm ∧ Instr.pkReset ≠ .pkFailterm ∧ exec .pkReset midRow = .next t ∧
      midRow.outPk.trace = [] ++ dataTokens []) ∧
    (∃ t, Instr.upExtract ≠ .upOkterm ∧ Instr.upExtract ≠ .upFailterm ∧ exec .upExtract midRow = .next t ∧
      midRow.outUp.trace = [] ++ dataTokens []) :=
  ⟨by decide, by decide, by decide, ⟨bothFaulted_inv, by decide, by decide, by decide, by decide⟩,
   ⟨_, by decide, by decide, rfl, by decide⟩, ⟨_, by decide, by decide, rfl, by decide⟩⟩

end Sys2Proof.Tests
end

section
/-! The `STATUS` word (R41, R42): its value as a number, its flags as sets of phases, and which registers a host read can
see (R44, R45). -/

namespace Sys2Proof.Machine

/-- Appending bits below a word, in numbers. -/
theorem toNat_append_eq_add {m n : Nat} (x : BitVec m) (y : BitVec n) :
    (x ++ y).toNat = x.toNat * 2 ^ n + y.toNat := by
  rw [BitVec.toNat_append, ← Nat.shiftLeft_add_eq_or_of_lt y.isLt, Nat.shiftLeft_eq]

namespace UnitRegs

theorem busy_iff (r : UnitRegs) : r.busy = true ↔ r.PHASE.toNat ∈ [1, 2, 3, 4, 5, 7] := by
  simp [busy, BitVec.toNat_eq, or_assoc]

theorem done_iff (r : UnitRegs) : r.done = true ↔ r.PHASE.toNat = 6 := by
  simp [done, BitVec.toNat_eq]

theorem err_iff (r : UnitRegs) : r.err = true ↔ r.PHASE = 7#4 ∨ r.PHASE = 8#4 := by
  simp [err]

theorem statusWord_eq (r : UnitRegs) :
    r.statusWord = r.busy.toNat + 2 * r.done.toNat + 4 * r.err.toNat + 8 * r.CMDERR.toNat
      + 16 * r.ERRCODE.toNat + 256 * r.PHASE.toNat := by
  simp only [statusWord, toNat_append_eq_add, BitVec.toNat_ofBool]
  ring

theorem statusWord_testBit_three (r : UnitRegs) : r.statusWord.testBit 3 = r.CMDERR := by
  rw [statusWord, BitVec.testBit_toNat]
  simp only [BitVec.getLsbD_append]
  simp

theorem statusWord_reset : reset.statusWord = 0 := by decide

/-- A host read sees none of the registers that both units hide (R45). -/
theorem read_working (r : UnitRegs) (palLen : Nat) (reg : BitVec 6) (w h : Nat) (d n : BitVec 4) (k : BitVec 2) :
    read { r with W := w, H := h, S := d, BITCNT := n, PADCNT := k } palLen reg = r.read palLen reg := rfl

end UnitRegs

/-- In a state that meets the invariant `ERR` tells whether an error code is held (R39, R41). -/
theorem UnitInv.err_iff_errcode {r : UnitRegs} (h : UnitInv r) : r.err = true ↔ r.ERRCODE ≠ 0#4 :=
  r.err_iff.trans h.errcode_iff.symm

end Sys2Proof.Machine
end

section
/-! The host registers: the configuration registers and `CMDERR` (R20 to R27, R40). No micro-operation reads or writes
them, which is said once, as commutation: a micro-operation after they are overwritten is the micro-operation with them
overwritten afterwards. That micro-operations keep them follows by overwriting them with what they hold. -/

namespace Sys2Proof.Machine

/-- The registers of both units that only host operations touch. -/
structure HostRegs where
  WIDTH : Nat
  HEIGHT : Nat
  DEPTH : Nat
  CMDERR : Bool

/-- What the host registers of a unit hold. -/
def UnitRegs.hostRegs (r : UnitRegs) : HostRegs := ⟨r.WIDTH, r.HEIGHT, r.DEPTH, r.CMDERR⟩

/-- The unit with other values in its host registers. -/
def UnitRegs.setHost (k : HostRegs) (r : UnitRegs) : UnitRegs :=
  { r with WIDTH := k.WIDTH, HEIGHT := k.HEIGHT, DEPTH := k.DEPTH, CMDERR := k.CMDERR }

/-- `PK` with other values in its host registers. -/
def Packer.setHost (k : HostRegs) (p : Packer) : Packer := { p with toUnitRegs := p.toUnitRegs.setHost k }

/-- `UP` with other values in its host registers, of which it has one more (R27). -/
def Unpacker.setHost (k : HostRegs) (palLen : Nat) (p : Unpacker) : Unpacker :=
  { p with toUnitRegs := p.toUnitRegs.setHost k, PAL_LEN := palLen }

/-- The machine with other values in the host registers of both units. -/
def State.setHost (a b : HostRegs) (palLen : Nat) (s : State) : State :=
  { s with pk := s.pk.setHost a, up := s.up.setHost b palLen }

/-! ### The shared operations do not look at the host registers -/

@[simp] theorem Packer.setHost_S (k : HostRegs) (p : Packer) : (p.setHost k).S = p.S := rfl
@[simp] theorem Unpacker.setHost_S (k : HostRegs) (n : Nat) (p : Unpacker) : (p.setHost k n).S = p.S := rfl
@[simp] theorem Unpacker.setHost_P (k : HostRegs) (n : Nat) (p : Unpacker) : (p.setHost k n).P = p.P := rfl
@[simp] theorem Unpacker.setHost_SHREG (k : HostRegs) (n : Nat) (p : Unpacker) : (p.setHost k n).SHREG = p.SHREG := rfl

theorem Packer.rowEnd_setHost (k : HostRegs) (p : Packer) : (p.setHost k).rowEnd = p.rowEnd.setHost k := by
  simp only [Packer.rowEnd, apply_ite (Packer.setHost k)]
  rfl

theorem Unpacker.advance_setHost (k : HostRegs) (palLen : Nat) (p : Unpacker) :
    (p.setHost k palLen).advance = p.advance.setHost k palLen := by
  simp only [Unpacker.advance, apply_ite (Unpacker.setHost k palLen)]
  rfl

/-! ### Each micro-operation commutes with overwriting the host registers -/

theorem execPkAccum_setHost {s t : State} (a b : HostRegs) (n : Nat) (he : execPkAccum s = .next t) :
    execPkAccum (s.setHost a b n) = .next (t.setHost a b n) := by
  rcases execPkAccum_cases he with ⟨hq, rfl⟩ | ⟨c, rest, hq, rfl⟩ | ⟨v, rest, hq, hv, rfl⟩ | ⟨v, rest, hq, hv, rfl⟩
  · simp only [execPkAccum, State.setHost, hq]
  · simp only [execPkAccum, State.setHost, hq]
    rfl
  · simp only [execPkAccum, State.setHost, hq, indexFits, Packer.setHost_S, Nat.not_lt.2 hv, Channel.pop_cons hq]
    rfl
  · simp only [execPkAccum, State.setHost, hq, indexFits, Packer.setHost_S, hv, Channel.pop_cons hq]
    rfl

theorem execUpFetch_setHost {s t : State} (a b : HostRegs) (n : Nat) (he : execUpFetch s = .next t) :
    execUpFetch (s.setHost a b n) = .next (t.setHost a b n) := by
  rcases execUpFetch_cases he with ⟨hq, rfl⟩ | ⟨c, rest, hq, rfl⟩ | ⟨v, rest, hq, rfl⟩
  · simp only [execUpFetch, State.setHost, hq]
  · simp only [execUpFetch, State.setHost, hq]
    rfl
  · simp only [execUpFetch, State.setHost, hq, Channel.pop_cons hq]
    rfl

theorem execUpSkip_setHost {s t : State} (a b : HostRegs) (n : Nat) (he : execUpSkip s = .next t) :
    execUpSkip (s.setHost a b n) = .next (t.setHost a b n) := by
  rcases execUpSkip_cases he with ⟨hq, rfl⟩ | ⟨c, rest, hq, rfl⟩ | ⟨v, rest, hq, rfl⟩
  · simp only [execUpSkip, State.setHost, hq]
  · simp only [execUpSkip, State.setHost, hq]
    rfl
  · simp only [execUpSkip, State.setHost, hq, Channel.pop_cons hq]
    rfl

theorem execUpExtract_setHost {s t : State} (a b : HostRegs) (n : Nat) (he : execUpExtract s = .next t) :
    execUpExtract (s.setHost a b n) = .next (t.setHost a b n) := by
  rcases execUpExtract_cases he with ⟨hp, rfl⟩ | ⟨hp, rfl⟩
  · simp only [execUpExtract, State.setHost, indexInPalette, Unpacker.setHost_S, Unpacker.setHost_P,
      Unpacker.setHost_SHREG, Nat.not_lt.2 hp]
    rfl
  · simp only [execUpExtract, State.setHost, indexInPalette, Unpacker.setHost_S, Unpacker.setHost_P,
      Unpacker.setHost_SHREG, hp, Unpacker.advance_setHost]
    rfl

theorem execPkEmit_setHost {s t : State} (a b : HostRegs) (n : Nat) (he : execPkEmit s = .next t) :
    execPkEmit (s.setHost a b n) = .next (t.setHost a b n) := by
  cases he
  simp only [State.setHost, apply_ite (Packer.setHost a), ← Packer.rowEnd_setHost]
  rfl

theorem execPkFlush_setHost {s t : State} (a b : HostRegs) (n : Nat) (he : execPkFlush s = .next t) :
    execPkFlush (s.setHost a b n) = .next (t.setHost a b n) := by
  cases he
  simp only [State.setHost, ← Packer.rowEnd_setHost]
  rfl

theorem execPkPad_setHost {s t : State} (a b : HostRegs) (n : Nat) (he : execPkPad s = .next t) :
    execPkPad (s.setHost a b n) = .next (t.setHost a b n) := by
  cases he
  simp only [State.setHost, apply_ite (Packer.setHost a)]
  rfl

/-- A micro-operation neither reads nor writes the host registers (R26, R40). -/
theorem exec_setHost {i : Instr} {s t : State} (a b : HostRegs) (n : Nat) (hi : isHostOp i = false)
    (he : exec i s = .next t) : exec i (s.setHost a b n) = .next (t.setHost a b n) := by
  cases i
  case pkAccum => exact execPkAccum_setHost a b n he
  case pkEmit => exact execPkEmit_setHost a b n he
  case pkFlush => exact execPkFlush_setHost a b n he
  case pkPad => exact execPkPad_setHost a b n he
  case upFetch => exact execUpFetch_setHost a b n he
  case upExtract => exact execUpExtract_setHost a b n he
  case upSkip => exact execUpSkip_setHost a b n he
  case pkOkterm | pkFailterm | pkIdle | pkDone | pkErr | upOkterm | upFailterm | upIdle | upDone | upErr =>
    cases he; rfl
  all_goals cases hi

/-- A micro-operation keeps the host registers: overwriting them with what they hold changes nothing. -/
theorem exec_keeps_hostRegs {i : Instr} {s t : State} (hi : isHostOp i = false) (he : exec i s = .next t) :
    t.pk.hostRegs = s.pk.hostRegs ∧ t.up.hostRegs = s.up.hostRegs ∧ t.up.PAL_LEN = s.up.PAL_LEN := by
  have h : t = t.setHost s.pk.hostRegs s.up.hostRegs s.up.PAL_LEN :=
    Host.Outcome.next.inj (he.symm.trans (exec_setHost s.pk.hostRegs s.up.hostRegs s.up.PAL_LEN hi he))
  exact ⟨congrArg (·.pk.hostRegs) h, congrArg (·.up.hostRegs) h, congrArg (·.up.PAL_LEN) h⟩

/-! ### What the host does to its registers -/

theorem Packer.start_configuration (p : Packer) :
    p.start.WIDTH = p.WIDTH ∧ p.start.HEIGHT = p.HEIGHT ∧ p.start.DEPTH = p.DEPTH := by
  rcases p.start_cases with ⟨-, -, e⟩ | ⟨-, -, e⟩ | ⟨-, e⟩ <;> simp [e]

theorem Unpacker.start_configuration (p : Unpacker) :
    p.start.WIDTH = p.WIDTH ∧ p.start.HEIGHT = p.HEIGHT ∧ p.start.DEPTH = p.DEPTH ∧ p.start.PAL_LEN = p.PAL_LEN := by
  rcases p.start_cases with ⟨-, -, e⟩ | ⟨-, -, e⟩ | ⟨-, e⟩ <;> simp [e]

theorem UnitRegs.startAccepted_eq_false_iff (r : UnitRegs) :
    r.startAccepted = false ↔ r.PHASE ≠ 0#4 ∧ r.PHASE ≠ 6#4 := by
  simp [UnitRegs.startAccepted]

/-- `START` sets `CMDERR` when it is refused, and else keeps it (R136, R141). -/
theorem Packer.start_CMDERR (p : Packer) : p.start.CMDERR = (p.CMDERR || !p.startAccepted) := by
  rcases p.start_cases with ⟨ha, -, e⟩ | ⟨ha, -, e⟩ | ⟨ha, e⟩ <;> simp [e, ha]

theorem Unpacker.start_CMDERR (p : Unpacker) : p.start.CMDERR = (p.CMDERR || !p.startAccepted) := by
  rcases p.start_cases with ⟨ha, -, e⟩ | ⟨ha, -, e⟩ | ⟨ha, e⟩ <;> simp [e, ha]

/-- Every operation but a write to one of them keeps the configuration registers of both units (R21). -/
theorem exec_keeps_configuration {i : Instr} {s t : State} (hi : isConfigWrite i = false) (he : exec i s = .next t) :
    (t.pk.WIDTH = s.pk.WIDTH ∧ t.pk.HEIGHT = s.pk.HEIGHT ∧ t.pk.DEPTH = s.pk.DEPTH) ∧
    (t.up.WIDTH = s.up.WIDTH ∧ t.up.HEIGHT = s.up.HEIGHT ∧ t.up.DEPTH = s.up.DEPTH ∧
      t.up.PAL_LEN = s.up.PAL_LEN) := by
  cases hm : isHostOp i
  · obtain ⟨hpk, hup, hpal⟩ := exec_keeps_hostRegs hm he
    exact ⟨⟨congrArg HostRegs.WIDTH hpk, congrArg HostRegs.HEIGHT hpk, congrArg HostRegs.DEPTH hpk⟩,
      congrArg HostRegs.WIDTH hup, congrArg HostRegs.HEIGHT hup, congrArg HostRegs.DEPTH hup, hpal⟩
  · cases i <;> simp only [isHostOp, Bool.false_eq_true] at hm
    case pkStart => cases he; exact ⟨s.pk.start_configuration, rfl, rfl, rfl, rfl⟩
    case upStart => cases he; exact ⟨⟨rfl, rfl, rfl⟩, s.up.start_configuration⟩
    case pkWrWidth | pkWrHeight | pkWrDepth | upWrWidth | upWrHeight | upWrDepth | upWrPalLen => cases hi
    all_goals cases he; exact ⟨⟨rfl, rfl, rfl⟩, rfl, rfl, rfl, rfl⟩

/-- A command that is not legal in the present phase sets `CMDERR` of `PK`, and nothing else does (R40). -/
theorem exec_pk_CMDERR_iff {i : Instr} {s t : State} (hi : i ≠ .pkReset) (he : exec i s = .next t) :
    t.pk.CMDERR = true ↔ s.pk.CMDERR = true ∨ (∃ d, i = .pkCmdIllegal d) ∨
      (i = .pkStart ∧ s.pk.PHASE ≠ 0#4 ∧ s.pk.PHASE ≠ 6#4) := by
  cases hm : isHostOp i
  · have h : t.pk.CMDERR = s.pk.CMDERR := congrArg HostRegs.CMDERR (exec_keeps_hostRegs hm he).1
    rw [h]
    refine ⟨.inl, ?_⟩
    rintro (h | ⟨d, rfl⟩ | ⟨rfl, -⟩)
    · exact h
    · cases hm
    · cases hm
  · cases i <;> simp only [isHostOp, Bool.false_eq_true] at hm
    case pkReset => exact absurd rfl hi
    case pkStart => cases he; simp [Packer.start_CMDERR, UnitRegs.startAccepted_eq_false_iff]
    all_goals cases he; simp

/-- A command that is not legal in the present phase sets `CMDERR` of `UP`, and nothing else does (R40). -/
theorem exec_up_CMDERR_iff {i : Instr} {s t : State} (hi : i ≠ .upReset) (he : exec i s = .next t) :
    t.up.CMDERR = true ↔ s.up.CMDERR = true ∨ (∃ d, i = .upCmdIllegal d) ∨
      (i = .upStart ∧ s.up.PHASE ≠ 0#4 ∧ s.up.PHASE ≠ 6#4) := by
  cases hm : isHostOp i
  · have h : t.up.CMDERR = s.up.CMDERR := congrArg HostRegs.CMDERR (exec_keeps_hostRegs hm he).2.1
    rw [h]
    refine ⟨.inl, ?_⟩
    rintro (h | ⟨d, rfl⟩ | ⟨rfl, -⟩)
    · exact h
    · cases hm
    · cases hm
  · cases i <;> simp only [isHostOp, Bool.false_eq_true] at hm
    case upReset => exact absurd rfl hi
    case upStart => cases he; simp [Unpacker.start_CMDERR, UnitRegs.startAccepted_eq_false_iff]
    all_goals cases he; simp

/-! ### The moves of the environment -/

theorem environmentMove_pk (m : Move) (s : State) : (environmentMove m s).pk = s.pk := by
  rcases m with _ | _ | ⟨_ | _, _⟩ | ⟨_ | _⟩ | ⟨_ | _⟩ <;> rfl

theorem environmentMove_up (m : Move) (s : State) : (environmentMove m s).up = s.up := by
  rcases m with _ | _ | ⟨_ | _, _⟩ | ⟨_ | _⟩ | ⟨_ | _⟩ <;> rfl

/-! ### An accepted `START` -/

theorem Packer.start_eq_latch {p : Packer} (ha : p.startAccepted = true) (hc : p.configLegal = true) :
    p.start = p.latch := by
  simp [Packer.start, ha, hc]

theorem Unpacker.start_eq_latch {p : Unpacker} (ha : p.startAccepted = true) (hc : p.configLegal = true) :
    p.start = p.latch := by
  simp [Unpacker.start, ha, hc]

/-- The latched depth is the configured one: none of its bits is lost in the four bits of `S` (R139, R143). -/
theorem UnitRegs.latch_S_toNat {r : UnitRegs} (hc : r.configLegal = true) : r.latch.S.toNat = r.DEPTH :=
  depth_toNat (legal_depth hc)

end Sys2Proof.Machine
end

section
/-! The statements about the state elements (10_state). -/

namespace Sys2Proof.Machine

/-- Settles O20: micro-operations commute with overwriting `CMDERR`, host operations are taken case by case. -/
theorem cmderrIsSticky : Obligations.CmderrIsSticky := by
  refine ⟨fun c => ⟨rfl, rfl⟩, UnitRegs.statusWord_testBit_three,
    fun m s => by rw [environmentMove_pk, environmentMove_up]; exact ⟨rfl, rfl⟩, fun i s t he => ?_,
    fun i s t b c hi he => ?_⟩
  · refine ⟨?_, fun hi => exec_pk_CMDERR_iff hi he, ?_, fun hi => exec_up_CMDERR_iff hi he⟩ <;>
      (rintro rfl; cases he; rfl)
  · obtain ⟨hpk, hup, hpal⟩ := exec_keeps_hostRegs hi he
    show exec i (s.setHost { s.pk.hostRegs with CMDERR := b } { s.up.hostRegs with CMDERR := c } s.up.PAL_LEN) =
      .next (t.setHost { t.pk.hostRegs with CMDERR := b } { t.up.hostRegs with CMDERR := c } t.up.PAL_LEN)
    rw [hpk, hup, hpal]
    exact exec_setHost _ _ _ hi he

/-- Settles O22: the fields are those of the concatenation, the flags are read off the phase, and `ERR` is tied to `ERRCODE`
by the invariant. -/
theorem statusWordFields : Obligations.StatusWordFields :=
  ⟨fun r => ⟨r.busy_iff, r.done_iff, by simpa [BitVec.toNat_eq] using r.err_iff, r.statusWord_eq⟩,
    fun _ => ⟨rfl, rfl⟩, fun _ _ => ⟨rfl, rfl⟩, fun _ => ⟨UnitRegs.statusWord_reset, UnitRegs.statusWord_reset⟩,
    fun _ h => ⟨h.pk.unit.err_iff_errcode, h.up.unit.err_iff_errcode⟩⟩

/-- Settles O27: micro-operations commute with overwriting the configuration registers, and an accepted `START` is the
latch. -/
theorem configurationWritesDoNotDisturbATransform : Obligations.ConfigurationWritesDoNotDisturbATransform := by
  refine ⟨fun i s t w h d hi he => ?_, fun i s t w h d p hi he => ?_, fun s t ha hc he => ?_, fun s t ha hc he => ?_⟩
  · obtain ⟨hpk, hup, hpal⟩ := exec_keeps_hostRegs hi he
    show exec i (s.setHost ⟨w, h, d, s.pk.hostRegs.CMDERR⟩ s.up.hostRegs s.up.PAL_LEN) =
      .next (t.setHost ⟨w, h, d, t.pk.hostRegs.CMDERR⟩ t.up.hostRegs t.up.PAL_LEN)
    rw [hpk, hup, hpal]
    exact exec_setHost _ _ _ hi he
  · obtain ⟨hpk, hup, -⟩ := exec_keeps_hostRegs hi he
    show exec i (s.setHost s.pk.hostRegs ⟨w, h, d, s.up.hostRegs.CMDERR⟩ p) =
      .next (t.setHost t.pk.hostRegs ⟨w, h, d, t.up.hostRegs.CMDERR⟩ p)
    rw [hpk, hup]
    exact exec_setHost _ _ _ hi he
  · cases he
    rw [Packer.start_eq_latch ha hc]
    exact ⟨rfl, rfl, UnitRegs.latch_S_toNat hc⟩
  · cases he
    rw [Unpacker.start_eq_latch ha hc]
    exact ⟨rfl, rfl, UnitRegs.latch_S_toNat hc, rfl⟩

/-- Settles O47: each of the seven writes stores its word, and every other operation keeps all seven registers. -/
theorem onlyTheHostWritesConfiguration : Obligations.OnlyTheHostWritesConfiguration := by
  refine ⟨fun m s => ⟨environmentMove_pk m s, environmentMove_up m s⟩, fun i s t he => ?_⟩
  cases hc : isConfigWrite i
  · obtain ⟨⟨hw, hh, hd⟩, hw', hh', hd', hp'⟩ := exec_keeps_configuration hc he
    have hne : ∀ j, isConfigWrite j = true → i ≠ j := fun j hj e => by simp [← e, hc] at hj
    exact ⟨fun v e => absurd e (hne _ rfl), fun _ => hw, fun v e => absurd e (hne _ rfl), fun _ => hh,
      fun v e => absurd e (hne _ rfl), fun _ => hd, fun v e => absurd e (hne _ rfl), fun _ => hw',
      fun v e => absurd e (hne _ rfl), fun _ => hh', fun v e => absurd e (hne _ rfl), fun _ => hd',
      fun v e => absurd e (hne _ rfl), fun _ => hp'⟩
  · cases i <;> simp only [isConfigWrite, Bool.false_eq_true] at hc
    all_goals cases he; simp [Packer.read, Unpacker.read, UnitRegs.read]

/-- Settles O15, by evaluating the reset state, which is the same for each width. -/
theorem hardwareResetClearsEverything : Obligations.HardwareResetClearsEverything :=
  fun _ => ⟨rfl, rfl, UnitRegs.statusWord_reset, UnitRegs.statusWord_reset⟩

/-- Settles O28: both units read their registers through `UnitRegs.read`, which sees none of them. -/
theorem workingRegistersAreNotReadable : Obligations.WorkingRegistersAreNotReadable :=
  fun s reg w h _ d _ n k =>
    ⟨s.pk.read_working 0 reg w h d n k, s.up.read_working s.up.PAL_LEN reg w h d n k⟩

end Sys2Proof.Machine
end

section
/-! An operation depends on its unit alone and changes nothing else (R77); the unit is its registers, its two channels and
the record of its reads. This is said once, as commutation: an operation may run on its unit put into any other machine.
That it leaves the rest unchanged follows by putting the unit into the machine it came from. -/

namespace Sys2Proof.Machine

/-- The machine `r` with everything of unit `u` as it is in `s`. -/
def State.putUnit (u : UnitId) (s r : State) : State :=
  match u with
  | .PK => { r with pk := s.pk, inPk := s.inPk, outPk := s.outPk, readsPk := s.readsPk }
  | .UP => { r with up := s.up, inUp := s.inUp, outUp := s.outUp, readsUp := s.readsUp }

theorem State.putUnit_self (u : UnitId) (s : State) : s.putUnit u s = s := by
  cases u <;> rfl

/-- A unit put back into the machine it came from, in which only the other unit has changed. -/
theorem State.putUnit_putUnit_other (u : UnitId) (s b : State) :
    s.putUnit u (b.putUnit u.other s) = b.putUnit u.other s := by
  cases u <;> rfl

/-- The two units are put into a machine in either order. -/
theorem State.putUnit_comm (u : UnitId) (a b s : State) :
    a.putUnit u (b.putUnit u.other s) = b.putUnit u.other (a.putUnit u s) := by
  cases u <;> rfl

/-! ### Each micro-operation with a choice runs on its unit alone -/

theorem execPkAccum_putUnit {s t : State} (r : State) (he : execPkAccum s = .next t) :
    execPkAccum (s.putUnit .PK r) = .next (t.putUnit .PK r) := by
  rcases execPkAccum_cases he with ⟨hq, rfl⟩ | ⟨c, rest, hq, rfl⟩ | ⟨v, rest, hq, hv, rfl⟩ | ⟨v, rest, hq, hv, rfl⟩
  · simp only [execPkAccum, State.putUnit, hq]
  · simp only [execPkAccum, State.putUnit, hq]
  · simp [execPkAccum, State.putUnit, hq, indexFits, Nat.not_lt.2 hv, Channel.pop_cons hq]
  · simp [execPkAccum, State.putUnit, hq, indexFits, hv, Channel.pop_cons hq]

theorem execUpFetch_putUnit {s t : State} (r : State) (he : execUpFetch s = .next t) :
    execUpFetch (s.putUnit .UP r) = .next (t.putUnit .UP r) := by
  rcases execUpFetch_cases he with ⟨hq, rfl⟩ | ⟨c, rest, hq, rfl⟩ | ⟨b, rest, hq, rfl⟩
  · simp only [execUpFetch, State.putUnit, hq]
  · simp only [execUpFetch, State.putUnit, hq]
  · simp only [execUpFetch, State.putUnit, hq, Channel.pop_cons hq]

theorem execUpSkip_putUnit {s t : State} (r : State) (he : execUpSkip s = .next t) :
    execUpSkip (s.putUnit .UP r) = .next (t.putUnit .UP r) := by
  rcases execUpSkip_cases he with ⟨hq, rfl⟩ | ⟨c, rest, hq, rfl⟩ | ⟨b, rest, hq, rfl⟩
  · simp only [execUpSkip, State.putUnit, hq]
  · simp only [execUpSkip, State.putUnit, hq]
  · simp only [execUpSkip, State.putUnit, hq, Channel.pop_cons hq]

theorem execUpExtract_putUnit {s t : State} (r : State) (he : execUpExtract s = .next t) :
    execUpExtract (s.putUnit .UP r) = .next (t.putUnit .UP r) := by
  rcases execUpExtract_cases he with ⟨hp, rfl⟩ | ⟨hp, rfl⟩
  · simp [execUpExtract, State.putUnit, indexInPalette, Nat.not_lt.2 hp]
  · simp [execUpExtract, State.putUnit, indexInPalette, hp]

/-! ### Every operation -/

/-- An operation depends on its unit alone: on the unit put into any machine it has the same effect (R77). -/
theorem exec_putUnit {i : Instr} {s t : State} (r : State) (he : exec i s = .next t) :
    exec i (s.putUnit (unitOf i) r) = .next (t.putUnit (unitOf i) r) := by
  cases i
  case pkAccum => exact execPkAccum_putUnit r he
  case upFetch => exact execUpFetch_putUnit r he
  case upSkip => exact execUpSkip_putUnit r he
  case upExtract => exact execUpExtract_putUnit r he
  all_goals cases he; rfl

/-- An operation changes nothing but its unit: it has the effect that it has on the unit put into the same machine. -/
theorem exec_frame {i : Instr} {s t : State} (he : exec i s = .next t) : t = t.putUnit (unitOf i) s := by
  have h := exec_putUnit s he
  rw [s.putUnit_self] at h
  exact Host.Outcome.next.inj (he.symm.trans h)

/-- After an operation of the other unit, an operation has the effect on its unit that it would have had before. -/
theorem exec_after_other {i j : Instr} {s a b : State} (h : unitOf j = (unitOf i).other) (hi : exec i s = .next a)
    (hj : exec j s = .next b) : exec i b = .next (a.putUnit (unitOf i) b) := by
  have hb : s.putUnit (unitOf i) b = b := by rw [exec_frame hj, h, State.putUnit_putUnit_other]
  simpa only [hb] using exec_putUnit b hi

end Sys2Proof.Machine
end

section
/-! The statements about the channels and the independence of the units (20_memory). -/

namespace Sys2Proof.Machine

/-- Settles O43: an operation depends on its unit alone and changes nothing but its unit. -/
theorem unitsDoNotInterfere : Obligations.UnitsDoNotInterfere := by
  intro i j s a b hpk hup hi hj
  have ha : a = a.putUnit .PK s := hpk ▸ exec_frame hi
  have hb : b = b.putUnit .UP s := hup ▸ exec_frame hj
  have hij : exec j a = .next (b.putUnit .UP a) := hup ▸ exec_after_other (by rw [hpk, hup]; rfl) hj hi
  have hji : exec i b = .next (a.putUnit .PK b) := hpk ▸ exec_after_other (by rw [hpk, hup]; rfl) hi hj
  have hab : a.putUnit .PK b = b.putUnit .UP a :=
    calc a.putUnit .PK b = a.putUnit .PK (b.putUnit .UP s) := by rw [← hb]
      _ = b.putUnit .UP (a.putUnit .PK s) := State.putUnit_comm .PK a b s
      _ = b.putUnit .UP a := by rw [← ha]
  exact ⟨ha, hb, _, hij, hab ▸ hji⟩

/-- Settles O44: the three readers of a token take the head token, and only a data token; `EXTRACT` and the seven
micro-operations that emit a byte or close a frame append one token; all other operations leave the channels. -/
theorem atMostOneTransferAStep : Obligations.AtMostOneTransferAStep := by
  intro i s t he
  cases i
  case pkAccum =>
    rcases execPkAccum_cases he with ⟨-, rfl⟩ | ⟨_, _, -, rfl⟩ | ⟨v, rest, hq, -, rfl⟩ | ⟨v, rest, hq, -, rfl⟩
    · exact .inl ⟨rfl, rfl, rfl, rfl⟩
    · exact .inl ⟨rfl, rfl, rfl, rfl⟩
    · exact .inr (.inl ⟨rfl, rfl, rfl, rfl, v, rest, hq, rfl⟩)
    · exact .inr (.inl ⟨rfl, rfl, rfl, rfl, v, rest, hq, rfl⟩)
  case upFetch =>
    rcases execUpFetch_cases he with ⟨-, rfl⟩ | ⟨_, _, -, rfl⟩ | ⟨b, rest, hq, rfl⟩
    · exact .inl ⟨rfl, rfl, rfl, rfl⟩
    · exact .inl ⟨rfl, rfl, rfl, rfl⟩
    · exact .inr (.inr (.inr (.inl ⟨rfl, rfl, rfl, rfl, b, rest, hq, rfl⟩)))
  case upSkip =>
    rcases execUpSkip_cases he with ⟨-, rfl⟩ | ⟨_, _, -, rfl⟩ | ⟨b, rest, hq, rfl⟩
    · exact .inl ⟨rfl, rfl, rfl, rfl⟩
    · exact .inl ⟨rfl, rfl, rfl, rfl⟩
    · exact .inr (.inr (.inr (.inl ⟨rfl, rfl, rfl, rfl, b, rest, hq, rfl⟩)))
  case upExtract =>
    rcases execUpExtract_cases he with ⟨-, rfl⟩ | ⟨-, rfl⟩
    · exact .inl ⟨rfl, rfl, rfl, rfl⟩
    · exact .inr (.inr (.inr (.inr ⟨rfl, rfl, rfl, rfl, _, rfl⟩)))
  case pkEmit | pkFlush | pkPad | pkOkterm | pkFailterm =>
    cases he; exact .inr (.inr (.inl ⟨rfl, rfl, rfl, rfl, _, rfl⟩))
  case upOkterm | upFailterm =>
    cases he; exact .inr (.inr (.inr (.inr ⟨rfl, rfl, rfl, rfl, _, rfl⟩)))
  all_goals cases he; exact .inl ⟨rfl, rfl, rfl, rfl⟩

end Sys2Proof.Machine
end

section
/-! The encoding of words: how a token word is read (R99), where the fields of a descriptor stand among its bits, at each
width (R101), and what the rows of the table select, field by field (R106). -/

namespace Sys2Proof.Machine

/-! ### Token words -/

theorem encodeToken_D_toNat (v : Byte) : (encodeToken (.D v)).toNat = v.toNat := by
  show (0#1 ++ v).toNat = v.toNat
  rw [toNat_append_eq_add, BitVec.toNat_zero, Nat.zero_mul, Nat.zero_add]

theorem encodeToken_END_toNat (c : BitVec 4) : (encodeToken (.END c)).toNat = 256 + c.toNat := by
  show (1#1 ++ (0#4 ++ c)).toNat = 256 + c.toNat
  rw [toNat_append_eq_add, toNat_append_eq_add, BitVec.toNat_zero, Nat.zero_mul, Nat.zero_add]
  rfl

/-- Bit 8 of a token word tells the words from 256 on. -/
theorem tokenWord_bit8 (w : TokenWord) : w.getLsbD 8 = decide (256 ≤ w.toNat) := w.msb_eq_decide

theorem decodeToken_of_lt {w : TokenWord} (h : w.toNat < 256) : decodeToken w = .D (BitVec.ofNat 8 w.toNat) := by
  rw [decodeToken, tokenWord_bit8, decide_eq_false (Nat.not_le.2 h)]
  rfl

theorem decodeToken_of_le {w : TokenWord} (h : 256 ≤ w.toNat) : decodeToken w = .END (BitVec.ofNat 4 w.toNat) := by
  rw [decodeToken, tokenWord_bit8, decide_eq_true h]
  rfl

/-! ### The fields of a descriptor among its bits -/

/-- The byte `A` is the number that its fields make. -/
theorem descriptor_A_toNat (u : UnitId) (wr : Bool) (reg : BitVec 6) (v : Nat) :
    (descriptor u wr reg v).A.toNat = (u == .UP).toNat * 128 + wr.toNat * 64 + reg.toNat := by
  simp only [descriptor, BitVec.toNat_cast, toNat_append_eq_add, BitVec.toNat_ofBool]
  ring

/-- The descriptor with these fields as numbers is the one with these fields. -/
theorem descriptorOf_eq_descriptor (u : UnitId) (wr : Bool) (reg : BitVec 6) (v : Nat) :
    descriptorOf (u == .UP).toNat wr.toNat reg.toNat v = descriptor u wr reg v := by
  rw [descriptorOf, ← descriptor_A_toNat u wr reg v, BitVec.ofNat_toNat, BitVec.setWidth_eq]
  rfl

theorem descriptorOf_bits (regw : Nat) {unit wr reg : Nat} (v : Nat) (hu : unit < 2) (hw : wr < 2) (hr : reg < 64) :
    (descriptorOf unit wr reg v).bits regw =
      unit * 2 ^ (regw + 7) + wr * 2 ^ (regw + 6) + reg * 2 ^ regw + v := by
  have hA : (unit * 128 + wr * 64 + reg) % 2 ^ 8 = unit * 128 + wr * 64 + reg := Nat.mod_eq_of_lt (by omega)
  rw [Descriptor.bits, descriptorOf, BitVec.toNat_ofNat, hA]
  ring

/-- The 40 bits for the width of the table are the four fields, one after the other. -/
theorem bits_descriptor_eq_append (u : UnitId) (wr : Bool) (reg : BitVec 6) (v : BitVec 32) :
    BitVec.ofNat 40 ((descriptor u wr reg v.toNat).bits 32) =
      BitVec.ofBool (u == .UP) ++ BitVec.ofBool wr ++ reg ++ v := by
  have hbits : (descriptor u wr reg v.toNat).bits 32 =
      (BitVec.ofBool (u == .UP) ++ BitVec.ofBool wr ++ reg ++ v).toNat := by
    rw [toNat_append_eq_add, Descriptor.bits]
    simp only [descriptor, BitVec.toNat_cast]
  rw [hbits, BitVec.ofNat_toNat, BitVec.setWidth_eq]

/-! ### What the fields select -/

theorem decodeHostOp_descriptorOf (u : UnitId) (wr : Bool) (reg : BitVec 6) (v : Nat) :
    decodeHostOp (descriptorOf (u == .UP).toNat wr.toNat reg.toNat v) =
      match u, wr with
      | .PK, true => decodePkWrite reg v
      | .PK, false => .pkRd reg
      | .UP, true => decodeUpWrite reg v
      | .UP, false => .upRd reg := by
  rw [descriptorOf_eq_descriptor]
  exact decodeHostOp_descriptor u wr reg v

/-- The read-only and reserved registers of `PK` (R133). -/
theorem ignoredReg_pk {reg : BitVec 6} (h : reg.toNat = 1 ∨ 5 ≤ reg.toNat) : ignoredReg .PK reg = true := by
  simp only [ignoredReg, Bool.and_eq_true, bne_iff_ne, beq_self_eq_true, Bool.true_or, and_true]
  omega

/-- The read-only and reserved registers of `UP` (R133). -/
theorem ignoredReg_up {reg : BitVec 6} (h : reg.toNat = 1 ∨ 6 ≤ reg.toNat) : ignoredReg .UP reg = true := by
  simp only [ignoredReg, Bool.and_eq_true, Bool.or_eq_true, bne_iff_ne]
  omega

/-- The order of R134 in numbers: each legal command is one word. -/
theorem decodePkCommand_eq (v : Nat) :
    decodePkCommand v = if v = 0 then .pkNop else if v = 1 then .pkStart else if v = 2 then .pkReset
      else .pkCmdIllegal v := by
  match v with
  | 0 | 1 | 2 => rfl
  | v + 3 => exact decodePkCommand_illegal (decide_eq_true (Nat.le_add_left 3 v))

theorem decodeUpCommand_eq (v : Nat) :
    decodeUpCommand v = if v = 0 then .upNop else if v = 1 then .upStart else if v = 2 then .upReset
      else .upCmdIllegal v := by
  match v with
  | 0 | 1 | 2 => rfl
  | v + 3 => exact decodeUpCommand_illegal (decide_eq_true (Nat.le_add_left 3 v))

/-! ### The rows of the table, field by field -/

/-- The three fields of a word of the table, unit and direction taken as one, put together again. -/
theorem tableWord_fields (x : TableWord) : x.extractLsb' 38 2 ++ x.extractLsb' 32 6 ++ x.extractLsb' 0 32 = x := by
  rw [BitVec.extractLsb'_append_extractLsb'_eq_extractLsb' (start₂ := 38) (len₁ := 6) rfl,
    BitVec.extractLsb'_append_extractLsb'_eq_extractLsb' (start₂ := 32) (len₁ := 32) rfl]
  exact BitVec.extractLsb'_eq_self

theorem append_beq_append {m n : Nat} (x x' : BitVec m) (y y' : BitVec n) :
    (x ++ y == x' ++ y') = (x == x' && y == y') := by
  rw [Bool.eq_iff_iff, Bool.and_eq_true, beq_iff_eq, beq_iff_eq, beq_iff_eq]
  refine ⟨fun h => ⟨?_, ?_⟩, fun ⟨hx, hy⟩ => by rw [hx, hy]⟩
  · simpa only [BitVec.extractLsb'_append_eq_left] using congrArg (BitVec.extractLsb' n m) h
  · simpa only [BitVec.extractLsb'_append_eq_right] using congrArg (BitVec.extractLsb' 0 n) h

/-- A row selects a word when it does so in each field. -/
theorem selects_append (r : HostRow) (top : BitVec 2) (reg : BitVec 6) (v : BitVec 32) :
    r.selects (top ++ reg ++ v) =
      (top &&& r.mask.extractLsb' 38 2 == r.pattern.extractLsb' 38 2
        && reg &&& r.mask.extractLsb' 32 6 == r.pattern.extractLsb' 32 6
        && v &&& r.mask.extractLsb' 0 32 == r.pattern.extractLsb' 0 32) := by
  rw [← append_beq_append, ← append_beq_append, ← BitVec.and_append, ← BitVec.and_append, tableWord_fields,
    tableWord_fields]
  rfl

theorem and_mask_reg (reg : BitVec 6) : reg &&& 63#6 = reg := BitVec.and_allOnes
theorem and_mask_data (v : BitVec 32) : v &&& 4294967295#32 = v := BitVec.and_allOnes

/-- The mnemonic of the first row that matches, row by row. -/
theorem find?_cons_mnemonic (p : HostRow → Bool) (r : HostRow) (rows : List HostRow) :
    ((r :: rows).find? p).map HostRow.mnemonic =
      if p r then some r.mnemonic else (rows.find? p).map HostRow.mnemonic := by
  rw [List.find?_cons]
  cases p r <;> rfl

theorem tableRow_pkRead (reg : BitVec 6) (v : BitVec 32) :
    (tableRow (0#2 ++ reg ++ v)).map HostRow.mnemonic = some (mnemonicOf (.pkRd reg)) := by
  simp [tableRow, pkHostRows, upHostRows, selects_append, mnemonicOf]

theorem tableRow_upRead (reg : BitVec 6) (v : BitVec 32) :
    (tableRow (2#2 ++ reg ++ v)).map HostRow.mnemonic = some (mnemonicOf (.upRd reg)) := by
  simp [tableRow, pkHostRows, upHostRows, selects_append, mnemonicOf]

/-- For a write to `PK` the table tests the fields in the order of the decoder: the rows of `CMD` come first and test the
data word, all others test the register alone. -/
theorem tableRow_pkWrite (reg : BitVec 6) (v : BitVec 32) :
    (tableRow (1#2 ++ reg ++ v)).map HostRow.mnemonic = some (mnemonicOf (decodePkWrite reg v.toNat)) := by
  simp only [decodePkWrite, decodePkCommand_eq, apply_ite mnemonicOf]
  simp only [tableRow, pkHostRows, upHostRows, List.cons_append, List.nil_append, find?_cons_mnemonic, selects_append]
  by_cases h0 : reg = 0#6
  · simp [h0, and_mask_data, BitVec.toNat_eq, apply_ite some, mnemonicOf]
  · simp [h0, and_mask_reg, apply_ite some, mnemonicOf]

/-- For a write to `UP` too, with one register more. -/
theorem tableRow_upWrite (reg : BitVec 6) (v : BitVec 32) :
    (tableRow (3#2 ++ reg ++ v)).map HostRow.mnemonic = some (mnemonicOf (decodeUpWrite reg v.toNat)) := by
  simp only [decodeUpWrite, decodeUpCommand_eq, apply_ite mnemonicOf]
  simp only [tableRow, pkHostRows, upHostRows, List.cons_append, List.nil_append, find?_cons_mnemonic, selects_append]
  by_cases h0 : reg = 0#6
  · simp [h0, and_mask_data, BitVec.toNat_eq, apply_ite some, mnemonicOf]
  · simp [h0, and_mask_reg, apply_ite some, mnemonicOf]

/-- The first row that matches a descriptor is the row of the operation that the descriptor decodes to (R106). -/
theorem tableRow_descriptor (u : UnitId) (wr : Bool) (reg : BitVec 6) (v : BitVec 32) :
    (tableRow (BitVec.ofNat 40 ((descriptor u wr reg v.toNat).bits 32))).map HostRow.mnemonic =
      some (mnemonicOf (decodeHostOp (descriptor u wr reg v.toNat))) := by
  rw [bits_descriptor_eq_append, decodeHostOp_descriptor]
  match u, wr with
  | .PK, false => exact tableRow_pkRead reg v
  | .PK, true => exact tableRow_pkWrite reg v
  | .UP, false => exact tableRow_upRead reg v
  | .UP, true => exact tableRow_upWrite reg v

end Sys2Proof.Machine
end

section
/-! The statements about the encoding (30_encoding). -/

namespace Sys2Proof.Machine

/-- Settles O3: a descriptor is put together from its fields, which the decoder and the rows of the table test in the same
order. -/
theorem descriptorFieldsSelectTheOperation : Obligations.DescriptorFieldsSelectTheOperation := by
  refine ⟨fun reg v => ⟨decodeHostOp_descriptorOf .PK false reg v, decodeHostOp_descriptorOf .UP false reg v,
      fun h => ?_, fun h => ?_⟩,
    fun v => ⟨decodeHostOp_descriptorOf .PK true 2#6 v, decodeHostOp_descriptorOf .PK true 3#6 v,
      decodeHostOp_descriptorOf .PK true 4#6 v, decodeHostOp_descriptorOf .UP true 2#6 v,
      decodeHostOp_descriptorOf .UP true 3#6 v, decodeHostOp_descriptorOf .UP true 4#6 v,
      decodeHostOp_descriptorOf .UP true 5#6 v, fun h => ?_, fun h => ?_⟩,
    rfl, rfl, rfl, rfl, rfl, rfl, fun regw unit wr reg v hu hw hr hv => ?_, fun d hd => ?_⟩
  · exact (decodeHostOp_descriptorOf .PK true reg v).trans (decodePkWrite_ignored (ignoredReg_pk h))
  · exact (decodeHostOp_descriptorOf .UP true reg v).trans (decodeUpWrite_ignored (ignoredReg_up h))
  · exact (decodeHostOp_descriptorOf .PK true 0#6 v).trans (decodePkCommand_illegal (decide_eq_true h))
  · exact (decodeHostOp_descriptorOf .UP true 0#6 v).trans (decodeUpCommand_illegal (decide_eq_true h))
  · rw [← descriptorOf_bits regw v hu hw hr]
    exact ofBits_bits hv
  · have h := tableRow_descriptor d.unit d.isWrite d.reg (BitVec.ofNat 32 d.D)
    rwa [BitVec.toNat_ofNat, Nat.mod_eq_of_lt hd, descriptor_fields] at h

/-- Settles O4: bit 8 of a token word tells the words from 256 on, and the payload is the low bits of the word. -/
theorem tokenWordFormat : Obligations.TokenWordFormat :=
  ⟨encodeToken_D_toNat, encodeToken_END_toNat, fun _ => ⟨decodeToken_of_lt, decodeToken_of_le⟩⟩

end Sys2Proof.Machine
end

section
/-! What the host's commands do (R136 to R141): a refused `START` is the illegal command, one with an illegal
configuration is fault entry, and the latch holds the geometry of R138 in numbers. A step that runs a host operation made
the host's move. -/

namespace Sys2Proof.Machine

/-! ### The outcomes of `START` -/

theorem Packer.start_eq_illegalCommand {p : Packer} (ha : p.startAccepted = false) : p.start = p.illegalCommand := by
  simp [Packer.start, ha]

theorem Unpacker.start_eq_illegalCommand {p : Unpacker} (ha : p.startAccepted = false) :
    p.start = p.illegalCommand := by
  simp [Unpacker.start, ha]

theorem Packer.start_eq_raiseFault {p : Packer} (ha : p.startAccepted = true) (hc : p.configLegal = false) :
    p.start = p.raiseFault E_CFG := by
  simp [Packer.start, ha, hc]

theorem Unpacker.start_eq_raiseFault {p : Unpacker} (ha : p.startAccepted = true) (hc : p.configLegal = false) :
    p.start = p.raiseFault E_CFG := by
  simp [Unpacker.start, ha, hc]

theorem UnitRegs.configLegal_iff_one_le (r : UnitRegs) :
    r.configLegal = true ↔ (r.DEPTH = 1 ∨ r.DEPTH = 4 ∨ r.DEPTH = 8) ∧ 1 ≤ r.WIDTH ∧ 1 ≤ r.HEIGHT := by
  simp only [r.configLegal_iff, Nat.one_le_iff_ne_zero]

theorem UnitRegs.configLegal_eq_false_iff (r : UnitRegs) :
    r.configLegal = false ↔ (r.DEPTH ≠ 1 ∧ r.DEPTH ≠ 4 ∧ r.DEPTH ≠ 8) ∨ r.WIDTH = 0 ∨ r.HEIGHT = 0 := by
  rw [← Bool.not_eq_true, r.configLegal_iff]
  tauto

/-- The latched geometry as equations between numbers (R138): no register loses a bit (R143). -/
theorem UnitRegs.latch_geometry_toNat {r : UnitRegs} (hc : r.configLegal = true) :
    r.latch.S.toNat = r.DEPTH ∧
    r.latch.BITPAD.toNat = (8 - r.WIDTH * r.DEPTH % 8) % 8 ∧
    8 * r.latch.BYTEW = r.WIDTH * r.DEPTH + r.latch.BITPAD.toNat ∧
    r.latch.BYTEPAD.toNat = (4 - r.latch.BYTEW % 4) % 4 := by
  have hS := UnitRegs.latch_S_toNat hc
  obtain ⟨hbitpad, hbytew, hbytepad⟩ := latch_geometry r
  rw [hS, latch_W] at hbitpad hbytew hbytepad
  refine ⟨hS, hbitpad, ?_, ?_⟩
  · rw [hbytew, hbitpad, eight_mul_byteWidth]
  · rw [hbytepad, hbytew, bytePad]

/-! ### The step and the host -/

@[simp] theorem State.nextMove_pk (s : State) : s.nextMove.2.pk = s.pk := by rw [s.nextMove_frame]
@[simp] theorem State.nextMove_up (s : State) : s.nextMove.2.up = s.up := by rw [s.nextMove_frame]
@[simp] theorem State.nextMove_cfg (s : State) : s.nextMove.2.cfg = s.cfg := by rw [s.nextMove_frame]

/-- A phase code selects no host operation (R107). -/
theorem isHostOp_of_decode_phase {u : UnitId} {p : PhaseCode} {i : Instr} (h : decode (.phase u p) = .ok i) :
    isHostOp i = false := by
  cases u with
  | PK =>
    rcases decode_phase_pk h with ⟨-, rfl⟩ | ⟨-, rfl⟩ | ⟨-, rfl⟩ | ⟨-, rfl⟩ | ⟨-, rfl⟩ | ⟨-, rfl⟩ | ⟨-, rfl⟩ |
      ⟨-, rfl⟩ | ⟨-, rfl⟩ <;> rfl
  | UP =>
    rcases decode_phase_up h with ⟨-, rfl⟩ | ⟨-, rfl⟩ | ⟨-, rfl⟩ | ⟨-, rfl⟩ | ⟨-, rfl⟩ | ⟨-, rfl⟩ | ⟨-, rfl⟩ |
      ⟨-, rfl⟩ <;> rfl

/-- Only a move of the host brings a host operation. -/
theorem host_of_fetch_hostOp {m : Move} {s : State} {c : Code} {i : Instr} (hf : fetch m s = some c)
    (hd : decode c = .ok i) (hi : isHostOp i = true) :
    ∃ d, m = .host d ∧ decodeHostOp (d.atWidth s.cfg.REGW) = i := by
  cases m <;> cases hf
  case host d => exact ⟨d, rfl, Except.ok.inj hd⟩
  case microOp u => exact absurd hi (by rw [isHostOp_of_decode_phase hd]; decide)

/-- Everything a step can do, seen from one host operation: the host brought it, or the step ran another operation, or
it made the environment's move. -/
theorem step_cases_hostOp (r : Instr) {s t : State} (hr : isHostOp r = true) (h : step s = .next t) :
    (∃ d, s.nextMove.1 = .host d ∧ decodeHostOp (d.atWidth s.cfg.REGW) = r) ∨
    (∃ i, i ≠ r ∧ exec i s.nextMove.2 = .next t) ∨
    t = environmentMove s.nextMove.1 s.nextMove.2 := by
  rcases step_cases h with ⟨c, i, hf, hd, he⟩ | ⟨-, ht⟩
  · by_cases hi : i = r
    · subst hi
      exact .inl (s.nextMove_cfg ▸ host_of_fetch_hostOp hf hd hr)
    · exact .inr (.inl ⟨i, hi, he⟩)
  · exact .inr (.inr ht)

/-- Over every step that is not its `RESET`, `CMDERR` of `PK` stays set (R40, R141). -/
theorem step_keeps_pk_CMDERR {s t : State} (h : step s = .next t) (hs : s.pk.CMDERR = true) :
    t.pk.CMDERR = true ∨ ∃ d, s.nextMove.1 = .host d ∧ decodeHostOp (d.atWidth s.cfg.REGW) = .pkReset := by
  rw [← s.nextMove_pk] at hs
  rcases step_cases_hostOp .pkReset rfl h with hr | ⟨i, hi, he⟩ | rfl
  · exact .inr hr
  · exact .inl ((exec_pk_CMDERR_iff hi he).2 (.inl hs))
  · exact .inl (by rwa [environmentMove_pk])

/-- Over every step that is not its `RESET`, `CMDERR` of `UP` stays set (R40, R141). -/
theorem step_keeps_up_CMDERR {s t : State} (h : step s = .next t) (hs : s.up.CMDERR = true) :
    t.up.CMDERR = true ∨ ∃ d, s.nextMove.1 = .host d ∧ decodeHostOp (d.atWidth s.cfg.REGW) = .upReset := by
  rw [← s.nextMove_up] at hs
  rcases step_cases_hostOp .upReset rfl h with hr | ⟨i, hi, he⟩ | rfl
  · exact .inr hr
  · exact .inl ((exec_up_CMDERR_iff hi he).2 (.inl hs))
  · exact .inl (by rwa [environmentMove_up])

end Sys2Proof.Machine
end

section
/-! The statements about the host's commands (40_host_commands). What a descriptor selects is what
`descriptorFieldsSelectTheOperation` says. -/

namespace Sys2Proof.Machine

/-- Settles O19: the words named are those from 3 on, a refused `START` is the illegal command, and the flag is followed
over the two kinds of step. -/
theorem illegalCommandSetsOnlyCmderr : Obligations.IllegalCommandSetsOnlyCmderr := by
  obtain ⟨-, hwrite, -⟩ := descriptorFieldsSelectTheOperation
  refine ⟨fun s => ⟨fun v hv => ?_, fun h0 h6 => ?_, fun h0 h6 => ?_⟩,
    fun s t h => ⟨step_keeps_pk_CMDERR h, step_keeps_up_CMDERR h⟩⟩
  · have h3 : 3 ≤ v := by omega
    obtain ⟨-, -, -, -, -, -, -, hpk, hup⟩ := hwrite v
    exact ⟨hpk h3, hup h3, rfl, rfl⟩
  · have ha := s.pk.startAccepted_eq_false_iff.2 ⟨h0, h6⟩
    rw [exec, execPkStart, Packer.start_eq_illegalCommand ha]
    rfl
  · have ha := s.up.startAccepted_eq_false_iff.2 ⟨h0, h6⟩
    rw [exec, execUpStart, Unpacker.start_eq_illegalCommand ha]
    rfl

/-- Settles O23: an accepted `START` with a legal configuration is the latch, whose geometry is that of R138. -/
theorem startLatchesTheConfiguration : Obligations.StartLatchesTheConfiguration := by
  refine fun s => ⟨fun hp hd hw hh => ?_, fun hp hd hw hh => ?_⟩
  · have hc := s.pk.configLegal_iff_one_le.2 ⟨hd, hw, hh⟩
    refine ⟨s.pk.latch, ?_, rfl, rfl, UnitRegs.latch_geometry_toNat hc⟩
    rw [exec, execPkStart, Packer.start_eq_latch (s.pk.startAccepted_iff.2 hp) hc]
  · have hc := s.up.configLegal_iff_one_le.2 ⟨hd, hw, hh⟩
    refine ⟨s.up.latch, ?_, rfl, rfl, UnitRegs.latch_geometry_toNat hc⟩
    rw [exec, execUpStart, Unpacker.start_eq_latch (s.up.startAccepted_iff.2 hp) hc]

/-- Settles O24: an accepted `START` with an illegal configuration is fault entry with `E_CFG`, after which the phase
selects `FAILTERM`. -/
theorem startFaultsOnAnIllegalConfiguration : Obligations.StartFaultsOnAnIllegalConfiguration := by
  refine ⟨UnitRegs.configLegal_iff_one_le, fun s hp hc => ?_, fun s hp hc => ?_⟩
  · refine ⟨{ s with pk := s.pk.raiseFault E_CFG }, ?_, rfl, rfl, rfl⟩
    rw [exec, execPkStart, Packer.start_eq_raiseFault (s.pk.startAccepted_iff.2 hp)
      (s.pk.configLegal_eq_false_iff.2 hc)]
  · refine ⟨{ s with up := s.up.raiseFault E_CFG }, ?_, rfl, rfl, rfl⟩
    rw [exec, execUpStart, Unpacker.start_eq_raiseFault (s.up.startAccepted_iff.2 hp)
      (s.up.configLegal_eq_false_iff.2 hc)]

/-- Settles O16: the two operations give the state back. -/
theorem nopChangesNothing : Obligations.NopChangesNothing := by
  obtain ⟨-, -, hpk, -, -, hup, -⟩ := descriptorFieldsSelectTheOperation
  exact ⟨hpk, hup, fun s => ⟨rfl, rfl⟩⟩

/-- Settles O17: each of the seven writes is the update of its register, which the read of that number returns. -/
theorem configurationWriteStoresTheWord : Obligations.ConfigurationWriteStoresTheWord := by
  intro s v
  obtain ⟨-, hwrite, -⟩ := descriptorFieldsSelectTheOperation
  obtain ⟨hpkWidth, hpkHeight, hpkDepth, hupWidth, hupHeight, hupDepth, hupPalLen, -⟩ := hwrite v
  exact ⟨⟨hpkWidth, _, rfl, rfl, rfl⟩, ⟨hpkHeight, _, rfl, rfl, rfl⟩, ⟨hpkDepth, _, rfl, rfl, rfl⟩,
    ⟨hupWidth, _, rfl, rfl, rfl⟩, ⟨hupHeight, _, rfl, rfl, rfl⟩, ⟨hupDepth, _, rfl, rfl, rfl⟩,
    ⟨hupPalLen, _, rfl, rfl, rfl⟩⟩

/-- Settles O18: the descriptor selects the ignored write, which gives the state back. -/
theorem writeToReadOnlyOrReservedIsIgnored : Obligations.WriteToReadOnlyOrReservedIsIgnored := by
  intro s reg v
  obtain ⟨hreg, -⟩ := descriptorFieldsSelectTheOperation
  obtain ⟨-, -, hpk, hup⟩ := hreg reg v
  exact ⟨fun h => ⟨_, congrArg Except.ok (hpk h), rfl, rfl⟩, fun h => ⟨_, congrArg Except.ok (hup h), rfl, rfl⟩⟩

/-- Settles O26: `RESET` is the update that clears all but the configuration registers. -/
theorem resetCommandClearsItsUnit : Obligations.ResetCommandClearsItsUnit := by
  obtain ⟨-, -, -, -, hpk, -, -, hup, -⟩ := descriptorFieldsSelectTheOperation
  exact ⟨hpk, hup, fun s => ⟨rfl, rfl⟩⟩

end Sys2Proof.Machine
end

section
/-! The micro-operations of the packer (R161 to R165): what `PK.ACCUM` does with the token at the head, the bytes that
are put together as numbers, and the phase that follows. -/

namespace Sys2Proof.Machine

/-! ### `PK.ACCUM` by the token at the head (R161) -/

theorem execPkAccum_of_END {s : State} {c : BitVec 4} {rest : List Token} (hq : s.inPk.queue = .END c :: rest) :
    execPkAccum s = .next { s with pk := s.pk.raiseFault E_TRUNC } := by
  simp only [execPkAccum, hq]

theorem execPkAccum_of_le {s : State} {v : Byte} {rest : List Token} (hq : s.inPk.queue = .D v :: rest)
    (hv : 2 ^ s.pk.S.toNat ≤ v.toNat) :
    execPkAccum s =
      .next { s with inPk := ⟨s.inPk.passed ++ [.D v], rest⟩, pk := s.pk.raiseFault E_RANGE } := by
  simp [execPkAccum, hq, indexFits, Nat.not_lt.2 hv, Channel.pop_cons hq]

theorem execPkAccum_of_lt {s : State} {v : Byte} {rest : List Token} (hq : s.inPk.queue = .D v :: rest)
    (hv : v.toNat < 2 ^ s.pk.S.toNat) :
    execPkAccum s = .next { s with inPk := ⟨s.inPk.passed ++ [.D v], rest⟩, pk := s.pk.accumulate v } := by
  simp [execPkAccum, hq, indexFits, hv, Channel.pop_cons hq]

/-! ### Bytes put together -/

/-- The accumulator after an index was taken, as the spec writes it (R104), whatever it held before. -/
theorem assemble_toNat_eq_mod (s : BitVec 4) (acc v : Byte) :
    (assemble s acc v).toNat = ((acc.toNat <<< s.toNat) ||| v.toNat) % 256 := by
  have hv : v.toNat % 2 ^ 8 = v.toNat := Nat.mod_eq_of_lt v.isLt
  calc (assemble s acc v).toNat = (acc.toNat <<< s.toNat) % 2 ^ 8 ||| v.toNat := by
        rw [assemble, BitVec.toNat_or, BitVec.toNat_shiftLeft]
    _ = ((acc.toNat <<< s.toNat) ||| v.toNat) % 2 ^ 8 := by rw [Nat.or_mod_two_pow, hv]

theorem alignTop_toNat (bitpad : BitVec 3) (acc : Byte) :
    (alignTop bitpad acc).toNat = (acc.toNat <<< bitpad.toNat) % 256 :=
  BitVec.toNat_shiftLeft

/-! ### The phase after a legal index (R161) -/

theorem Packer.accumulate_PHASE_full {p : Packer} {v : Byte} (h8 : (p.accumulate v).BITCNT.toNat = 8) :
    (p.accumulate v).PHASE = 2#4 :=
  if_pos (BitVec.eq_of_toNat_eq h8)

theorem Packer.accumulate_PHASE_rowEnd {p : Packer} {v : Byte}
    (h : (p.accumulate v).BITCNT.toNat < 8 ∧ (p.accumulate v).COL = p.W) : (p.accumulate v).PHASE = 3#4 := by
  have h8 : p.BITCNT + p.S ≠ 8#4 := fun e => Nat.ne_of_lt h.1 (congrArg BitVec.toNat e)
  exact (if_neg h8).trans (if_pos h)

theorem Packer.accumulate_PHASE_more {p : Packer} {v : Byte} (h8 : (p.accumulate v).BITCNT.toNat ≠ 8)
    (h : ¬ ((p.accumulate v).BITCNT.toNat < 8 ∧ (p.accumulate v).COL = p.W)) : (p.accumulate v).PHASE = 1#4 := by
  have h8' : p.BITCNT + p.S ≠ 8#4 := fun e => h8 (congrArg BitVec.toNat e)
  exact (if_neg h8').trans (if_neg h)

/-! ### The end of a row (R165) -/

theorem Packer.nextRow_of_ne {p : Packer} (h : p.ROW + 1 ≠ p.H) :
    p.nextRow = { p with ROW := p.ROW + 1, COL := 0, PHASE := 1#4 } :=
  (p.nextRow_cases.resolve_left fun hlast => h hlast.1).2

theorem Packer.nextRow_of_eq {p : Packer} (h : p.ROW + 1 = p.H) :
    p.nextRow = { p with ROW := p.ROW + 1, COL := 0, PHASE := 5#4 } :=
  (p.nextRow_cases.resolve_right fun hmore => hmore.1 h).2

/-- The three ways in which a row ends, each by its condition. -/
theorem Packer.rowEnd_spec (p : Packer) :
    (p.BYTEPAD ≠ 0#2 → p.rowEnd = { p with PADCNT := p.BYTEPAD, PHASE := 4#4 }) ∧
    (p.BYTEPAD = 0#2 → p.ROW + 1 ≠ p.H →
      p.rowEnd = { p with PADCNT := 0, ROW := p.ROW + 1, COL := 0, PHASE := 1#4 }) ∧
    (p.BYTEPAD = 0#2 → p.ROW + 1 = p.H →
      p.rowEnd = { p with PADCNT := 0, ROW := p.ROW + 1, COL := 0, PHASE := 5#4 }) := by
  rcases p.rowEnd_cases with ⟨hpad, e⟩ | ⟨hpad, hrow, e⟩ | ⟨hpad, hrow, e⟩
  · exact ⟨fun _ => e, fun h => absurd h hpad, fun h => absurd h hpad⟩
  · exact ⟨fun h => absurd hpad h, fun _ h => absurd hrow h, fun _ _ => e⟩
  · exact ⟨fun h => absurd hpad h, fun _ _ => e, fun _ h => absurd h hrow⟩

end Sys2Proof.Machine
end

section
/-! The statements about the micro-operations of the packer, and about the termination of both units (41_packer). -/

namespace Sys2Proof.Machine

/-- Settles O30, token by token; a legal index leads to `Packer.accumulate`. -/
theorem pkAccumTakesOneIndex : Obligations.PkAccumTakesOneIndex := by
  refine ⟨rfl, fun s => ⟨fun c rest hq => execPkAccum_of_END hq, fun v rest hq hv => execPkAccum_of_le hq hv,
    fun v rest hq hv => ?_⟩⟩
  exact ⟨s.pk.accumulate v, execPkAccum_of_lt hq hv, rfl, assemble_toNat_eq_mod _ _ _, Packer.accumulate_PHASE_full,
    Packer.accumulate_PHASE_rowEnd, fun h => Packer.accumulate_PHASE_more h.1 h.2⟩

/-- Settles O32: the row goes on until `COL` is the width, then it ends as R165 says. -/
theorem pkEmitAppendsTheAccumulator : Obligations.PkEmitAppendsTheAccumulator := by
  refine ⟨rfl, fun s => ⟨_, rfl, fun hcol => if_neg hcol, ?_⟩⟩
  obtain ⟨hpad, hmore, hlast⟩ := s.pk.clearAcc.rowEnd_spec
  exact ⟨fun hcol h => (if_pos hcol).trans (hpad h), fun hcol h hrow => (if_pos hcol).trans (hmore h hrow),
    fun hcol h hrow => (if_pos hcol).trans (hlast h hrow)⟩

/-- Settles O33: the byte is the accumulator moved to the top, and the row ends as R165 says. -/
theorem pkFlushAppendsThePartialByte : Obligations.PkFlushAppendsThePartialByte :=
  ⟨rfl, fun s => ⟨_, _, rfl, alignTop_toNat _ _, s.pk.clearAcc.rowEnd_spec⟩⟩

/-- Settles O34: the count reaches 0 just when it was 1, and then the row is over. -/
theorem pkPadAppendsAZeroByte : Obligations.PkPadAppendsAZeroByte := by
  refine ⟨rfl, fun s => ⟨_, rfl, ?_⟩⟩
  have hzero : s.pk.PADCNT - 1 = 0#2 ↔ s.pk.PADCNT = 1#2 := sub_eq_zero
  refine ⟨fun h => if_neg (mt hzero.1 h), fun h hrow => ?_, fun h hrow => ?_⟩
  · rw [if_pos (hzero.2 h), hzero.2 h]
    exact Packer.nextRow_of_ne hrow
  · rw [if_pos (hzero.2 h), hzero.2 h]
    exact Packer.nextRow_of_eq hrow

/-- Settles O35: the four operations are the updates named. -/
theorem terminationClosesTheFrame : Obligations.TerminationClosesTheFrame :=
  ⟨rfl, rfl, rfl, rfl, fun _ => ⟨rfl, rfl, rfl, rfl⟩⟩

end Sys2Proof.Machine
end

section
/-! The micro-operations of the unpacker (R191 to R193): what the readers of a token do with the token at the head, what
`UP.EXTRACT` does with the index in the top bits, and where the unit stands after that index. -/

namespace Sys2Proof.Machine

/-! ### `UP.FETCH` and `UP.SKIP` by the token at the head (R191, R193) -/

theorem execUpFetch_of_END {s : State} {c : BitVec 4} {rest : List Token} (hq : s.inUp.queue = .END c :: rest) :
    execUpFetch s = .next { s with up := s.up.raiseFault E_TRUNC } := by
  simp only [execUpFetch, hq]

theorem execUpFetch_of_D {s : State} {b : Byte} {rest : List Token} (hq : s.inUp.queue = .D b :: rest) :
    execUpFetch s = .next { s with inUp := ⟨s.inUp.passed ++ [.D b], rest⟩, up := s.up.load b } := by
  simp only [execUpFetch, hq, Channel.pop_cons hq]

theorem execUpSkip_of_END {s : State} {c : BitVec 4} {rest : List Token} (hq : s.inUp.queue = .END c :: rest) :
    execUpSkip s = .next { s with up := s.up.raiseFault E_TRUNC } := by
  simp only [execUpSkip, hq]

theorem execUpSkip_of_D {s : State} {b : Byte} {rest : List Token} (hq : s.inUp.queue = .D b :: rest) :
    execUpSkip s = .next { s with inUp := ⟨s.inUp.passed ++ [.D b], rest⟩, up := s.up.skipByte } := by
  simp only [execUpSkip, hq, Channel.pop_cons hq]

/-! ### `UP.EXTRACT` by the index in the top bits (R192) -/

theorem topIndex_toNat (s : BitVec 4) (shreg : Byte) :
    (topIndex s shreg).toNat = shreg.toNat / 2 ^ (8 - s.toNat) := by
  rw [topIndex, BitVec.toNat_ushiftRight, Nat.shiftRight_eq_div_pow]

theorem shiftOut_toNat (s : BitVec 4) (shreg : Byte) : (shiftOut s shreg).toNat = (shreg.toNat <<< s.toNat) % 256 :=
  BitVec.toNat_shiftLeft

theorem execUpExtract_of_le {s : State} (hp : s.up.P ≤ (topIndex s.up.S s.up.SHREG).toNat) :
    execUpExtract s = .next { s with up := s.up.raiseFault E_DECODE } := by
  simp [execUpExtract, indexInPalette, Nat.not_lt.2 hp]

theorem execUpExtract_of_lt {s : State} (hp : (topIndex s.up.S s.up.SHREG).toNat < s.up.P) :
    execUpExtract s =
      .next { s with outUp := s.outUp.push (.D (topIndex s.up.S s.up.SHREG)), up := s.up.advance } := by
  simp [execUpExtract, indexInPalette, hp]

/-! ### Where the unit stands after an index (R192) -/

theorem Unpacker.advance_frame (p : Unpacker) :
    p.advance = { p with SHREG := shiftOut p.S p.SHREG, BITCNT := p.BITCNT + p.S, COL := p.advance.COL,
                         ROW := p.advance.ROW, PADCNT := p.advance.PADCNT, PHASE := p.advance.PHASE } := by
  rcases p.advance_cases with ⟨-, -, e⟩ | ⟨-, -, e⟩ | ⟨-, -, e⟩ | ⟨-, -, -, e⟩ | ⟨-, -, -, e⟩ <;> rw [e]

theorem Unpacker.advance_SHREG (p : Unpacker) : p.advance.SHREG = shiftOut p.S p.SHREG := by
  rw [p.advance_frame]

/-- Within a row the unit goes on in the byte, or to the next one when the byte is used up. -/
theorem Unpacker.advance_within_row {p : Unpacker} (hcol : p.COL + 1 ≠ p.W) :
    p.advance.COL = p.COL + 1 ∧ p.advance.ROW = p.ROW ∧ p.advance.PADCNT = p.PADCNT ∧
    (p.advance.BITCNT.toNat = 8 → p.advance.PHASE = 1#4) ∧ (p.advance.BITCNT.toNat ≠ 8 → p.advance.PHASE = 2#4) := by
  rcases p.advance_cases with ⟨-, h8, e⟩ | ⟨-, h8, e⟩ | ⟨h, -⟩ | ⟨h, -⟩ | ⟨h, -⟩
  · rw [e]; exact ⟨rfl, rfl, rfl, fun _ => rfl, fun h => absurd (congrArg BitVec.toNat h8) h⟩
  · rw [e]; exact ⟨rfl, rfl, rfl, fun h => absurd (BitVec.eq_of_toNat_eq h) h8, fun _ => rfl⟩
  all_goals exact absurd h hcol

/-- At the end of a row the transform is over, or the padding of the row comes next, or the next row if there is none. -/
theorem Unpacker.advance_row_end {p : Unpacker} (hcol : p.COL + 1 = p.W) :
    p.advance.COL = 0 ∧ p.advance.ROW = p.ROW + 1 ∧
    (p.advance.ROW = p.H → p.advance.PADCNT = p.PADCNT ∧ p.advance.PHASE = 5#4) ∧
    (p.advance.ROW ≠ p.H → p.advance.PADCNT = p.BYTEPAD ∧ (p.BYTEPAD = 0#2 → p.advance.PHASE = 1#4) ∧
      (p.BYTEPAD ≠ 0#2 → p.advance.PHASE = 3#4)) := by
  rcases p.advance_cases with ⟨h, -⟩ | ⟨h, -⟩ | ⟨-, hrow, e⟩ | ⟨-, hrow, hpad, e⟩ | ⟨-, hrow, hpad, e⟩
  · exact absurd hcol h
  · exact absurd hcol h
  · rw [e]; exact ⟨rfl, rfl, fun _ => ⟨rfl, rfl⟩, fun h => absurd hrow h⟩
  · rw [e]; exact ⟨rfl, rfl, fun h => absurd h hrow, fun _ => ⟨rfl, fun _ => rfl, fun h => absurd hpad h⟩⟩
  · rw [e]; exact ⟨rfl, rfl, fun h => absurd h hrow, fun _ => ⟨rfl, fun h => absurd h hpad, fun _ => rfl⟩⟩

end Sys2Proof.Machine
end

section
/-! The statements about the micro-operations of the unpacker (42_unpacker). -/

namespace Sys2Proof.Machine

/-- Settles O38: the index is `topIndex`, one outside the palette faults, and one inside leads to `Unpacker.advance`. -/
theorem upExtractGivesOutOneIndex : Obligations.UpExtractGivesOutOneIndex := by
  refine ⟨rfl, fun s ix hix => ?_⟩
  rw [← topIndex_toNat] at hix
  subst hix
  refine ⟨fun hp => execUpExtract_of_le hp, fun hp => ⟨s.up.advance, ?_, ?_, ?_, Unpacker.advance_within_row,
    Unpacker.advance_row_end⟩⟩
  · rw [BitVec.ofNat_toNat, BitVec.setWidth_eq]
    exact execUpExtract_of_lt hp
  · rw [Unpacker.advance_SHREG]
    exact s.up.advance_frame
  · rw [Unpacker.advance_SHREG, shiftOut_toNat]

/-- Settles O37, token by token; a byte leads to `Unpacker.load`. -/
theorem upFetchTakesOneByte : Obligations.UpFetchTakesOneByte :=
  ⟨rfl, fun _ => ⟨fun _ _ hq => execUpFetch_of_END hq, fun _ _ hq => execUpFetch_of_D hq⟩⟩

/-- Settles O39, token by token; a byte leads to `Unpacker.skipByte`, which looks at the count only. -/
theorem upSkipDiscardsOneByte : Obligations.UpSkipDiscardsOneByte :=
  ⟨rfl, fun s => ⟨fun _ _ hq => execUpSkip_of_END hq, fun _ _ hq =>
    ⟨s.up.skipByte, execUpSkip_of_D hq, rfl, fun h => if_pos h, fun h => if_neg h⟩⟩⟩

end Sys2Proof.Machine
end

section
/-! Fault entry and the fault state (R224, R227): which operations take a unit into `FAILTERM`, with what they write, and
that in `FAILTERM` and `ERR` an operation that may run keeps the fault, unless it is `RESET`. -/

namespace Sys2Proof.Machine

/-- An operation of `UP` leaves the registers of `PK` (R77). -/
theorem exec_keeps_pk {i : Instr} {s t : State} (hu : unitOf i = .UP) (he : exec i s = .next t) : t.pk = s.pk := by
  have h := exec_frame he
  rw [hu] at h
  exact (congrArg State.pk h).trans rfl

/-- An operation of `PK` leaves the registers of `UP` (R77). -/
theorem exec_keeps_up {i : Instr} {s t : State} (hu : unitOf i = .PK) (he : exec i s = .next t) : t.up = s.up := by
  have h := exec_frame he
  rw [hu] at h
  exact (congrArg State.up h).trans rfl

/-! ### The ways into `FAILTERM` (R224) -/

theorem Packer.start_enters_failterm {p : Packer} (h : p.PHASE ≠ 7#4) (hs : p.start.PHASE = 7#4) :
    p.configLegal = false ∧ p.start = p.raiseFault E_CFG := by
  rcases p.start_cases with ⟨-, -, e⟩ | ⟨-, hc, e⟩ | ⟨-, e⟩
  · simp [e] at hs
  · exact ⟨hc, e⟩
  · exact absurd (by simpa [e] using hs) h

theorem Unpacker.start_enters_failterm {p : Unpacker} (h : p.PHASE ≠ 7#4) (hs : p.start.PHASE = 7#4) :
    p.configLegal = false ∧ p.start = p.raiseFault E_CFG := by
  rcases p.start_cases with ⟨-, -, e⟩ | ⟨-, hc, e⟩ | ⟨-, e⟩
  · simp [e] at hs
  · exact ⟨hc, e⟩
  · exact absurd (by simpa [e] using hs) h

theorem Packer.accumulate_PHASE_ne_failterm (p : Packer) (v : Byte) : (p.accumulate v).PHASE ≠ 7#4 := by
  rcases p.accumulate_phase v with e | e | e <;> simp [e]

theorem Packer.rowEnd_PHASE_ne_failterm (p : Packer) : p.rowEnd.PHASE ≠ 7#4 := by
  rcases p.rowEnd_phase with e | e | e <;> simp [e]

theorem Packer.nextRow_PHASE_ne_failterm (p : Packer) : p.nextRow.PHASE ≠ 7#4 := by
  rcases p.nextRow_phase with e | e <;> simp [e]

theorem Unpacker.advance_PHASE_ne_failterm (p : Unpacker) : p.advance.PHASE ≠ 7#4 := by
  rcases p.advance_phase with e | e | e | e <;> simp [e]

theorem Unpacker.skipByte_PHASE_ne_failterm (p : Unpacker) : p.skipByte.PHASE ≠ 7#4 := by
  rcases p.skipByte_phase with e | e <;> simp [e]

theorem execPkEmit_PHASE_ne_failterm {s t : State} (he : execPkEmit s = .next t) : t.pk.PHASE ≠ 7#4 := by
  cases he
  dsimp only
  split
  · exact Packer.rowEnd_PHASE_ne_failterm _
  · simp

theorem execPkPad_PHASE_ne_failterm {s t : State} (he : execPkPad s = .next t) : t.pk.PHASE ≠ 7#4 := by
  cases he
  dsimp only
  split
  · exact Packer.nextRow_PHASE_ne_failterm _
  · simp

/-- Every way in which an operation takes `PK` into `FAILTERM` is fault entry, for one of three causes (R221, R224). -/
theorem exec_pk_enters_failterm {i : Instr} {s t : State} (he : exec i s = .next t) (hs : s.pk.PHASE ≠ 7#4)
    (ht : t.pk.PHASE = 7#4) :
    (i = .pkStart ∧ s.pk.configLegal = false ∧ t = { s with pk := s.pk.raiseFault E_CFG }) ∨
    (i = .pkAccum ∧ ∃ v rest, s.inPk.queue = .D v :: rest ∧ 2 ^ s.pk.S.toNat ≤ v.toNat ∧
      t = { s with inPk := ⟨s.inPk.passed ++ [.D v], rest⟩, pk := s.pk.raiseFault E_RANGE }) ∨
    (i = .pkAccum ∧ ∃ c rest, s.inPk.queue = .END c :: rest ∧ t = { s with pk := s.pk.raiseFault E_TRUNC }) := by
  cases hu : unitOf i with
  | UP => exact absurd (exec_keeps_pk hu he ▸ ht) hs
  | PK =>
    cases i
    case pkStart =>
      cases he
      obtain ⟨hc, e⟩ := Packer.start_enters_failterm hs ht
      exact .inl ⟨rfl, hc, by rw [e]⟩
    case pkAccum =>
      rcases execPkAccum_cases he with ⟨-, rfl⟩ | ⟨c, rest, hq, e⟩ | ⟨v, rest, hq, hv, e⟩ | ⟨v, rest, -, -, rfl⟩
      · exact absurd ht hs
      · exact .inr (.inr ⟨rfl, c, rest, hq, e⟩)
      · exact .inr (.inl ⟨rfl, v, rest, hq, hv, e⟩)
      · exact absurd ht (Packer.accumulate_PHASE_ne_failterm _ _)
    case pkEmit => exact absurd ht (execPkEmit_PHASE_ne_failterm he)
    case pkFlush => cases he; exact absurd ht (Packer.rowEnd_PHASE_ne_failterm _)
    case pkPad => exact absurd ht (execPkPad_PHASE_ne_failterm he)
    case pkReset | pkOkterm | pkFailterm => cases he; exact absurd ht (by simp)
    case pkNop | pkCmdIllegal | pkWrWidth | pkWrHeight | pkWrDepth | pkWrIgnored | pkRd | pkIdle | pkDone | pkErr =>
      cases he; exact absurd ht hs
    all_goals cases hu

/-- Every way in which an operation takes `UP` into `FAILTERM` is fault entry, for one of three causes (R221, R224). -/
theorem exec_up_enters_failterm {i : Instr} {s t : State} (he : exec i s = .next t) (hs : s.up.PHASE ≠ 7#4)
    (ht : t.up.PHASE = 7#4) :
    (i = .upStart ∧ s.up.configLegal = false ∧ t = { s with up := s.up.raiseFault E_CFG }) ∨
    (i = .upExtract ∧ s.up.P ≤ (topIndex s.up.S s.up.SHREG).toNat ∧
      t = { s with up := s.up.raiseFault E_DECODE }) ∨
    ((i = .upFetch ∨ i = .upSkip) ∧ ∃ c rest, s.inUp.queue = .END c :: rest ∧
      t = { s with up := s.up.raiseFault E_TRUNC }) := by
  cases hu : unitOf i with
  | PK => exact absurd (exec_keeps_up hu he ▸ ht) hs
  | UP =>
    cases i
    case upStart =>
      cases he
      obtain ⟨hc, e⟩ := Unpacker.start_enters_failterm hs ht
      exact .inl ⟨rfl, hc, by rw [e]⟩
    case upExtract =>
      rcases execUpExtract_cases he with ⟨hp, e⟩ | ⟨-, rfl⟩
      · exact .inr (.inl ⟨rfl, hp, e⟩)
      · exact absurd ht (Unpacker.advance_PHASE_ne_failterm _)
    case upFetch =>
      rcases execUpFetch_cases he with ⟨-, rfl⟩ | ⟨c, rest, hq, e⟩ | ⟨b, rest, -, rfl⟩
      · exact absurd ht hs
      · exact .inr (.inr ⟨.inl rfl, c, rest, hq, e⟩)
      · exact absurd ht (by simp [Unpacker.load])
    case upSkip =>
      rcases execUpSkip_cases he with ⟨-, rfl⟩ | ⟨c, rest, hq, e⟩ | ⟨b, rest, -, rfl⟩
      · exact absurd ht hs
      · exact .inr (.inr ⟨.inr rfl, c, rest, hq, e⟩)
      · exact absurd ht (Unpacker.skipByte_PHASE_ne_failterm _)
    case upReset | upOkterm | upFailterm => cases he; exact absurd ht (by simp)
    case upNop | upCmdIllegal | upWrWidth | upWrHeight | upWrDepth | upWrPalLen | upWrIgnored | upRd | upIdle | upDone |
      upErr => cases he; exact absurd ht hs
    all_goals cases hu

/-! ### In the fault state (R227) -/

theorem UnitRegs.startAccepted_of_fault {r : UnitRegs} (h : r.PHASE = 7#4 ∨ r.PHASE = 8#4) :
    r.startAccepted = false := by
  rcases h with h | h <;> simp [UnitRegs.startAccepted, h]

/-- `PK` in the fault state takes no step but `FAILTERM` and that of `ERR` (R107). -/
theorem selected_in_pk_fault {i : Instr} {s : State} (hs : Selected i s) (hu : unitOf i = .PK)
    (hp : s.pk.PHASE = 7#4 ∨ s.pk.PHASE = 8#4) : isHostOp i = true ∨ i = .pkFailterm ∨ i = .pkErr := by
  rcases hs with hs | hs
  · exact .inl hs
  · rw [hu] at hs
    rcases hp with hp | hp <;> rw [State.phaseOf_pk, hp] at hs <;> cases hs
    · exact .inr (.inl rfl)
    · exact .inr (.inr rfl)

/-- `UP` in the fault state takes no step but `FAILTERM` and that of `ERR` (R107). -/
theorem selected_in_up_fault {i : Instr} {s : State} (hs : Selected i s) (hu : unitOf i = .UP)
    (hp : s.up.PHASE = 7#4 ∨ s.up.PHASE = 8#4) : isHostOp i = true ∨ i = .upFailterm ∨ i = .upErr := by
  rcases hs with hs | hs
  · exact .inl hs
  · rw [hu] at hs
    rcases hp with hp | hp <;> rw [State.phaseOf_up, hp] at hs <;> cases hs
    · exact .inr (.inl rfl)
    · exact .inr (.inr rfl)

/-- No host operation but `RESET` changes the phase or the code of `PK` in the fault state. -/
theorem exec_hostOp_keeps_pk_fault {i : Instr} {s t : State} (hh : isHostOp i = true) (hi : i ≠ .pkReset)
    (hp : s.pk.PHASE = 7#4 ∨ s.pk.PHASE = 8#4) (he : exec i s = .next t) :
    t.pk.PHASE = s.pk.PHASE ∧ t.pk.ERRCODE = s.pk.ERRCODE := by
  cases i <;> simp only [isHostOp, Bool.false_eq_true] at hh
  case pkReset => exact absurd rfl hi
  case pkStart =>
    cases he
    rw [Packer.start_eq_illegalCommand (UnitRegs.startAccepted_of_fault hp)]
    exact ⟨rfl, rfl⟩
  all_goals cases he; exact ⟨rfl, rfl⟩

/-- No host operation but `RESET` changes the phase or the code of `UP` in the fault state. -/
theorem exec_hostOp_keeps_up_fault {i : Instr} {s t : State} (hh : isHostOp i = true) (hi : i ≠ .upReset)
    (hp : s.up.PHASE = 7#4 ∨ s.up.PHASE = 8#4) (he : exec i s = .next t) :
    t.up.PHASE = s.up.PHASE ∧ t.up.ERRCODE = s.up.ERRCODE := by
  cases i <;> simp only [isHostOp, Bool.false_eq_true] at hh
  case upReset => exact absurd rfl hi
  case upStart =>
    cases he
    rw [Unpacker.start_eq_illegalCommand (UnitRegs.startAccepted_of_fault hp)]
    exact ⟨rfl, rfl⟩
  all_goals cases he; exact ⟨rfl, rfl⟩

/-- `PK` stays in the fault state with its code over every operation that may run there, unless it is its `RESET`. -/
theorem exec_keeps_pk_fault {i : Instr} {s t : State} (hs : Selected i s) (hi : i ≠ .pkReset)
    (hp : s.pk.PHASE = 7#4 ∨ s.pk.PHASE = 8#4) (he : exec i s = .next t) :
    (t.pk.PHASE = 7#4 ∨ t.pk.PHASE = 8#4) ∧ t.pk.ERRCODE = s.pk.ERRCODE := by
  cases hu : unitOf i with
  | UP => rw [exec_keeps_pk hu he]; exact ⟨hp, rfl⟩
  | PK =>
    rcases selected_in_pk_fault hs hu hp with hh | rfl | rfl
    · obtain ⟨hphase, hcode⟩ := exec_hostOp_keeps_pk_fault hh hi hp he
      exact ⟨hphase ▸ hp, hcode⟩
    · cases he; exact ⟨.inr rfl, rfl⟩
    · cases he; exact ⟨hp, rfl⟩

/-- `UP` stays in the fault state with its code over every operation that may run there, unless it is its `RESET`. -/
theorem exec_keeps_up_fault {i : Instr} {s t : State} (hs : Selected i s) (hi : i ≠ .upReset)
    (hp : s.up.PHASE = 7#4 ∨ s.up.PHASE = 8#4) (he : exec i s = .next t) :
    (t.up.PHASE = 7#4 ∨ t.up.PHASE = 8#4) ∧ t.up.ERRCODE = s.up.ERRCODE := by
  cases hu : unitOf i with
  | PK => rw [exec_keeps_up hu he]; exact ⟨hp, rfl⟩
  | UP =>
    rcases selected_in_up_fault hs hu hp with hh | rfl | rfl
    · obtain ⟨hphase, hcode⟩ := exec_hostOp_keeps_up_fault hh hi hp he
      exact ⟨hphase ▸ hp, hcode⟩
    · cases he; exact ⟨.inr rfl, rfl⟩
    · cases he; exact ⟨hp, rfl⟩

end Sys2Proof.Machine
end

section
/-! The statements about faults (60_exceptions). -/

namespace Sys2Proof.Machine

/-- Settles O40: the ways into `FAILTERM` are all fault entry, which writes the code and the phase. -/
theorem faultEntryWritesCodeAndPhaseOnly : Obligations.FaultEntryWritesCodeAndPhaseOnly := by
  refine fun i s t he => ⟨fun hs ht => ?_, fun hs ht => ?_⟩
  · rcases exec_pk_enters_failterm he hs ht with
      ⟨-, -, rfl⟩ | ⟨rfl, v, rest, hq, -, rfl⟩ | ⟨-, _, _, -, rfl⟩
    · exact ⟨by simp, by simp, rfl, rfl, .inl rfl, rfl, rfl, rfl⟩
    · exact ⟨by simp, by simp, rfl, rfl, .inr ⟨rfl, rfl, v, rest, hq, rfl⟩, rfl, rfl, rfl⟩
    · exact ⟨by simp, by simp, rfl, rfl, .inl rfl, rfl, rfl, rfl⟩
  · rcases exec_up_enters_failterm he hs ht with ⟨-, -, rfl⟩ | ⟨-, -, rfl⟩ | ⟨-, _, _, -, rfl⟩ <;>
      exact ⟨by simp, by simp, rfl, rfl, rfl, rfl, rfl⟩

/-- Settles O42: the fault is kept by every operation but `RESET`, which clears it, and a refused `START` is the illegal
command. -/
theorem onlyResetLeavesAFault : Obligations.OnlyResetLeavesAFault := by
  refine fun i s t hsel he =>
    ⟨fun hp => ⟨fun hi => exec_keeps_pk_fault hsel hi hp he, ?_, ?_⟩,
     fun hp => ⟨fun hi => exec_keeps_up_fault hsel hi hp he, ?_, ?_⟩⟩
  · rintro rfl; cases he; exact ⟨rfl, rfl⟩
  · rintro rfl
    cases he
    rw [Packer.start_eq_illegalCommand (UnitRegs.startAccepted_of_fault hp)]
    rfl
  · rintro rfl; cases he; exact ⟨rfl, rfl⟩
  · rintro rfl
    cases he
    rw [Unpacker.start_eq_illegalCommand (UnitRegs.startAccepted_of_fault hp)]
    rfl

end Sys2Proof.Machine
end

section
/-! The decoder and the encoder (R101, R102, R106, R107): every operation goes round, what a write decodes to encodes back,
and the phase codes that select no micro-operation are the reserved ones (R108). -/

namespace Sys2Proof.Laws.RoundTrip

/-- Every operation goes round, by its own lemma. -/
theorem all : ∀ i : Instr, Statement i
  | .pkNop => pkNop
  | .pkStart => pkStart
  | .pkReset => pkReset
  | .pkCmdIllegal d => pkCmdIllegal d
  | .pkWrWidth v => pkWrWidth v
  | .pkWrHeight v => pkWrHeight v
  | .pkWrDepth v => pkWrDepth v
  | .pkWrIgnored reg v => pkWrIgnored reg v
  | .pkRd reg => pkRd reg
  | .upNop => upNop
  | .upStart => upStart
  | .upReset => upReset
  | .upCmdIllegal d => upCmdIllegal d
  | .upWrWidth v => upWrWidth v
  | .upWrHeight v => upWrHeight v
  | .upWrDepth v => upWrDepth v
  | .upWrPalLen v => upWrPalLen v
  | .upWrIgnored reg v => upWrIgnored reg v
  | .upRd reg => upRd reg
  | .pkAccum => pkAccum
  | .pkEmit => pkEmit
  | .pkFlush => pkFlush
  | .pkPad => pkPad
  | .pkOkterm => pkOkterm
  | .pkFailterm => pkFailterm
  | .upFetch => upFetch
  | .upExtract => upExtract
  | .upSkip => upSkip
  | .upOkterm => upOkterm
  | .upFailterm => upFailterm
  | .pkIdle => pkIdle
  | .pkDone => pkDone
  | .pkErr => pkErr
  | .upIdle => upIdle
  | .upDone => upDone
  | .upErr => upErr

end Sys2Proof.Laws.RoundTrip

namespace Sys2Proof.Machine

/-! ### What a descriptor decodes to -/

theorem encode_decodePkCommand (v : Nat) : encode (decodePkCommand v) = .hostop (descriptor .PK true 0#6 v) := by
  match v with
  | 0 | 1 | 2 => rfl
  | v + 3 => rw [decodePkCommand_illegal (decide_eq_true (Nat.le_add_left 3 v))]; rfl

theorem encode_decodeUpCommand (v : Nat) : encode (decodeUpCommand v) = .hostop (descriptor .UP true 0#6 v) := by
  match v with
  | 0 | 1 | 2 => rfl
  | v + 3 => rw [decodeUpCommand_illegal (decide_eq_true (Nat.le_add_left 3 v))]; rfl

theorem wellFormed_decodePkCommand {regw v : Nat} (hv : v < 2 ^ regw) : (decodePkCommand v).wellFormed regw = true := by
  match v with
  | 0 | 1 | 2 => rfl
  | v + 3 =>
    have h3 : illegalCommandWord (v + 3) = true := decide_eq_true (Nat.le_add_left 3 v)
    rw [decodePkCommand_illegal h3]
    exact Bool.and_eq_true_iff.2 ⟨decide_eq_true hv, h3⟩

theorem wellFormed_decodeUpCommand {regw v : Nat} (hv : v < 2 ^ regw) : (decodeUpCommand v).wellFormed regw = true := by
  match v with
  | 0 | 1 | 2 => rfl
  | v + 3 =>
    have h3 : illegalCommandWord (v + 3) = true := decide_eq_true (Nat.le_add_left 3 v)
    rw [decodeUpCommand_illegal h3]
    exact Bool.and_eq_true_iff.2 ⟨decide_eq_true hv, h3⟩

/-- The five kinds of register that a write to `PK` can name (R106). -/
theorem decodePkWrite_cases (reg : BitVec 6) (v : Nat) :
    (reg = 0#6 ∧ decodePkWrite reg v = decodePkCommand v) ∨ (reg = 2#6 ∧ decodePkWrite reg v = .pkWrWidth v) ∨
    (reg = 3#6 ∧ decodePkWrite reg v = .pkWrHeight v) ∨ (reg = 4#6 ∧ decodePkWrite reg v = .pkWrDepth v) ∨
    (ignoredReg .PK reg = true ∧ decodePkWrite reg v = .pkWrIgnored reg v) := by
  unfold decodePkWrite
  split_ifs with h0 h2 h3 h4
  · exact .inl ⟨h0, rfl⟩
  · exact .inr (.inl ⟨h2, rfl⟩)
  · exact .inr (.inr (.inl ⟨h3, rfl⟩))
  · exact .inr (.inr (.inr (.inl ⟨h4, rfl⟩)))
  · exact .inr (.inr (.inr (.inr ⟨ignoredReg_pk (by simp [BitVec.toNat_eq] at *; omega), rfl⟩)))

/-- The six kinds of register that a write to `UP` can name (R106). -/
theorem decodeUpWrite_cases (reg : BitVec 6) (v : Nat) :
    (reg = 0#6 ∧ decodeUpWrite reg v = decodeUpCommand v) ∨ (reg = 2#6 ∧ decodeUpWrite reg v = .upWrWidth v) ∨
    (reg = 3#6 ∧ decodeUpWrite reg v = .upWrHeight v) ∨ (reg = 4#6 ∧ decodeUpWrite reg v = .upWrDepth v) ∨
    (reg = 5#6 ∧ decodeUpWrite reg v = .upWrPalLen v) ∨
    (ignoredReg .UP reg = true ∧ decodeUpWrite reg v = .upWrIgnored reg v) := by
  unfold decodeUpWrite
  split_ifs with h0 h2 h3 h4 h5
  · exact .inl ⟨h0, rfl⟩
  · exact .inr (.inl ⟨h2, rfl⟩)
  · exact .inr (.inr (.inl ⟨h3, rfl⟩))
  · exact .inr (.inr (.inr (.inl ⟨h4, rfl⟩)))
  · exact .inr (.inr (.inr (.inr (.inl ⟨h5, rfl⟩))))
  · exact .inr (.inr (.inr (.inr (.inr ⟨ignoredReg_up (by simp [BitVec.toNat_eq] at *; omega), rfl⟩))))

/-- What a write to `PK` decodes to is well formed and encodes back. -/
theorem decodePkWrite_roundTrip {regw v : Nat} (reg : BitVec 6) (hv : v < 2 ^ regw) :
    (decodePkWrite reg v).wellFormed regw = true ∧
    encode (decodePkWrite reg v) = .hostop (descriptor .PK true reg v) := by
  rcases decodePkWrite_cases reg v with ⟨rfl, e⟩ | ⟨rfl, e⟩ | ⟨rfl, e⟩ | ⟨rfl, e⟩ | ⟨hreg, e⟩ <;> rw [e]
  · exact ⟨wellFormed_decodePkCommand hv, encode_decodePkCommand v⟩
  · exact ⟨decide_eq_true hv, rfl⟩
  · exact ⟨decide_eq_true hv, rfl⟩
  · exact ⟨decide_eq_true hv, rfl⟩
  · exact ⟨Bool.and_eq_true_iff.2 ⟨decide_eq_true hv, hreg⟩, rfl⟩

/-- What a write to `UP` decodes to is well formed and encodes back. -/
theorem decodeUpWrite_roundTrip {regw v : Nat} (reg : BitVec 6) (hv : v < 2 ^ regw) :
    (decodeUpWrite reg v).wellFormed regw = true ∧
    encode (decodeUpWrite reg v) = .hostop (descriptor .UP true reg v) := by
  rcases decodeUpWrite_cases reg v with ⟨rfl, e⟩ | ⟨rfl, e⟩ | ⟨rfl, e⟩ | ⟨rfl, e⟩ | ⟨rfl, e⟩ | ⟨hreg, e⟩ <;> rw [e]
  · exact ⟨wellFormed_decodeUpCommand hv, encode_decodeUpCommand v⟩
  · exact ⟨decide_eq_true hv, rfl⟩
  · exact ⟨decide_eq_true hv, rfl⟩
  · exact ⟨decide_eq_true hv, rfl⟩
  · exact ⟨decide_eq_true hv, rfl⟩
  · exact ⟨Bool.and_eq_true_iff.2 ⟨decide_eq_true hv, hreg⟩, rfl⟩

/-- What a descriptor decodes to is well formed, and encodes back unless it is a read with a data word (log 15). -/
theorem decodeHostOp_roundTrip {regw : Nat} {d : Descriptor} (hd : d.D < 2 ^ regw) :
    (decodeHostOp d).wellFormed regw = true ∧
    (d.isWrite = true ∨ d.D = 0 → encode (decodeHostOp d) = .hostop d) := by
  rw [← descriptor_fields d]
  generalize d.unit = u, d.isWrite = wr, d.reg = reg
  rw [decodeHostOp_descriptor, isWrite_descriptor, D_descriptor]
  match u, wr with
  | .PK, true => exact ⟨(decodePkWrite_roundTrip reg hd).1, fun _ => (decodePkWrite_roundTrip reg hd).2⟩
  | .UP, true => exact ⟨(decodeUpWrite_roundTrip reg hd).1, fun _ => (decodeUpWrite_roundTrip reg hd).2⟩
  | .PK, false =>
    refine ⟨rfl, fun h => ?_⟩
    obtain h0 : d.D = 0 := h.resolve_left (by decide)
    rw [h0]; rfl
  | .UP, false =>
    refine ⟨rfl, fun h => ?_⟩
    obtain h0 : d.D = 0 := h.resolve_left (by decide)
    rw [h0]; rfl

/-- A number of `8 + regw` bits is the bits of the descriptor read from it. -/
theorem bits_ofBits {regw x : Nat} (hx : x < 2 ^ (8 + regw)) : (Descriptor.ofBits regw x).bits regw = x := by
  have hA : x / 2 ^ regw < 2 ^ 8 := Nat.div_lt_of_lt_mul (by rwa [← Nat.pow_add, Nat.add_comm])
  rw [Descriptor.bits, Descriptor.ofBits, BitVec.toNat_ofNat, Nat.mod_eq_of_lt hA, Nat.mul_comm]
  exact Nat.div_add_mod x _

/-! ### What a phase code selects -/

/-- What a phase code decodes to is well formed and encodes back (R107). -/
theorem decode_phase_roundTrip {regw : Nat} {u : UnitId} {p : PhaseCode} {i : Instr}
    (h : decode (.phase u p) = .ok i) : i.wellFormed regw = true ∧ encode i = .phase u p := by
  cases u with
  | PK =>
    rcases decode_phase_pk h with ⟨rfl, rfl⟩ | ⟨rfl, rfl⟩ | ⟨rfl, rfl⟩ | ⟨rfl, rfl⟩ | ⟨rfl, rfl⟩ | ⟨rfl, rfl⟩ |
      ⟨rfl, rfl⟩ | ⟨rfl, rfl⟩ | ⟨rfl, rfl⟩ <;> exact ⟨rfl, rfl⟩
  | UP =>
    rcases decode_phase_up h with ⟨rfl, rfl⟩ | ⟨rfl, rfl⟩ | ⟨rfl, rfl⟩ | ⟨rfl, rfl⟩ | ⟨rfl, rfl⟩ | ⟨rfl, rfl⟩ |
      ⟨rfl, rfl⟩ | ⟨rfl, rfl⟩ <;> exact ⟨rfl, rfl⟩

/-- The phase codes that no rule writes: 9 to 15, and 4 in `UP` (R108). -/
def ReservedPhase (u : UnitId) (p : PhaseCode) : Prop := 9 ≤ p.toNat ∨ (u = .UP ∧ p.toNat = 4)

/-- A phase code decodes to an operation, or it is reserved and named in the error (R107, R108). -/
theorem decode_phase_cases (u : UnitId) (p : PhaseCode) :
    (¬ ReservedPhase u p ∧ ∃ i, decode (.phase u p) = .ok i) ∨
    (ReservedPhase u p ∧ decode (.phase u p) = .error (.reservedPhase u p)) := by
  unfold ReservedPhase
  cases u with
  | PK =>
    simp only [decode, decodePkPhase, reduceCtorEq, false_and, or_false]
    split
    case h_10 =>
      refine .inr ⟨?_, rfl⟩
      simp only [imp_false] at *
      omega
    all_goals exact .inl ⟨by omega, _, rfl⟩
  | UP =>
    simp only [decode, decodeUpPhase, true_and]
    split
    case h_9 =>
      refine .inr ⟨?_, rfl⟩
      simp only [imp_false] at *
      omega
    all_goals exact .inl ⟨by omega, _, rfl⟩

theorem decode_phase_reserved {u : UnitId} {p : PhaseCode} (h : ReservedPhase u p) :
    decode (.phase u p) = .error (.reservedPhase u p) :=
  ((decode_phase_cases u p).resolve_left fun hn => hn.1 h).2

theorem decode_phase_ok {u : UnitId} {p : PhaseCode} (h : ¬ ReservedPhase u p) :
    ∃ i, decode (.phase u p) = .ok i :=
  ((decode_phase_cases u p).resolve_right fun hr => h hr.1).2

end Sys2Proof.Machine
end

section
/-! The other statements about the encoding (30_encoding). -/

namespace Sys2Proof.Machine

/-- Settles O1, operation by operation. -/
theorem decodeInvertsEncode : Obligations.DecodeInvertsEncode :=
  fun regw i hr hi => Laws.RoundTrip.all i regw hr hi

/-- Settles O2: a descriptor is its four fields, and each kind of register it can name encodes back. -/
theorem encodeInvertsDecode : Obligations.EncodeInvertsDecode :=
  ⟨fun _ _ hd => decodeHostOp_roundTrip hd, fun _ _ hx => bits_ofBits hx, fun _ _ _ _ h => decode_phase_roundTrip h⟩

/-- Settles O5: the seventeen codes are evaluated, the reserved ones are those that are left. -/
theorem phaseCodeSelectsTheMicroOperation : Obligations.PhaseCodeSelectsTheMicroOperation :=
  ⟨rfl, rfl, rfl, rfl, rfl, rfl, rfl, rfl, rfl, rfl, rfl, rfl, rfl, rfl, rfl, rfl, rfl,
    fun _ _ h => decode_phase_reserved h⟩

/-- Settles O6, by evaluating the decoder on the words. -/
theorem writtenOutWordsDecode : Obligations.WrittenOutWordsDecode := by
  unfold Obligations.WrittenOutWordsDecode
  decide

end Sys2Proof.Machine
end

section
/-! The step, move by move (R7, R107): what each kind of move does, when a step is refused, and a word of the table placed
where the next step fetches it. -/

namespace Sys2Proof.Machine

/-! ### The next move (log 2, log 3) -/

theorem State.nextMove_of_cons {s : State} {m : Move} {rest : List Move} (h : s.agenda = m :: rest) :
    s.nextMove = (m, { s with agenda := rest }) := by
  rw [State.nextMove, h]

theorem State.nextMove_of_nil {s : State} (h : s.agenda = []) :
    s.nextMove = (.microOp s.turn, { s with turn := s.turn.other }) := by
  rw [State.nextMove, h]

@[simp] theorem State.nextMove_phaseOf (s : State) (u : UnitId) : s.nextMove.2.phaseOf u = s.phaseOf u := by
  cases u <;> simp

/-! ### A step by its move -/

theorem step_of_fetch {s : State} {c : Code} {i : Instr} (hf : fetch s.nextMove.1 s.nextMove.2 = some c)
    (hd : decode c = .ok i) : step s = exec i s.nextMove.2 := by
  simp only [step, hf, hd]

theorem step_of_host {s : State} {d : Descriptor} {rest : List Move} {i : Instr} (h : s.agenda = .host d :: rest)
    (hd : decode (.hostop (d.atWidth s.cfg.REGW)) = .ok i) : step s = exec i { s with agenda := rest } := by
  have hm := s.nextMove_of_cons h
  rw [step_of_fetch (by rw [hm]; rfl) hd, hm]

theorem step_of_microOp {s : State} {u : UnitId} {rest : List Move} {i : Instr} (h : s.agenda = .microOp u :: rest)
    (hd : decode (.phase u (s.phaseOf u)) = .ok i) : step s = exec i { s with agenda := rest } := by
  have hm := s.nextMove_of_cons h
  rw [step_of_fetch (c := .phase u (s.phaseOf u)) (by rw [hm]; cases u <;> rfl) hd, hm]

theorem step_of_turn {s : State} {i : Instr} (h : s.agenda = [])
    (hd : decode (.phase s.turn (s.phaseOf s.turn)) = .ok i) : step s = exec i { s with turn := s.turn.other } := by
  have hm := s.nextMove_of_nil h
  rw [step_of_fetch (by rw [hm]; rfl) hd, hm]

theorem step_of_environment {s : State} {m : Move} {rest : List Move} (h : s.agenda = m :: rest)
    (hf : ∀ r, fetch m r = none) : step s = .next (environmentMove m { s with agenda := rest }) := by
  simp only [step, s.nextMove_of_cons h, hf]

/-! ### Which steps stop (R108, log 7) -/

/-- A step is refused when it is the move of a unit in a reserved phase. -/
theorem step_of_reserved {s : State} {u : UnitId} (hm : s.nextMove.1 = .microOp u)
    (hr : ReservedPhase u (s.phaseOf u)) : step s = .refused (.reservedPhase u (s.phaseOf u)) := by
  have hd := decode_phase_reserved hr
  simp only [step, hm, fetch, State.nextMove_phaseOf, hd]
  rfl

/-- Every other step answers a next state. -/
theorem step_next {s : State} (h : ∀ u, s.nextMove.1 = .microOp u → ¬ ReservedPhase u (s.phaseOf u)) :
    ∃ t, step s = .next t := by
  have run {c : Code} {i : Instr} (hf : fetch s.nextMove.1 s.nextMove.2 = some c) (hd : decode c = .ok i) :
      ∃ t, step s = .next t := by
    rw [step_of_fetch hf hd]
    exact exec_next i _
  cases hm : s.nextMove.1 with
  | host d => exact run (by rw [hm]; rfl) rfl
  | microOp u =>
    obtain ⟨i, hd⟩ := decode_phase_ok (h u hm)
    exact run (by rw [hm, fetch, State.nextMove_phaseOf]) hd
  | feed | drain | discard => exact ⟨_, by simp only [step, hm, fetch]; rfl⟩

/-- A step answers a next state, or it is refused as the move of a unit in a reserved phase. -/
theorem step_total (s : State) :
    (∃ t, step s = .next t) ∨
    ∃ u, s.nextMove.1 = .microOp u ∧ ReservedPhase u (s.phaseOf u) ∧
      step s = .refused (.reservedPhase u (s.phaseOf u)) := by
  by_cases h : ∀ u, s.nextMove.1 = .microOp u → ¬ ReservedPhase u (s.phaseOf u)
  · exact .inl (step_next h)
  · push Not at h
    obtain ⟨u, hm, hr⟩ := h
    exact .inr ⟨u, hm, hr, step_of_reserved hm hr⟩

/-! ### A word of the table placed for the next step (log 6, log 12) -/

/-- The two kinds of word of the table: a phase code, read as one of `PK`, and a descriptor. -/
theorem tableCode_cases {nbits w : Nat} {c : Code} (h : tableCode nbits w = some c) :
    (nbits ≤ 8 ∧ c = .phase .PK (BitVec.ofNat 4 w)) ∨ (8 < nbits ∧ c = .hostop (.ofBits 32 w)) := by
  unfold tableCode at h
  split_ifs at h with h0 h8 hw h40 hw
  · exact .inl ⟨h8, (Option.some.inj h).symm⟩
  · exact .inr ⟨Nat.lt_of_not_le h8, (Option.some.inj h).symm⟩

/-- The code of a word that decodes to an operation. -/
theorem code_of_decodeTableWord {nbits w : Nat} {i : Instr} (h : decodeTableWord nbits w = some i) :
    ∃ c, tableCode nbits w = some c ∧ decode c = .ok i := by
  unfold decodeTableWord at h
  cases hc : tableCode nbits w with
  | none => simp [hc] at h
  | some c =>
    cases hd : decode c with
    | error e => simp [hc, hd, Except.toOption] at h
    | ok j => exact ⟨c, rfl, by rw [hd]; simpa [hc, hd, Except.toOption] using h⟩

theorem State.withFetchWord_of_code {nbits w : Nat} {c : Code} (h : tableCode nbits w = some c) (s : State) :
    s.withFetchWord nbits w = s.placeCode c := by
  rw [State.withFetchWord, h]

end Sys2Proof.Machine
end

section
/-! The statements about the step (00_scope, 30_encoding). -/

namespace Sys2Proof.Machine

/-- Settles O7, by the three kinds of move that bring an operation. -/
theorem stepRunsTheDecodedOperation : Obligations.StepRunsTheDecodedOperation :=
  fun _ _ _ => ⟨fun _ h hd => step_of_host h hd, fun _ h hd => step_of_microOp h hd, fun h hd => step_of_turn h hd⟩

/-- Settles O8: the placed word is at the head of the agenda, as the host's move or as a move of `PK` in the phase set. -/
theorem placedTableWordRunsNext : Obligations.PlacedTableWordRunsNext := by
  intro s nbits w i h
  obtain ⟨c, hc, hd⟩ := code_of_decodeTableWord h
  rw [s.withFetchWord_of_code hc]
  rcases tableCode_cases hc with ⟨h8, rfl⟩ | ⟨h8, rfl⟩
  · exact ⟨fun hn => absurd hn (Nat.not_lt.2 h8), fun _ => step_of_microOp rfl hd⟩
  · refine ⟨fun _ => ⟨_, rfl, step_of_host rfl rfl, fun hw => ?_⟩, fun hn => absurd h8 (Nat.not_lt.2 hn)⟩
    have hcut : (Descriptor.ofBits 32 w).atWidth s.cfg.REGW = .ofBits 32 w := atWidth_of_lt hw
    exact (congrArg decodeHostOp hcut).trans (Except.ok.inj hd)

/-- Settles O9: each move of the environment is one push, pop or discard. -/
theorem environmentMovesOneToken : Obligations.EnvironmentMovesOneToken := by
  refine fun s rest w => ⟨fun h => step_of_environment h fun _ => rfl, fun h => step_of_environment h fun _ => rfl,
    fun k ks h hq => ?_, fun k ks h hq => ?_, fun k ks h hq => ?_, fun k ks h hq => ?_⟩
  all_goals rw [step_of_environment h fun _ => rfl]
  · simp only [environmentMove, Channel.pop_cons hq]
  · simp only [environmentMove, Channel.pop_cons hq]
  · simp only [environmentMove, Channel.discard, hq, List.tail_cons]
  · simp only [environmentMove, Channel.discard, hq, List.tail_cons]

/-- Settles O10: a step answers a next state or is the refusal named. -/
theorem stepStopsOnlyInAReservedPhase : Obligations.StepStopsOnlyInAReservedPhase := by
  refine fun s => ⟨(fun f => nomatch f), fun r => ⟨fun h => ?_, ?_⟩⟩
  · rcases step_total s with ⟨t, ht⟩ | ⟨u, hm, hr, hs⟩
    · cases h.symm.trans ht
    · exact ⟨u, hm, Host.Outcome.refused.inj (h.symm.trans hs), hr⟩
  · rintro ⟨u, hm, rfl, hr⟩
    exact step_of_reserved hm hr

end Sys2Proof.Machine
end

section
/-! Every operation that may run, and every move of the environment, keeps the invariant of the machine (R46). An operation
writes one unit only, so that each case names the four clauses of its unit. -/

namespace Sys2Proof.Machine

/-! ### The clauses of one unit -/

/-- The invariant after a change of the packer and its channels. -/
theorem State.Inv.withPk {s : State} (h : s.Inv) {p : Packer} {i o : Channel} {reads : List HostRead}
    (hfit : RegsFit s.cfg p.toUnitRegs) (hp : PkInv p) (hi : TookOnlyData i) (ho : OutInv p.toUnitRegs o) :
    State.Inv { s with pk := p, inPk := i, outPk := o, readsPk := reads } :=
  ⟨h.cfg, hfit, h.fitUp, h.fitPal, hp, h.up, hi, h.inUp, ho, h.outUp⟩

/-- The invariant after a change of the unpacker and its channels. -/
theorem State.Inv.withUp {s : State} (h : s.Inv) {p : Unpacker} {i o : Channel} {reads : List HostRead}
    (hfit : RegsFit s.cfg p.toUnitRegs) (hpal : p.PAL_LEN < 2 ^ s.cfg.REGW ∧ p.P < 2 ^ s.cfg.REGW) (hp : UpInv p)
    (hi : TookOnlyData i) (ho : OutInv p.toUnitRegs o) :
    State.Inv { s with up := p, inUp := i, outUp := o, readsUp := reads } :=
  ⟨h.cfg, h.fitPk, hfit, hpal, h.pk, hp, h.inPk, hi, h.outPk, ho⟩

/-- The agenda and the turn are in no clause of the invariant. -/
theorem State.Inv.schedule {s : State} (h : s.Inv) (moves : List Move) (u : UnitId) :
    State.Inv { s with agenda := moves, turn := u } :=
  ⟨h.cfg, h.fitPk, h.fitUp, h.fitPal, h.pk, h.up, h.inPk, h.inUp, h.outPk, h.outUp⟩

/-! ### The output channel -/

/-- The phases in which a unit rests with its frame closed (R79). -/
def Closed (q : PhaseCode) : Prop := q = 6#4 ∨ q = 8#4

theorem OutInv.running {r r' : UnitRegs} {c : Channel} (h : OutInv r c) (hp : ¬ Closed r'.PHASE) : OutInv r' c :=
  h.regs (fun h6 => absurd (.inl h6) hp) fun h8 => absurd (.inr h8) hp

theorem OutInv.keep {r r' : UnitRegs} {c : Channel} (h : OutInv r c) (hp : r'.PHASE = r.PHASE)
    (he : r'.ERRCODE = r.ERRCODE) : OutInv r' c :=
  h.regs (fun h6 => hp ▸ h6) fun h8 => ⟨hp ▸ h8, he⟩

theorem OutInv.data {r r' : UnitRegs} {c : Channel} (h : OutInv r c) (v : Byte) (hp : ¬ Closed r'.PHASE) :
    OutInv r' (c.push (.D v)) :=
  h.push _ (fun _ e => Token.noConfusion e) (fun h6 => absurd (.inl h6) hp) fun h8 => absurd (.inr h8) hp

theorem Packer.nextRow_not_closed (p : Packer) : ¬ Closed p.nextRow.PHASE := by
  rcases p.nextRow_phase with e | e <;> simp [Closed, e]

theorem Packer.rowEnd_not_closed (p : Packer) : ¬ Closed p.rowEnd.PHASE := by
  rcases p.rowEnd_phase with e | e | e <;> simp [Closed, e]

theorem Packer.accumulate_not_closed (p : Packer) (v : Byte) : ¬ Closed (p.accumulate v).PHASE := by
  rcases p.accumulate_phase v with e | e | e <;> simp [Closed, e]

theorem Unpacker.advance_not_closed (p : Unpacker) : ¬ Closed p.advance.PHASE := by
  rcases p.advance_phase with e | e | e | e <;> simp [Closed, e]

theorem Unpacker.skipByte_not_closed (p : Unpacker) : ¬ Closed p.skipByte.PHASE := by
  rcases p.skipByte_phase with e | e <;> simp [Closed, e]

/-! ### The packer -/

theorem Packer.clearAcc_fit {c : Config} {p : Packer} (h : RegsFit c p.toUnitRegs) : RegsFit c p.clearAcc.toUnitRegs :=
  ⟨h.width, h.height, h.depth, h.w, h.h, h.bytew, h.col, h.row⟩

/-- Fault entry of the packer keeps the invariant, whether or not the offending token was removed. -/
theorem State.Inv.pkFault {s : State} (h : s.Inv) {c : BitVec 4} {i : Channel} (hi : TookOnlyData i) (h0 : c ≠ 0#4)
    (h3 : c ≠ 3#4) (h4 : c.toNat ≤ 4) : State.Inv { s with pk := s.pk.raiseFault c, inPk := i } :=
  h.withPk (h.fitPk.raiseFault c) (h.pk.raiseFault h0 h3 h4) hi (h.outPk.running (by simp [Closed]))

/-- A write to a configuration register of the packer, or to `CMDERR`, keeps the invariant. -/
theorem State.Inv.pkConfiguration {s : State} (h : s.Inv) {w ht d : Nat} {e : Bool} (hw : w < 2 ^ s.cfg.REGW)
    (hh : ht < 2 ^ s.cfg.REGW) (hd : d < 2 ^ s.cfg.REGW) :
    State.Inv { s with pk := { s.pk with WIDTH := w, HEIGHT := ht, DEPTH := d, CMDERR := e } } :=
  h.withPk (h.fitPk.configuration e hw hh hd) (h.pk.configuration w ht d e) h.inPk (h.outPk.keep rfl rfl)

/-- The host operations of the packer keep the invariant. -/
theorem State.Inv.pkHostOp {i : Instr} {s t : State} (h : s.Inv) (hw : i.wellFormed s.cfg.REGW = true)
    (hh : isHostOp i = true) (hu : unitOf i = .PK) (he : exec i s = .next t) : t.Inv := by
  have hf := h.fitPk
  cases i <;> simp only [isHostOp, Bool.false_eq_true, unitOf, reduceCtorEq] at hh hu
  case pkNop | pkWrIgnored => cases he; exact h
  case pkStart =>
    cases he; exact h.withPk hf.packerStart h.pk.start h.inPk (h.outPk.start s.pk.start_phase)
  case pkReset =>
    cases he; exact h.withPk hf.softReset (PkInv.softReset _) h.inPk (h.outPk.running (by simp [Closed]))
  case pkCmdIllegal => cases he; exact h.pkConfiguration hf.width hf.height hf.depth
  case pkWrWidth => cases he; exact h.pkConfiguration (of_decide_eq_true hw) hf.height hf.depth
  case pkWrHeight => cases he; exact h.pkConfiguration hf.width (of_decide_eq_true hw) hf.depth
  case pkWrDepth => cases he; exact h.pkConfiguration hf.width hf.height (of_decide_eq_true hw)
  case pkRd => cases he; exact h.withPk hf h.pk h.inPk h.outPk

/-- `PK.ACCUM` keeps the invariant. -/
theorem State.Inv.pkAccum {s t : State} (h : s.Inv) (hp : s.pk.PHASE = 1#4) (he : execPkAccum s = .next t) :
    t.Inv := by
  rcases execPkAccum_cases he with ⟨-, rfl⟩ | ⟨c, rest, -, rfl⟩ | ⟨v, rest, -, -, rfl⟩ | ⟨v, rest, -, hv, rfl⟩
  · exact h
  · exact h.pkFault h.inPk (by decide) (by decide) (by decide)
  · exact h.pkFault (h.inPk.take v rest) (by decide) (by decide) (by decide)
  · exact h.withPk (h.fitPk.accumulate (h.pk.accum hp).2 v) (h.pk.accumulate hp hv) (h.inPk.take v rest)
      (h.outPk.running (s.pk.accumulate_not_closed v))

/-- `PK.EMIT` keeps the invariant. -/
theorem State.Inv.pkEmit {s t : State} (h : s.Inv) (hp : s.pk.PHASE = 2#4) (he : execPkEmit s = .next t) : t.Inv := by
  have hrow := (h.pk.unit.running (by rw [hp]; decide) (by rw [hp]; decide)).1
  have hf := Packer.clearAcc_fit h.fitPk
  cases he
  refine h.withPk ?_ (h.pk.emitted hp) h.inPk (h.outPk.data _ ?_) <;> split
  · exact hf.rowEnd hrow
  · exact hf.toPhase _
  · exact Packer.rowEnd_not_closed _
  · simp [Closed]

/-- `PK.PAD` keeps the invariant. -/
theorem State.Inv.pkPad {s t : State} (h : s.Inv) (hp : s.pk.PHASE = 4#4) (he : execPkPad s = .next t) : t.Inv := by
  obtain ⟨hrow, hcol⟩ := h.pk.unit.running (by rw [hp]; decide) (by rw [hp]; decide)
  have hf : RegsFit s.cfg { s.pk.toUnitRegs with PADCNT := s.pk.PADCNT - 1 } := h.fitPk.run (Nat.le_of_lt hrow) hcol
  cases he
  refine h.withPk ?_ (h.pk.padded hp) h.inPk (h.outPk.data _ ?_) <;> dsimp only <;> split
  · exact RegsFit.nextRow (p := { s.pk with PADCNT := s.pk.PADCNT - 1 }) hf hrow
  · exact hf.toPhase _
  · exact Packer.nextRow_not_closed _
  · simp [Closed]

/-- The micro-operation that the phase of the packer selects keeps the invariant. -/
theorem State.Inv.pkMicroOp {i : Instr} {s t : State} (h : s.Inv) (hd : decode (.phase .PK s.pk.PHASE) = .ok i)
    (he : exec i s = .next t) : t.Inv := by
  have hf := h.fitPk
  rcases decode_phase_pk hd with ⟨-, rfl⟩ | ⟨hp, rfl⟩ | ⟨hp, rfl⟩ | ⟨hp, rfl⟩ | ⟨hp, rfl⟩ | ⟨hp, rfl⟩ | ⟨-, rfl⟩ |
    ⟨hp, rfl⟩ | ⟨-, rfl⟩
  · cases he; exact h
  · exact h.pkAccum hp he
  · exact h.pkEmit hp he
  · cases he
    have hph : 1 ≤ s.pk.PHASE.toNat ∧ s.pk.PHASE.toNat ≤ 4 := by rw [hp]; decide
    exact h.withPk ((Packer.clearAcc_fit hf).rowEnd (h.pk.unit.running hph.1 hph.2).1)
      (h.pk.rowEnd hph (h.pk.flush hp).2.2.1) h.inPk (h.outPk.data _ (Packer.rowEnd_not_closed _))
  · exact h.pkPad hp he
  · cases he
    exact h.withPk (hf.toPhase _) (h.pk.terminated hp) h.inPk
      (h.outPk.push _ (by simp) (fun _ => rfl) (by simp))
  · cases he; exact h
  · cases he
    exact h.withPk (hf.toPhase _) (h.pk.failed hp) h.inPk
      (h.outPk.push _ (fun e he => Token.END.inj he ▸ h.pk.unit.errcode_le) (by simp) fun _ => rfl)
  · cases he; exact h

/-! ### The unpacker -/

/-- Fault entry of the unpacker keeps the invariant. -/
theorem State.Inv.upFault {s : State} (h : s.Inv) {c : BitVec 4} (h0 : c ≠ 0#4) (h2 : c ≠ 2#4) (h4 : c.toNat ≤ 4) :
    State.Inv { s with up := s.up.raiseFault c } :=
  h.withUp (h.fitUp.raiseFault c) h.fitPal (h.up.raiseFault h0 h2 h4) h.inUp (h.outUp.running (by simp [Closed]))

/-- A write to a configuration register of the unpacker, or to `CMDERR`, keeps the invariant. -/
theorem State.Inv.upConfiguration {s : State} (h : s.Inv) {w ht d pl : Nat} {e : Bool} (hw : w < 2 ^ s.cfg.REGW)
    (hh : ht < 2 ^ s.cfg.REGW) (hd : d < 2 ^ s.cfg.REGW) (hpl : pl < 2 ^ s.cfg.REGW) :
    State.Inv { s with up := { s.up with WIDTH := w, HEIGHT := ht, DEPTH := d, PAL_LEN := pl, CMDERR := e } } :=
  h.withUp (h.fitUp.configuration e hw hh hd) ⟨hpl, h.fitPal.2⟩ (h.up.configuration w ht d pl e) h.inUp
    (h.outUp.keep rfl rfl)

/-- The palette length is latched as it stands in its register. -/
theorem Unpacker.start_palette {p : Unpacker} {n : Nat} (h : p.PAL_LEN < n ∧ p.P < n) :
    p.start.PAL_LEN < n ∧ p.start.P < n := by
  rcases p.start_cases with ⟨-, -, e⟩ | ⟨-, -, e⟩ | ⟨-, e⟩ <;> rw [e]
  · exact ⟨h.1, h.1⟩
  · exact h
  · exact h

/-- The host operations of the unpacker keep the invariant. -/
theorem State.Inv.upHostOp {i : Instr} {s t : State} (h : s.Inv) (hw : i.wellFormed s.cfg.REGW = true)
    (hh : isHostOp i = true) (hu : unitOf i = .UP) (he : exec i s = .next t) : t.Inv := by
  have hf := h.fitUp
  have hpl := h.fitPal.1
  cases i <;> simp only [isHostOp, Bool.false_eq_true, unitOf, reduceCtorEq] at hh hu
  case upNop | upWrIgnored => cases he; exact h
  case upStart =>
    cases he
    exact h.withUp hf.unpackerStart (Unpacker.start_palette h.fitPal) h.up.start h.inUp
      (h.outUp.start s.up.start_phase)
  case upReset =>
    cases he
    exact h.withUp hf.softReset ⟨hpl, Nat.two_pow_pos _⟩ (UpInv.softReset _) h.inUp
      (h.outUp.running (by simp [Closed]))
  case upCmdIllegal => cases he; exact h.upConfiguration hf.width hf.height hf.depth hpl
  case upWrWidth => cases he; exact h.upConfiguration (of_decide_eq_true hw) hf.height hf.depth hpl
  case upWrHeight => cases he; exact h.upConfiguration hf.width (of_decide_eq_true hw) hf.depth hpl
  case upWrDepth => cases he; exact h.upConfiguration hf.width hf.height (of_decide_eq_true hw) hpl
  case upWrPalLen => cases he; exact h.upConfiguration hf.width hf.height hf.depth (of_decide_eq_true hw)
  case upRd => cases he; exact h.withUp hf h.fitPal h.up h.inUp h.outUp

/-- `UP.FETCH` keeps the invariant. -/
theorem State.Inv.upFetch {s t : State} (h : s.Inv) (hp : s.up.PHASE = 1#4) (he : execUpFetch s = .next t) :
    t.Inv := by
  rcases execUpFetch_cases he with ⟨-, rfl⟩ | ⟨c, rest, -, rfl⟩ | ⟨b, rest, -, rfl⟩
  · exact h
  · exact h.upFault (by decide) (by decide) (by decide)
  · exact h.withUp (h.fitUp.load b) h.fitPal (h.up.load hp b) (h.inUp.take b rest)
      (h.outUp.running (by simp [Unpacker.load, Closed]))

/-- `UP.SKIP` keeps the invariant. -/
theorem State.Inv.upSkip {s t : State} (h : s.Inv) (hp : s.up.PHASE = 3#4) (he : execUpSkip s = .next t) : t.Inv := by
  rcases execUpSkip_cases he with ⟨-, rfl⟩ | ⟨c, rest, -, rfl⟩ | ⟨b, rest, -, rfl⟩
  · exact h
  · exact h.upFault (by decide) (by decide) (by decide)
  · exact h.withUp h.fitUp.skipByte h.fitPal (h.up.skipped hp) (h.inUp.take b rest)
      (h.outUp.running s.up.skipByte_not_closed)

/-- `UP.EXTRACT` keeps the invariant. -/
theorem State.Inv.upExtract {s t : State} (h : s.Inv) (hp : s.up.PHASE = 2#4) (he : execUpExtract s = .next t) :
    t.Inv := by
  rcases execUpExtract_cases he with ⟨-, rfl⟩ | ⟨-, rfl⟩
  · exact h.upFault (by decide) (by decide) (by decide)
  · have hrow := (h.up.unit.running (by rw [hp]; decide) (by rw [hp]; decide)).1
    have hpal : s.up.advance.PAL_LEN < 2 ^ s.cfg.REGW ∧ s.up.advance.P < 2 ^ s.cfg.REGW := by
      rw [s.up.advance_frame]; exact h.fitPal
    exact h.withUp (h.fitUp.advance hrow (h.up.extract hp).1) hpal (h.up.advance hp) h.inUp
      (h.outUp.data _ s.up.advance_not_closed)

/-- The micro-operation that the phase of the unpacker selects keeps the invariant. -/
theorem State.Inv.upMicroOp {i : Instr} {s t : State} (h : s.Inv) (hd : decode (.phase .UP s.up.PHASE) = .ok i)
    (he : exec i s = .next t) : t.Inv := by
  have hf := h.fitUp
  rcases decode_phase_up hd with ⟨-, rfl⟩ | ⟨hp, rfl⟩ | ⟨hp, rfl⟩ | ⟨hp, rfl⟩ | ⟨hp, rfl⟩ | ⟨-, rfl⟩ | ⟨hp, rfl⟩ |
    ⟨-, rfl⟩
  · cases he; exact h
  · exact h.upFetch hp he
  · exact h.upExtract hp he
  · exact h.upSkip hp he
  · cases he
    exact h.withUp (hf.toPhase _) h.fitPal (h.up.terminated hp) h.inUp
      (h.outUp.push _ (by simp) (fun _ => rfl) (by simp))
  · cases he; exact h
  · cases he
    exact h.withUp (hf.toPhase _) h.fitPal (h.up.failed hp) h.inUp
      (h.outUp.push _ (fun e he => Token.END.inj he ▸ h.up.unit.errcode_le) (by simp) fun _ => rfl)
  · cases he; exact h

/-! ### The step -/

/-- Every well-formed operation that may run keeps the invariant. -/
theorem State.Inv.exec {i : Instr} {s t : State} (h : s.Inv) (hw : i.wellFormed s.cfg.REGW = true)
    (hs : Selected i s) (he : exec i s = .next t) : t.Inv := by
  rcases hs with hh | hd
  · cases hu : unitOf i with
    | PK => exact h.pkHostOp hw hh hu he
    | UP => exact h.upHostOp hw hh hu he
  · cases hu : unitOf i with
    | PK => rw [hu] at hd; exact h.pkMicroOp hd he
    | UP => rw [hu] at hd; exact h.upMicroOp hd he

/-- Taking the head token of an output channel leaves the sequence of tokens that went through. -/
theorem OutInv.pop {r : UnitRegs} {c : Channel} (h : OutInv r c) : OutInv r c.pop :=
  ⟨by rw [c.trace_pop]; exact h.codes, by rw [c.trace_pop]; exact h.done, by rw [c.trace_pop]; exact h.err⟩

/-- Every move of the environment keeps the invariant. -/
theorem State.Inv.environmentMove {s : State} (h : s.Inv) (m : Move) : (environmentMove m s).Inv := by
  match m with
  | .host _ | .microOp _ => exact h
  | .feed .PK _ | .discard .PK => exact h.withPk h.fitPk h.pk h.inPk h.outPk
  | .feed .UP _ | .discard .UP => exact h.withUp h.fitUp h.fitPal h.up h.inUp h.outUp
  | .drain .PK => exact h.withPk h.fitPk h.pk h.inPk h.outPk.pop
  | .drain .UP => exact h.withUp h.fitUp h.fitPal h.up h.inUp h.outUp.pop

theorem unitOf_of_decode_phase {u : UnitId} {p : PhaseCode} {i : Instr} (h : decode (.phase u p) = .ok i) :
    unitOf i = u := by
  have hback := (decode_phase_roundTrip (regw := 0) h).2
  cases i <;> cases hback <;> rfl

theorem isHostOp_of_encode {i : Instr} {d : Descriptor} (h : encode i = .hostop d) : isHostOp i = true := by
  cases i <;> cases h <;> rfl

/-- A descriptor selects a host operation (R106). -/
theorem isHostOp_decodeHostOp (d : Descriptor) : isHostOp (decodeHostOp d) = true := by
  rw [← descriptor_fields d, decodeHostOp_descriptor]
  match d.unit, d.isWrite with
  | .PK, true => exact isHostOp_of_encode (decodePkWrite_roundTrip d.reg Nat.lt_two_pow_self).2
  | .UP, true => exact isHostOp_of_encode (decodeUpWrite_roundTrip d.reg Nat.lt_two_pow_self).2
  | .PK, false => rfl
  | .UP, false => rfl

/-- What a move brings is well formed on the block and may run. -/
theorem selected_of_fetch {m : Move} {s : State} {c : Code} {i : Instr} (hf : fetch m s = some c)
    (hd : decode c = .ok i) : i.wellFormed s.cfg.REGW = true ∧ Selected i s := by
  cases m <;> cases hf
  case microOp u =>
    refine ⟨(decode_phase_roundTrip hd).1, .inr ?_⟩
    rwa [unitOf_of_decode_phase hd]
  case host d =>
    obtain rfl := Except.ok.inj hd
    exact ⟨(decodeHostOp_roundTrip (atWidth_lt s.cfg.REGW d)).1, .inl (isHostOp_decodeHostOp _)⟩

theorem State.Inv.nextMove {s : State} (h : s.Inv) : s.nextMove.2.Inv := by
  rw [s.nextMove_frame]
  exact h.schedule _ _

/-- Every step keeps the invariant. -/
theorem State.Inv.step {s t : State} (h : s.Inv) (ht : step s = .next t) : t.Inv := by
  rcases step_cases ht with ⟨c, i, hf, hd, he⟩ | ⟨-, rfl⟩
  · obtain ⟨hw, hs⟩ := selected_of_fetch hf hd
    exact h.nextMove.exec hw hs he
  · exact h.nextMove.environmentMove _

/-- The invariant leaves no unit in a reserved phase (R46 item 1). -/
theorem State.Inv.not_reservedPhase {s : State} (h : s.Inv) (u : UnitId) : ¬ ReservedPhase u (s.phaseOf u) := by
  cases u with
  | PK =>
    rintro (h9 | ⟨hu, -⟩)
    · exact absurd h.pk.unit.phase_le (Nat.not_le.2 h9)
    · cases hu
  | UP =>
    rintro (h9 | ⟨-, h4⟩)
    · exact absurd h.up.unit.phase_le (Nat.not_le.2 h9)
    · exact h.up.no_pad (BitVec.eq_of_toNat_eq h4)

/-- A state that meets the invariant has a next one, which meets it too. -/
theorem State.Inv.step_next {s : State} (h : s.Inv) : ∃ t, Machine.step s = .next t ∧ t.Inv := by
  obtain ⟨t, ht⟩ := Machine.step_next fun u _ => h.not_reservedPhase u
  exact ⟨t, ht, h.step ht⟩

/-- Any number of steps from a state that meets the invariant. -/
theorem State.Inv.run {s : State} (h : s.Inv) (n : Nat) :
    ∃ t : State, Host.Core.run Sys2Proof.core n s = .next t ∧ t.Inv := by
  induction n generalizing s with
  | zero => exact ⟨s, rfl, h⟩
  | succ n ih =>
    obtain ⟨a, ha, hinv⟩ := h.step_next
    obtain ⟨t, ht, hinv'⟩ := ih hinv
    exact ⟨t, by rw [← ht]; simp only [Host.Core.run, Sys2Proof.core, ha], hinv'⟩

/-- Every register that is 0 fits its width. -/
theorem RegsFit.reset (c : Config) : RegsFit c UnitRegs.reset :=
  have z := Nat.two_pow_pos c.REGW
  ⟨z, z, z, z, z, z, z, z⟩

theorem OutInv.reset : OutInv UnitRegs.reset ⟨[], []⟩ :=
  ⟨fun _ he => absurd he List.not_mem_nil, fun h6 => absurd h6 (by decide), fun h8 => absurd h8 (by decide)⟩

theorem TookOnlyData.reset : TookOnlyData ⟨[], []⟩ := fun _ ht => absurd ht List.not_mem_nil

/-- Hardware reset meets the invariant: each unit is as its `RESET` leaves it. -/
theorem State.Inv.resetAt {c : Config} (hc : c.legal = true) : (State.resetAt c).Inv where
  cfg := hc
  fitPk := RegsFit.reset c
  fitUp := RegsFit.reset c
  fitPal := ⟨Nat.two_pow_pos _, Nat.two_pow_pos _⟩
  pk := PkInv.softReset (State.resetAt c).pk
  up := UpInv.softReset (State.resetAt c).up
  inPk := TookOnlyData.reset
  inUp := TookOnlyData.reset
  outPk := OutInv.reset
  outUp := OutInv.reset

/-! ### The parameter (R5) -/

theorem exec_keeps_cfg {i : Instr} {s t : State} (he : exec i s = .next t) : t.cfg = s.cfg := by
  rw [exec_frame he]
  cases unitOf i <;> rfl

theorem environmentMove_cfg (m : Move) (s : State) : (environmentMove m s).cfg = s.cfg := by
  rcases m with _ | _ | ⟨_ | _, _⟩ | ⟨_ | _⟩ | ⟨_ | _⟩ <;> rfl

/-! ### What a read returns (R131) -/

theorem UnitRegs.statusWord_lt (r : UnitRegs) : r.statusWord < 2 ^ 12 := BitVec.isLt _

/-- What each register number reads as. -/
theorem UnitRegs.read_spec (r : UnitRegs) (palLen : Nat) (reg : BitVec 6) :
    (reg.toNat = 0 → r.read palLen reg = 0) ∧ (reg.toNat = 1 → r.read palLen reg = r.statusWord) ∧
    (reg.toNat = 2 → r.read palLen reg = r.WIDTH) ∧ (reg.toNat = 3 → r.read palLen reg = r.HEIGHT) ∧
    (reg.toNat = 4 → r.read palLen reg = r.DEPTH) ∧ (reg.toNat = 5 → r.read palLen reg = palLen) ∧
    (reg.toNat = 6 → r.read palLen reg = r.BITPAD.toNat) ∧ (reg.toNat = 7 → r.read palLen reg = r.BYTEW) ∧
    (reg.toNat = 8 → r.read palLen reg = r.BYTEPAD.toNat) ∧ (reg.toNat = 9 → r.read palLen reg = r.ROW) ∧
    (reg.toNat = 10 → r.read palLen reg = r.COL) ∧ (11 ≤ reg.toNat → r.read palLen reg = 0) := by
  unfold UnitRegs.read
  refine ⟨?_, ?_, ?_, ?_, ?_, ?_, ?_, ?_, ?_, ?_, ?_, fun h => ?_⟩
  case refine_12 => split <;> omega
  all_goals intro h; rw [h]; rfl

/-- A read returns a word of `REGW` bits: the twelve bits of `STATUS` and the small fields have room in any legal width. -/
theorem RegsFit.read {c : Config} {r : UnitRegs} (h : RegsFit c r) (hc : c.legal = true) {palLen : Nat}
    (hpal : palLen < 2 ^ c.REGW) (reg : BitVec 6) : r.read palLen reg < 2 ^ c.REGW := by
  have hroom : 2 ^ 12 ≤ 2 ^ c.REGW := Nat.pow_le_pow_right (by decide) (by have := of_decide_eq_true hc; omega)
  have hstatus := r.statusWord_lt
  have hbitpad := r.BITPAD.isLt
  have hbytepad := r.BYTEPAD.isLt
  unfold UnitRegs.read
  split
  · omega
  · exact h.width
  · exact h.height
  · exact h.depth
  · exact hpal
  · omega
  · exact h.bytew
  · omega
  · exact h.row
  · exact h.col
  · omega

end Sys2Proof.Machine
end

section
/-! The statements about the invariant, reset, the parameter and reads (10_state, 20_memory, 70_reset_and_hazards). -/

namespace Sys2Proof.Machine

/-- Settles O12: what a move brings may run, and each operation keeps the clauses of its unit. -/
theorem stepKeepsTheInvariant : Obligations.StepKeepsTheInvariant := fun _ _ h ht => h.step ht

/-- Settles O13: no phase of the invariant is reserved, and only those stop a step. -/
theorem invariantStatesAlwaysStep : Obligations.InvariantStatesAlwaysStep := fun _ h =>
  have ⟨t, ht, _⟩ := h.step_next
  ⟨t, ht⟩

/-- Settles O14, by induction over the number of steps. -/
theorem everyInterleavingRunsFromReset : Obligations.EveryInterleavingRunsFromReset :=
  fun _ moves n hc => ((State.Inv.resetAt hc).schedule moves .PK).run n

/-- Settles O11: each unit is as its `RESET` leaves it. -/
theorem resetMeetsTheInvariant : Obligations.ResetMeetsTheInvariant :=
  ⟨State.Inv.resetAt rfl, fun _ hc => State.Inv.resetAt hc, fun _ => ⟨rfl, rfl, rfl, rfl⟩⟩

/-- Settles O59: an operation writes its unit only, and a move of the environment a channel only. -/
theorem noStepChangesTheParameter : Obligations.NoStepChangesTheParameter := by
  refine ⟨fun s t ht => ?_, fun _ => rfl, rfl⟩
  rw [← s.nextMove_cfg]
  rcases step_cases ht with ⟨c, i, -, -, he⟩ | ⟨-, rfl⟩
  · exact exec_keeps_cfg he
  · exact environmentMove_cfg _ _

/-- Settles O60, register by register. -/
theorem everyReadFitsTheRegisterWidth : Obligations.EveryReadFitsTheRegisterWidth :=
  fun _ reg h => ⟨h.fitPk.read h.cfg (Nat.two_pow_pos _) reg, h.fitUp.read h.cfg h.fitPal.1 reg⟩

/-- Settles O21: both units read their registers through `UnitRegs.read`. -/
theorem readReturnsTheRegister : Obligations.ReadReturnsTheRegister := fun s reg =>
  ⟨decodeHostOp_descriptorOf .PK false reg 0, decodeHostOp_descriptorOf .UP false reg 0,
    ⟨s.pk.read reg, rfl, s.pk.read_spec 0 reg⟩, ⟨s.up.read reg, rfl, s.up.read_spec s.up.PAL_LEN reg⟩⟩

end Sys2Proof.Machine
end

section
/-! Rules about every operation: the registers that only `START` and `RESET` write, the arrows of the phase graphs, what a
feed before a micro-operation does, and what a unit has appended after an operation. -/

namespace Sys2Proof.Machine

/-! ### The active configuration and the geometry (R20, R28, R29) -/

/-- The registers that `START` latches and no micro-operation writes. -/
def UnitRegs.latched (r : UnitRegs) : Nat × Nat × BitVec 4 × BitVec 3 × Nat × BitVec 2 :=
  (r.W, r.H, r.S, r.BITPAD, r.BYTEW, r.BYTEPAD)

theorem UnitRegs.latched_eq_iff (r r' : UnitRegs) : r.latched = r'.latched ↔
    r.W = r'.W ∧ r.H = r'.H ∧ r.S = r'.S ∧ r.BITPAD = r'.BITPAD ∧ r.BYTEW = r'.BYTEW ∧ r.BYTEPAD = r'.BYTEPAD := by
  simp only [latched, Prod.mk.injEq]

theorem Packer.rowEnd_latched (p : Packer) : p.rowEnd.latched = p.latched := by
  rcases p.rowEnd_cases with ⟨-, e⟩ | ⟨-, -, e⟩ | ⟨-, -, e⟩ <;> rw [e] <;> rfl

theorem Unpacker.advance_latched (p : Unpacker) : p.advance.latched = p.latched ∧ p.advance.P = p.P := by
  rw [p.advance_frame]
  exact ⟨rfl, rfl⟩

/-- An operation of the packer other than `START` and `RESET` keeps what was latched. -/
theorem exec_keeps_pk_latched {i : Instr} {s t : State} (h1 : i ≠ .pkStart) (h2 : i ≠ .pkReset)
    (he : exec i s = .next t) : t.pk.latched = s.pk.latched := by
  cases hu : unitOf i with
  | UP => rw [exec_keeps_pk hu he]
  | PK =>
    cases i <;> simp only [unitOf, reduceCtorEq] at hu
    case pkStart => exact absurd rfl h1
    case pkReset => exact absurd rfl h2
    case pkAccum =>
      rcases execPkAccum_cases he with ⟨-, rfl⟩ | ⟨_, _, -, rfl⟩ | ⟨_, _, -, -, rfl⟩ | ⟨_, _, -, -, rfl⟩ <;> rfl
    case pkEmit =>
      cases he
      dsimp only
      split
      · exact Packer.rowEnd_latched _
      · rfl
    case pkFlush => cases he; exact Packer.rowEnd_latched _
    case pkPad =>
      cases he
      dsimp only
      split <;> rfl
    all_goals cases he; rfl

/-- An operation of the unpacker other than `START` and `RESET` keeps what was latched. -/
theorem exec_keeps_up_latched {i : Instr} {s t : State} (h1 : i ≠ .upStart) (h2 : i ≠ .upReset)
    (he : exec i s = .next t) : t.up.latched = s.up.latched ∧ t.up.P = s.up.P := by
  cases hu : unitOf i with
  | PK => rw [exec_keeps_up hu he]; exact ⟨rfl, rfl⟩
  | UP =>
    cases i <;> simp only [unitOf, reduceCtorEq] at hu
    case upStart => exact absurd rfl h1
    case upReset => exact absurd rfl h2
    case upFetch =>
      rcases execUpFetch_cases he with ⟨-, rfl⟩ | ⟨_, _, -, rfl⟩ | ⟨_, _, -, rfl⟩ <;> exact ⟨rfl, rfl⟩
    case upSkip =>
      rcases execUpSkip_cases he with ⟨-, rfl⟩ | ⟨_, _, -, rfl⟩ | ⟨_, _, -, rfl⟩ <;> exact ⟨rfl, rfl⟩
    case upExtract =>
      rcases execUpExtract_cases he with ⟨-, rfl⟩ | ⟨-, rfl⟩
      · exact ⟨rfl, rfl⟩
      · exact s.up.advance_latched
    all_goals cases he; exact ⟨rfl, rfl⟩

/-! ### The phase graphs (R160, R190) -/

/-- The arrows of the phase graph of the packer, but for those of `RESET` (R160). -/
def pkArrows : List (Nat × Nat) :=
  [(0, 1), (0, 7), (1, 2), (1, 3), (1, 7), (2, 1), (2, 4), (2, 5), (3, 4), (3, 1), (3, 5), (4, 1), (4, 5),
   (5, 6), (7, 8), (6, 1), (6, 7)]

/-- The arrows of the phase graph of the unpacker, but for those of `RESET` (R190). -/
def upArrows : List (Nat × Nat) :=
  [(0, 1), (0, 7), (1, 2), (1, 7), (2, 7), (2, 1), (2, 5), (2, 3), (3, 1), (3, 7), (5, 6), (7, 8), (6, 1),
   (6, 7)]

/-- The phase stays, or changes along an arrow. -/
def Follows (arrows : List (Nat × Nat)) (p q : PhaseCode) : Prop := q = p ∨ (p.toNat, q.toNat) ∈ arrows

theorem Follows.arrow {arrows : List (Nat × Nat)} {p q : PhaseCode} (h : Follows arrows p q) (hne : q ≠ p) :
    (p.toNat, q.toNat) ∈ arrows :=
  h.resolve_left hne

theorem Follows.along {arrows : List (Nat × Nat)} {p q a b : PhaseCode} (hp : p = a) (hq : q = b)
    (h : (a.toNat, b.toNat) ∈ arrows) : Follows arrows p q := by
  subst hp hq
  exact .inr h

theorem Packer.start_follows (p : Packer) : Follows pkArrows p.PHASE p.start.PHASE := by
  rcases p.start_cases with ⟨ha, -, e⟩ | ⟨ha, -, e⟩ | ⟨-, e⟩ <;> rw [e]
  · rcases p.startAccepted_iff.1 ha with h | h <;> exact .along h p.toUnitRegs.latch_PHASE (by decide)
  · rcases p.startAccepted_iff.1 ha with h | h <;> exact .along h (p.toUnitRegs.raiseFault_PHASE _) (by decide)
  · exact .inl rfl

theorem Unpacker.start_follows (p : Unpacker) : Follows upArrows p.PHASE p.start.PHASE := by
  rcases p.start_cases with ⟨ha, -, e⟩ | ⟨ha, -, e⟩ | ⟨-, e⟩ <;> rw [e]
  · rcases p.startAccepted_iff.1 ha with h | h <;> exact .along h p.toUnitRegs.latch_PHASE (by decide)
  · rcases p.startAccepted_iff.1 ha with h | h <;> exact .along h (p.toUnitRegs.raiseFault_PHASE _) (by decide)
  · exact .inl rfl

/-- A host operation of the packer other than `RESET` follows the graph. -/
theorem hostOp_follows_pk {i : Instr} {s t : State} (hh : isHostOp i = true) (hi : i ≠ .pkReset)
    (he : exec i s = .next t) : Follows pkArrows s.pk.PHASE t.pk.PHASE := by
  cases i <;> simp only [isHostOp, Bool.false_eq_true] at hh
  case pkReset => exact absurd rfl hi
  case pkStart => cases he; exact s.pk.start_follows
  all_goals cases he; exact .inl rfl

/-- A host operation of the unpacker other than `RESET` follows the graph. -/
theorem hostOp_follows_up {i : Instr} {s t : State} (hh : isHostOp i = true) (hi : i ≠ .upReset)
    (he : exec i s = .next t) : Follows upArrows s.up.PHASE t.up.PHASE := by
  cases i <;> simp only [isHostOp, Bool.false_eq_true] at hh
  case upReset => exact absurd rfl hi
  case upStart => cases he; exact s.up.start_follows
  all_goals cases he; exact .inl rfl

/-- `PK.ACCUM` follows the graph. -/
theorem execPkAccum_follows {s t : State} (hp : s.pk.PHASE = 1#4) (he : execPkAccum s = .next t) :
    Follows pkArrows s.pk.PHASE t.pk.PHASE := by
  rcases execPkAccum_cases he with ⟨-, rfl⟩ | ⟨_, _, -, rfl⟩ | ⟨_, _, -, -, rfl⟩ | ⟨v, _, -, -, rfl⟩
  · exact .inl rfl
  · exact .along hp (s.pk.toUnitRegs.raiseFault_PHASE _) (by decide)
  · exact .along hp (s.pk.toUnitRegs.raiseFault_PHASE _) (by decide)
  · rcases s.pk.accumulate_phase v with e | e | e
    · exact .inl (e.trans hp.symm)
    · exact .along hp e (by decide)
    · exact .along hp e (by decide)

/-- `PK.EMIT` follows the graph. -/
theorem execPkEmit_follows {s t : State} (hp : s.pk.PHASE = 2#4) (he : execPkEmit s = .next t) :
    Follows pkArrows s.pk.PHASE t.pk.PHASE := by
  cases he
  dsimp only
  split
  · rcases s.pk.clearAcc.rowEnd_phase with e | e | e <;> exact .along hp e (by decide)
  · exact .along (b := 1#4) hp rfl (by decide)

/-- `PK.PAD` follows the graph. -/
theorem execPkPad_follows {s t : State} (hp : s.pk.PHASE = 4#4) (he : execPkPad s = .next t) :
    Follows pkArrows s.pk.PHASE t.pk.PHASE := by
  cases he
  dsimp only
  split
  · rcases Packer.nextRow_phase { s.pk with PADCNT := s.pk.PADCNT - 1 } with e | e <;>
      exact .along hp e (by decide)
  · exact .inl hp.symm

/-- The micro-operation that the phase of the packer selects follows the graph. -/
theorem microOp_follows_pk {i : Instr} {s t : State} (hd : decode (.phase .PK s.pk.PHASE) = .ok i)
    (he : exec i s = .next t) : Follows pkArrows s.pk.PHASE t.pk.PHASE := by
  rcases decode_phase_pk hd with ⟨-, rfl⟩ | ⟨hp, rfl⟩ | ⟨hp, rfl⟩ | ⟨hp, rfl⟩ | ⟨hp, rfl⟩ | ⟨hp, rfl⟩ | ⟨-, rfl⟩ |
    ⟨hp, rfl⟩ | ⟨-, rfl⟩
  · cases he; exact .inl rfl
  · exact execPkAccum_follows hp he
  · exact execPkEmit_follows hp he
  · cases he
    rcases s.pk.clearAcc.rowEnd_phase with e | e | e <;> exact .along hp e (by decide)
  · exact execPkPad_follows hp he
  · cases he; exact .along (b := 6#4) hp rfl (by decide)
  · cases he; exact .inl rfl
  · cases he; exact .along (b := 8#4) hp rfl (by decide)
  · cases he; exact .inl rfl

/-- `UP.FETCH` follows the graph. -/
theorem execUpFetch_follows {s t : State} (hp : s.up.PHASE = 1#4) (he : execUpFetch s = .next t) :
    Follows upArrows s.up.PHASE t.up.PHASE := by
  rcases execUpFetch_cases he with ⟨-, rfl⟩ | ⟨_, _, -, rfl⟩ | ⟨_, _, -, rfl⟩
  · exact .inl rfl
  · exact .along hp (s.up.toUnitRegs.raiseFault_PHASE _) (by decide)
  · exact .along (b := 2#4) hp rfl (by decide)

/-- `UP.EXTRACT` follows the graph. -/
theorem execUpExtract_follows {s t : State} (hp : s.up.PHASE = 2#4) (he : execUpExtract s = .next t) :
    Follows upArrows s.up.PHASE t.up.PHASE := by
  rcases execUpExtract_cases he with ⟨-, rfl⟩ | ⟨-, rfl⟩
  · exact .along hp (s.up.toUnitRegs.raiseFault_PHASE _) (by decide)
  · rcases s.up.advance_phase with e | e | e | e
    · exact .along hp e (by decide)
    · exact .inl (e.trans hp.symm)
    · exact .along hp e (by decide)
    · exact .along hp e (by decide)

/-- `UP.SKIP` follows the graph. -/
theorem execUpSkip_follows {s t : State} (hp : s.up.PHASE = 3#4) (he : execUpSkip s = .next t) :
    Follows upArrows s.up.PHASE t.up.PHASE := by
  rcases execUpSkip_cases he with ⟨-, rfl⟩ | ⟨_, _, -, rfl⟩ | ⟨_, _, -, rfl⟩
  · exact .inl rfl
  · exact .along hp (s.up.toUnitRegs.raiseFault_PHASE _) (by decide)
  · rcases s.up.skipByte_phase with e | e
    · exact .along hp e (by decide)
    · exact .inl (e.trans hp.symm)

/-- The micro-operation that the phase of the unpacker selects follows the graph. -/
theorem microOp_follows_up {i : Instr} {s t : State} (hd : decode (.phase .UP s.up.PHASE) = .ok i)
    (he : exec i s = .next t) : Follows upArrows s.up.PHASE t.up.PHASE := by
  rcases decode_phase_up hd with ⟨-, rfl⟩ | ⟨hp, rfl⟩ | ⟨hp, rfl⟩ | ⟨hp, rfl⟩ | ⟨hp, rfl⟩ | ⟨-, rfl⟩ | ⟨hp, rfl⟩ |
    ⟨-, rfl⟩
  · cases he; exact .inl rfl
  · exact execUpFetch_follows hp he
  · exact execUpExtract_follows hp he
  · exact execUpSkip_follows hp he
  · cases he; exact .along (b := 6#4) hp rfl (by decide)
  · cases he; exact .inl rfl
  · cases he; exact .along (b := 8#4) hp rfl (by decide)
  · cases he; exact .inl rfl

/-- Every operation that may run changes the phase of the packer along an arrow, unless it is its `RESET`. -/
theorem exec_follows_pk {i : Instr} {s t : State} (hs : Selected i s) (hi : i ≠ .pkReset) (he : exec i s = .next t) :
    Follows pkArrows s.pk.PHASE t.pk.PHASE := by
  cases hu : unitOf i with
  | UP => exact .inl (congrArg (·.PHASE) (exec_keeps_pk hu he))
  | PK =>
    rcases hs with hh | hd
    · exact hostOp_follows_pk hh hi he
    · rw [hu] at hd; exact microOp_follows_pk hd he

/-- Every operation that may run changes the phase of the unpacker along an arrow, unless it is its `RESET`. -/
theorem exec_follows_up {i : Instr} {s t : State} (hs : Selected i s) (hi : i ≠ .upReset) (he : exec i s = .next t) :
    Follows upArrows s.up.PHASE t.up.PHASE := by
  cases hu : unitOf i with
  | PK => exact .inl (congrArg (·.PHASE) (exec_keeps_up hu he))
  | UP =>
    rcases hs with hh | hd
    · exact hostOp_follows_up hh hi he
    · rw [hu] at hd; exact microOp_follows_up hd he

/-! ### A token fed before a micro-operation (R76) -/

/-- What stands in front of the fed token is read first. -/
theorem execPkAccum_feed {s t : State} (w : TokenWord) (he : execPkAccum s = .next t) (hq : s.inPk.queue ≠ []) :
    execPkAccum (environmentMove (.feed .PK w) s) = .next (environmentMove (.feed .PK w) t) := by
  rcases execPkAccum_cases he with ⟨h, -⟩ | ⟨c, rest, h, rfl⟩ | ⟨v, rest, h, hv, rfl⟩ | ⟨v, rest, h, hv, rfl⟩
  · exact absurd h hq
  · exact execPkAccum_of_END (c := c) (rest := rest ++ [decodeToken w]) (by simp [environmentMove, h])
  · exact execPkAccum_of_le (s := environmentMove (.feed .PK w) s) (rest := rest ++ [decodeToken w])
      (by simp [environmentMove, h]) hv
  · exact execPkAccum_of_lt (s := environmentMove (.feed .PK w) s) (rest := rest ++ [decodeToken w])
      (by simp [environmentMove, h]) hv

theorem execUpFetch_feed {s t : State} (w : TokenWord) (he : execUpFetch s = .next t) (hq : s.inUp.queue ≠ []) :
    execUpFetch (environmentMove (.feed .UP w) s) = .next (environmentMove (.feed .UP w) t) := by
  rcases execUpFetch_cases he with ⟨h, -⟩ | ⟨c, rest, h, rfl⟩ | ⟨b, rest, h, rfl⟩
  · exact absurd h hq
  · exact execUpFetch_of_END (c := c) (rest := rest ++ [decodeToken w]) (by simp [environmentMove, h])
  · exact execUpFetch_of_D (s := environmentMove (.feed .UP w) s) (rest := rest ++ [decodeToken w])
      (by simp [environmentMove, h])

theorem execUpSkip_feed {s t : State} (w : TokenWord) (he : execUpSkip s = .next t) (hq : s.inUp.queue ≠ []) :
    execUpSkip (environmentMove (.feed .UP w) s) = .next (environmentMove (.feed .UP w) t) := by
  rcases execUpSkip_cases he with ⟨h, -⟩ | ⟨c, rest, h, rfl⟩ | ⟨b, rest, h, rfl⟩
  · exact absurd h hq
  · exact execUpSkip_of_END (c := c) (rest := rest ++ [decodeToken w]) (by simp [environmentMove, h])
  · exact execUpSkip_of_D (s := environmentMove (.feed .UP w) s) (rest := rest ++ [decodeToken w])
      (by simp [environmentMove, h])

/-- The feed of a channel writes the unit it belongs to only, so an operation of the other unit does not see it. -/
theorem exec_feed_other {i : Instr} {s t : State} (w : TokenWord) (he : exec i s = .next t) :
    exec i (environmentMove (.feed (unitOf i).other w) s) = .next (environmentMove (.feed (unitOf i).other w) t) := by
  have h := exec_putUnit (environmentMove (.feed (unitOf i).other w) s) he
  have hframe := exec_frame he
  cases hu : unitOf i <;> rw [hu] at h hframe
  · exact h.trans (congrArg _ (by rw [hframe]; rfl))
  · exact h.trans (congrArg _ (by rw [hframe]; rfl))

/-! ### Frames (R235) -/

theorem frameResult_frame (vs : List Byte) (c : BitVec 4) :
    frameResult (frame vs c) = if c = 0 then some vs else none := by
  induction vs with
  | nil => rfl
  | cons v vs ih =>
    show (frameResult (frame vs c)).map (v :: ·) = _
    rw [ih]
    split <;> rfl

theorem frameResult_dataTokens (vs : List Byte) : frameResult (dataTokens vs) = none := by
  induction vs with
  | nil => rfl
  | cons v vs ih =>
    show (frameResult (dataTokens vs)).map (v :: ·) = none
    rw [ih]
    rfl

theorem dataTokens_append (vs ws : List Byte) : dataTokens (vs ++ ws) = dataTokens vs ++ dataTokens ws :=
  List.map_append

/-- A frame that is still being written stays without a result when nothing or a data token is appended. -/
theorem frameResult_open {a b : Channel} {before : List Token} {vs : List Byte}
    (ht : a.trace = before ++ dataTokens vs) (h : b = a ∨ ∃ v, b = a.push (.D v)) :
    ∃ ts, b.trace = before ++ ts ∧ frameResult ts = none := by
  rcases h with rfl | ⟨v, rfl⟩
  · exact ⟨_, ht, frameResult_dataTokens vs⟩
  · refine ⟨dataTokens (vs ++ [v]), ?_, frameResult_dataTokens _⟩
    rw [Channel.trace_push, ht, dataTokens_append, List.append_assoc]
    rfl

/-- The end token closes the frame that is being written. -/
theorem trace_push_END {a : Channel} {before : List Token} {vs : List Byte} (ht : a.trace = before ++ dataTokens vs)
    (c : BitVec 4) : (a.push (.END c)).trace = before ++ frame vs c := by
  rw [Channel.trace_push, ht, List.append_assoc]
  rfl

end Sys2Proof.Machine
end

section
/-! The statements about every operation, and the remaining ones about single micro-operations. -/

namespace Sys2Proof.Machine

/-- Settles O41: the ways into `FAILTERM` are those of fault entry, each with its cause. -/
theorem everyFaultHasItsCause : Obligations.EveryFaultHasItsCause := by
  refine fun i s t he => ⟨fun hs ht => ?_, fun hs ht => ?_⟩
  · rcases exec_pk_enters_failterm he hs ht with
      ⟨hi, hc, rfl⟩ | ⟨hi, v, rest, hq, hv, rfl⟩ | ⟨hi, c, rest, hq, rfl⟩
    · exact .inl ⟨hi, rfl, hc⟩
    · exact .inr (.inl ⟨hi, rfl, v, rest, hq, hv⟩)
    · exact .inr (.inr ⟨hi, rfl, c, rest, hq⟩)
  · rcases exec_up_enters_failterm he hs ht with ⟨hi, hc, rfl⟩ | ⟨hi, hp, rfl⟩ | ⟨hi, c, rest, hq, rfl⟩
    · exact .inl ⟨hi, rfl, hc⟩
    · exact .inr (.inl ⟨hi, rfl, topIndex_toNat _ _ ▸ hp⟩)
    · exact .inr (.inr ⟨hi, rfl, c, rest, hq⟩)

/-- Settles O45: the three readers of a token read what stands before the fed one, an operation of the other unit does not
see it, and the rest do not look at the channel. -/
theorem feedingEarlierChangesNothing : Obligations.FeedingEarlierChangesNothing := by
  intro i s t w hi he
  cases i <;> simp only [isHostOp, Bool.true_eq_false] at hi
  case pkAccum => exact ⟨fun hq => execPkAccum_feed w he (hq rfl), fun _ => exec_feed_other w he⟩
  case upFetch => exact ⟨fun _ => exec_feed_other w he, fun hq => execUpFetch_feed w he (hq (.inl rfl))⟩
  case upSkip => exact ⟨fun _ => exec_feed_other w he, fun hq => execUpSkip_feed w he (hq (.inr rfl))⟩
  case upExtract =>
    refine ⟨fun _ => exec_feed_other w he, fun _ => ?_⟩
    rcases execUpExtract_cases he with ⟨hp, rfl⟩ | ⟨hp, rfl⟩
    · exact execUpExtract_of_le (s := environmentMove (.feed .UP w) s) hp
    · exact execUpExtract_of_lt (s := environmentMove (.feed .UP w) s) hp
  all_goals cases he; exact ⟨fun _ => rfl, fun _ => rfl⟩

/-- Settles O46: each operation but `RESET` follows the arrows of its unit's graph. -/
theorem phaseChangesFollowTheGraph : Obligations.PhaseChangesFollowTheGraph := by
  refine fun i s t hs he => ⟨fun hne => ?_, fun hne => ?_⟩
  · by_cases hi : i = .pkReset
    · subst hi; cases he; exact .inl ⟨rfl, rfl⟩
    · exact .inr ((exec_follows_pk hs hi he).arrow hne)
  · by_cases hi : i = .upReset
    · subst hi; cases he; exact .inl ⟨rfl, rfl⟩
    · exact .inr ((exec_follows_up hs hi he).arrow hne)

/-- Settles O48: no other operation writes what `START` latches. -/
theorem onlyStartAndResetWriteTheActiveConfiguration : Obligations.OnlyStartAndResetWriteTheActiveConfiguration := by
  refine fun i s t he => ⟨fun h1 h2 => (UnitRegs.latched_eq_iff _ _).1 (exec_keeps_pk_latched h1 h2 he),
    fun h1 h2 => ?_⟩
  obtain ⟨hl, hP⟩ := exec_keeps_up_latched h1 h2 he
  obtain ⟨hW, hH, hS, hgeometry⟩ := (UnitRegs.latched_eq_iff _ _).1 hl
  exact ⟨hW, hH, hS, hP, hgeometry⟩

/-- Settles O58: an end token closes the frame that is being written, and every other operation appends nothing or one data
token to it. -/
theorem onlyAnEndZeroFrameIsAResult : Obligations.OnlyAnEndZeroFrameIsAResult := by
  refine ⟨fun vs c => ⟨by rw [frameResult_frame, if_pos rfl], fun hc => by rw [frameResult_frame, if_neg hc],
      frameResult_dataTokens vs⟩,
    fun s before vs ht => ⟨⟨_, _, rfl, trace_push_END ht 0, by rw [frameResult_frame, if_pos rfl]⟩,
      fun h hp => ⟨_, _, rfl, trace_push_END ht _, ?_⟩, fun i t h1 h2 he => frameResult_open ht (exec_outPk h1 h2 he)⟩,
    fun s before vs ht => ⟨⟨_, _, rfl, trace_push_END ht 0, by rw [frameResult_frame, if_pos rfl]⟩,
      fun h hp => ⟨_, _, rfl, trace_push_END ht _, ?_⟩, fun i t h1 h2 he => frameResult_open ht (exec_outUp h1 h2 he)⟩⟩
  · exact (frameResult_frame _ _).trans (if_neg (h.pk.unit.errcode_iff.2 (.inl hp)))
  · exact (frameResult_frame _ _).trans (if_neg (h.up.unit.errcode_iff.2 (.inl hp)))

/-- Settles O29: a reader of a token gives the state back when it finds none. -/
theorem anEmptyInputChannelIsWaitedOn : Obligations.AnEmptyInputChannelIsWaitedOn := by
  refine fun s => ⟨fun hq => ?_, fun hq => ⟨?_, ?_⟩⟩
  · rw [exec, execPkAccum, hq]
  · rw [exec, execUpFetch, hq]
  · rw [exec, execUpSkip, hq]

/-- Settles O36: the six operations give the state back. -/
theorem restingPhasesHaveNoStep : Obligations.RestingPhasesHaveNoStep :=
  fun _ => ⟨rfl, rfl, rfl, rfl, rfl, rfl⟩

/-- Settles O31: the invariant leaves room for one more index in the accumulator, and `COL` is below the width. -/
theorem pkAccumLosesNoBit : Obligations.PkAccumLosesNoBit := by
  intro s v rest h hp hq hv
  obtain ⟨-, hroom, hbitcnt⟩ := h.pk.accum_room hp
  obtain ⟨-, hcol⟩ := h.pk.accum hp
  refine ⟨_, execPkAccum_of_lt hq hv, assemble_toNat h.pk.acc_lt hroom hv, hbitcnt, ?_, rfl, hcol, ?_⟩
  · exact hbitcnt.trans_le hroom
  · exact Nat.lt_of_le_of_lt hcol h.fitPk.w

end Sys2Proof.Machine
end

section
/-! The functions `Pack` and `Unpack` (R170, R197): the geometry in closed form, the lanes of a byte, the rows of a packed
block, and the indices of an unpacked one, pixel by pixel. -/

namespace Sys2Proof.Machine

/-! ### Geometry (R138, R142) -/

theorem byteWidth_eq (w s : Nat) : byteWidth w s = (w * s + 7) / 8 := by
  unfold byteWidth bitPad bitsPerRow
  omega

theorem stride_eq_of_byteWidth (w s : Nat) : stride w s = 4 * ((byteWidth w s + 3) / 4) := by
  unfold stride bytePad
  omega

theorem stride_eq (w s : Nat) : stride w s = 4 * ((w * s + 31) / 32) := by
  rw [stride_eq_of_byteWidth, byteWidth_eq]
  omega

theorem stride_mod_four (w s : Nat) : stride w s % 4 = 0 := by
  rw [stride_eq]
  omega

/-- The bits of the pixels that share a byte fill it. -/
theorem mul_pixelsPerByte {s : Nat} (hs : s = 1 ∨ s = 4 ∨ s = 8) : s * pixelsPerByte s = 8 := by
  rcases hs with rfl | rfl | rfl <;> rfl

theorem pixelsPerByte_pos {s : Nat} (hs : s = 1 ∨ s = 4 ∨ s = 8) : 0 < pixelsPerByte s := by
  rcases hs with rfl | rfl | rfl <;> decide

/-- The byte of a row that holds a pixel, counted in pixels. -/
theorem mul_div_eight {s : Nat} (hs : s = 1 ∨ s = 4 ∨ s = 8) (c : Nat) : c * s / 8 = c / pixelsPerByte s := by
  rcases hs with rfl | rfl | rfl <;> simp only [pixelsPerByte] <;> omega

/-- The bits of the pixels before a pixel in its byte. -/
theorem mul_mod_eight {s : Nat} (hs : s = 1 ∨ s = 4 ∨ s = 8) (c : Nat) : c * s % 8 = s * (c % pixelsPerByte s) := by
  rcases hs with rfl | rfl | rfl <;> simp only [pixelsPerByte] <;> omega

/-- A pixel of a row stands in one of the bytes of the row. -/
theorem mul_div_eight_lt {w s c : Nat} (hs : s = 1 ∨ s = 4 ∨ s = 8) (hc : c < w) : c * s / 8 < byteWidth w s := by
  rw [byteWidth_eq]
  rcases hs with rfl | rfl | rfl <;> omega

/-! ### The lanes of a byte (R94, R170) -/

theorem laneSum_lt {s j : Nat} {vs : List Byte} (hlen : s * (j + vs.length) ≤ 8) (hv : ∀ v ∈ vs, v.toNat < 2 ^ s) :
    laneSum s j vs < 2 ^ (8 - s * j) := by
  induction vs generalizing j with
  | nil => exact Nat.two_pow_pos _
  | cons v vs ih =>
    have hlen' : s * (j + 1 + vs.length) ≤ 8 := by rwa [Nat.add_assoc, Nat.add_comm 1]
    have hj : s * (j + 1) ≤ 8 := (Nat.mul_le_mul_left s (Nat.le_add_right _ _)).trans hlen'
    have hrest := ih hlen' fun x hx => hv x (List.mem_cons_of_mem v hx)
    calc v.toNat * 2 ^ (8 - s * (j + 1)) + laneSum s (j + 1) vs
        < (v.toNat + 1) * 2 ^ (8 - s * (j + 1)) := by rw [Nat.add_mul, Nat.one_mul]; omega
      _ ≤ 2 ^ s * 2 ^ (8 - s * (j + 1)) := Nat.mul_le_mul_right _ (hv v List.mem_cons_self)
      _ = 2 ^ (8 - s * j) := by rw [← Nat.pow_add]; congr 1; rw [Nat.mul_add] at hj ⊢; omega

/-- The bits of a lane are the index that was put there. -/
theorem laneSum_div_mod {s j : Nat} {vs : List Byte} (hlen : s * (j + vs.length) ≤ 8)
    (hv : ∀ v ∈ vs, v.toNat < 2 ^ s) (i : Nat) (hi : i < vs.length) :
    laneSum s j vs / 2 ^ (8 - s * (j + i + 1)) % 2 ^ s = vs[i].toNat := by
  induction vs generalizing j i with
  | nil => exact absurd hi (Nat.not_lt_zero i)
  | cons v vs ih =>
    have hlen' : s * (j + 1 + vs.length) ≤ 8 := by rwa [Nat.add_assoc, Nat.add_comm 1]
    have hv' : ∀ x ∈ vs, x.toNat < 2 ^ s := fun x hx => hv x (List.mem_cons_of_mem v hx)
    rw [laneSum, Nat.mul_comm v.toNat]
    match i with
    | 0 =>
      rw [Nat.add_zero, Nat.mul_add_div (Nat.two_pow_pos _), Nat.div_eq_of_lt (laneSum_lt hlen' hv'), Nat.add_zero]
      exact Nat.mod_eq_of_lt (hv v List.mem_cons_self)
    | i + 1 =>
      have hi' : i < vs.length := Nat.lt_of_succ_lt_succ hi
      have hle : s * (j + 1 + i + 1) ≤ 8 := (Nat.mul_le_mul_left s (by omega)).trans hlen'
      have hexp : 8 - s * (j + 1) = 8 - s * (j + 1 + i + 1) + s + s * i := by
        simp only [Nat.mul_add] at hle ⊢; omega
      have hj : j + (i + 1) + 1 = j + 1 + i + 1 := by omega
      rw [hj, hexp, Nat.pow_add, Nat.pow_add, Nat.mul_assoc, Nat.mul_assoc, Nat.mul_add_div (Nat.two_pow_pos _),
        Nat.mul_add_mod, ih hlen' hv' i hi']
      rfl

/-- Nothing stands below the last lane. -/
theorem pow_dvd_laneSum (s j : Nat) (vs : List Byte) : 2 ^ (8 - s * (j + vs.length)) ∣ laneSum s j vs := by
  induction vs generalizing j with
  | nil => exact Nat.dvd_zero _
  | cons v vs ih =>
    have hlast : j + (v :: vs).length = j + 1 + vs.length := by rw [List.length_cons]; omega
    rw [hlast]
    have hle : 8 - s * (j + 1 + vs.length) ≤ 8 - s * (j + 1) :=
      Nat.sub_le_sub_left (Nat.mul_le_mul_left s (Nat.le_add_right _ _)) 8
    exact Nat.dvd_add ((Nat.pow_dvd_pow 2 hle).mul_left _) (ih (j + 1))

/-- An index put into the next lane. -/
theorem laneSum_append (s j : Nat) (vs : List Byte) (v : Byte) :
    laneSum s j (vs ++ [v]) = laneSum s j vs + v.toNat * 2 ^ (8 - s * (j + vs.length + 1)) := by
  induction vs generalizing j with
  | nil => simp [laneSum]
  | cons x vs ih =>
    have hlane : j + 1 + vs.length + 1 = j + (vs.length + 1) + 1 := by omega
    rw [List.cons_append, laneSum, laneSum, ih, List.length_cons, hlane]
    exact (Nat.add_assoc _ _ _).symm

theorem packByte_toNat {s : Nat} {vs : List Byte} (hlen : s * vs.length ≤ 8) (hv : ∀ v ∈ vs, v.toNat < 2 ^ s) :
    (packByte s vs).toNat = laneSum s 0 vs := by
  rw [packByte, BitVec.toNat_ofNat]
  exact Nat.mod_eq_of_lt (laneSum_lt (j := 0) (by rwa [Nat.zero_add]) hv)

/-- A lane of a packed byte is the index that was put there. -/
theorem lane_packByte {s : Nat} {vs : List Byte} (hlen : s * vs.length ≤ 8) (hv : ∀ v ∈ vs, v.toNat < 2 ^ s) (j : Nat)
    (hj : j < vs.length) : lane s (packByte s vs) j = vs[j] := by
  have h := laneSum_div_mod (j := 0) (by rwa [Nat.zero_add]) hv j hj
  rw [Nat.zero_add] at h
  rw [lane, packByte_toNat hlen hv, h, BitVec.ofNat_toNat, BitVec.setWidth_eq]

/-- Indices that share a byte fit into it. -/
theorem mul_length_le {s : Nat} (hs : s = 1 ∨ s = 4 ∨ s = 8) {vs : List Byte} (h : vs.length ≤ pixelsPerByte s) :
    s * vs.length ≤ 8 :=
  (Nat.mul_le_mul_left s h).trans_eq (mul_pixelsPerByte hs)

/-! ### Blocks of equal length, one after another -/

theorem length_flatMap_range {α : Type} {f : Nat → List α} {n : Nat} (hf : ∀ r, (f r).length = n) (h : Nat) :
    ((List.range h).flatMap f).length = h * n := by
  simp [List.length_flatMap, hf]

theorem flatMap_range_succ {α : Type} (f : Nat → List α) (h : Nat) :
    (List.range (h + 1)).flatMap f = (List.range h).flatMap f ++ f h := by
  rw [List.range_succ, List.flatMap_append, List.flatMap_singleton]

/-- A block is found at its offset. -/
theorem take_drop_flatMap_range {α : Type} {f : Nat → List α} {n : Nat} (hf : ∀ r, (f r).length = n) {r h : Nat}
    (hr : r < h) : (((List.range h).flatMap f).drop (r * n)).take n = f r := by
  induction h with
  | zero => exact absurd hr (Nat.not_lt_zero r)
  | succ h ih =>
    have hlen := length_flatMap_range hf h
    rw [flatMap_range_succ]
    rcases Nat.lt_succ_iff_lt_or_eq.1 hr with hlt | rfl
    · have hle : r * n + n ≤ h * n := by rw [← Nat.succ_mul]; exact Nat.mul_le_mul_right n hlt
      rw [List.drop_append_of_le_length (by omega), List.take_append_of_le_length (by rw [List.length_drop]; omega)]
      exact ih hlt
    · rw [← hlen, List.drop_left, ← hf r, List.take_length]

/-! ### The rows of a packed block (R96, R97, R170) -/

theorem packRow_length (w s : Nat) (row : List Byte) : (packRow w s row).length = stride w s := by
  simp [packRow, stride]

theorem pack_length (w h s : Nat) (idx : List Byte) : (pack w h s idx).length = h * stride w s :=
  length_flatMap_range (fun _ => packRow_length w s _) h

theorem pack_row {w h s r : Nat} (idx : List Byte) (hr : r < h) :
    ((pack w h s idx).drop (r * stride w s)).take (stride w s) = packRow w s ((idx.drop (r * w)).take w) :=
  take_drop_flatMap_range (fun r => packRow_length w s ((idx.drop (r * w)).take w)) hr

/-- The pixels of a row that share its byte `m`. -/
def rowChunk (s m : Nat) (row : List Byte) : List Byte := (row.drop (m * pixelsPerByte s)).take (pixelsPerByte s)

/-- A pixel byte of a packed block. -/
theorem pack_getD {w h s r m : Nat} (idx : List Byte) (hr : r < h) (hm : m < byteWidth w s) :
    (pack w h s idx).getD (r * stride w s + m) 0 = packByte s (rowChunk s m ((idx.drop (r * w)).take w)) := by
  have hms : m < stride w s := hm.trans_le (Nat.le_add_right _ _)
  have hrow : (pack w h s idx).getD (r * stride w s + m) 0 =
      (packRow w s ((idx.drop (r * w)).take w)).getD m 0 := by
    rw [← pack_row idx hr]
    simp [List.getD_eq_getElem?_getD, hms]
  rw [hrow, packRow]
  simp [List.getD_eq_getElem?_getD, List.getElem?_append, hm, rowChunk]

/-! ### The indices of a block, pixel by pixel (R197) -/

/-- The pixels in row-major order, numbered from 0 on. -/
theorem unpack_eq_map (w h s : Nat) (bs : List Byte) :
    unpack w h s bs = (List.range (w * h)).map fun k => indexAt w s bs (k / w) (k % w) := by
  unfold unpack
  induction h with
  | zero => rfl
  | succ h ih =>
    rw [flatMap_range_succ, ih, Nat.mul_succ, List.range_add, List.map_append, List.map_map]
    refine congrArg _ (List.map_congr_left fun c hc => ?_)
    have hcw : c < w := List.mem_range.1 hc
    have hw : 0 < w := Nat.zero_lt_of_lt hcw
    show _ = indexAt w s bs ((w * h + c) / w) ((w * h + c) % w)
    rw [Nat.mul_add_div hw, Nat.mul_add_mod, Nat.div_eq_of_lt hcw, Nat.mod_eq_of_lt hcw, Nat.add_zero]

/-- Blocks with the same indices at every pixel unpack to the same list. -/
theorem unpack_congr {w h s : Nat} {bs bs' : List Byte}
    (hix : ∀ r c, r < h → c < w → indexAt w s bs r c = indexAt w s bs' r c) :
    unpack w h s bs = unpack w h s bs' := by
  unfold unpack
  refine List.flatMap_congr fun r hr => List.map_congr_left fun c hc => ?_
  exact hix r c (List.mem_range.1 hr) (List.mem_range.1 hc)

/-- The index at a pixel of a packed block is the index that was packed. -/
theorem indexAt_pack {w h s r c : Nat} {idx : List Byte} (hs : s = 1 ∨ s = 4 ∨ s = 8)
    (hv : ∀ v ∈ idx, v.toNat < 2 ^ s) (hr : r < h) (hc : c < w) (hrc : r * w + c < idx.length) :
    indexAt w s (pack w h s idx) r c = idx[r * w + c] := by
  have hppb := pixelsPerByte_pos hs
  have hdm := Nat.div_add_mod' c (pixelsPerByte s)
  have hlane := Nat.mod_lt c hppb
  rw [indexAt, pixelByteAt, pack_getD idx hr (mul_div_eight_lt hs hc), mul_div_eight hs]
  generalize hch : rowChunk s (c / pixelsPerByte s) ((idx.drop (r * w)).take w) = chunk
  have hget : chunk[c % pixelsPerByte s]? = some idx[r * w + c] := by
    rw [← hch, rowChunk, List.getElem?_take_of_lt hlane, List.getElem?_drop, hdm, List.getElem?_take_of_lt hc,
      List.getElem?_drop, List.getElem?_eq_getElem hrc]
  have hmem : ∀ v ∈ chunk, v.toNat < 2 ^ s := fun v hvc => by
    rw [← hch, rowChunk] at hvc
    exact hv v (List.mem_of_mem_drop (List.mem_of_mem_take (List.mem_of_mem_drop (List.mem_of_mem_take hvc))))
  have hle : chunk.length ≤ pixelsPerByte s := by rw [← hch, rowChunk]; exact List.length_take_le _ _
  obtain ⟨hlt, hval⟩ := List.getElem?_eq_some_iff.1 hget
  rw [lane_packByte (mul_length_le hs hle) hmem _ hlt, hval]

/-- Unpacking a packing gives the indices back (R200). -/
theorem unpack_pack {w h s : Nat} {idx : List Byte} (hs : s = 1 ∨ s = 4 ∨ s = 8) (hlen : idx.length = w * h)
    (hv : ∀ v ∈ idx, v.toNat < 2 ^ s) : unpack w h s (pack w h s idx) = idx := by
  rw [unpack_eq_map, ← hlen]
  refine List.ext_getElem (by rw [List.length_map, List.length_range]) fun k hk hk' => ?_
  have hkw : k < w * h := hlen ▸ hk'
  have hw : 0 < w := Nat.pos_of_mul_pos_right (Nat.zero_lt_of_lt hkw)
  have hdm := Nat.div_add_mod' k w
  rw [List.getElem_map, List.getElem_range,
    indexAt_pack hs hv (Nat.div_lt_of_lt_mul hkw) (Nat.mod_lt k hw) (by rwa [hdm])]
  simp only [hdm]

/-! ### Padding (R199) -/

/-- A lane looks at the bits from its own on. -/
theorem lane_congr {s j k : Nat} {b b' : Byte} (hk : k ≤ 8 - s * (j + 1)) (h : b.toNat / 2 ^ k = b'.toNat / 2 ^ k) :
    lane s b j = lane s b' j := by
  have hsplit : 2 ^ (8 - s * (j + 1)) = 2 ^ k * 2 ^ (8 - s * (j + 1) - k) := by rw [← Nat.pow_add, Nat.add_sub_cancel' hk]
  rw [lane, lane, hsplit, ← Nat.div_div_eq_div_mul, ← Nat.div_div_eq_div_mul, h]

/-- The lane of a pixel in the last byte of its row is above the bit padding. -/
theorem bitPad_le_lane {w s c : Nat} (hs : s = 1 ∨ s = 4 ∨ s = 8) (hc : c < w) (hlast : c * s / 8 = byteWidth w s - 1) :
    bitPad w s ≤ 8 - s * (c % pixelsPerByte s + 1) := by
  have h8 := eight_mul_byteWidth w s
  rw [Nat.mul_add, ← mul_mod_eight hs]
  rcases hs with rfl | rfl | rfl <;> omega

end Sys2Proof.Machine
end

section
/-! The statements about the geometry and the functions `Pack` and `Unpack` (40_host_commands, 41_packer, 42_unpacker). -/

namespace Sys2Proof.Machine

/-- Settles O25: the closed forms for any number of bits in a row, then for each depth in pixels. -/
theorem geometryClosedForms : Obligations.GeometryClosedForms := by
  intro w s hw hs
  have h8 := eight_mul_byteWidth w s
  have hlt := bitPad_lt w s
  refine ⟨byteWidth_eq w s, stride_eq w s, stride_eq_of_byteWidth w s, ?_, ?_, ?_, Nat.le_of_lt_succ hlt, ?_, ?_,
    Nat.le_of_lt_succ (bytePad_lt w s), stride_mod_four w s, byteWidth_pos hw hs, byteWidth_le hs, ?_⟩
  · rintro rfl; unfold bitPad bitsPerRow at *; omega
  · rintro rfl; split <;> omega
  · rintro rfl; omega
  · rcases hs with rfl | rfl | rfl <;> omega
  · rcases hs with rfl | rfl | rfl <;> omega
  · rcases hs with rfl | rfl | rfl <;> simp only [pixelsPerByte] <;> omega

/-- Settles O49: the sum over the lanes is cut at each lane. -/
theorem indexStandsInItsLane : Obligations.IndexStandsInItsLane := by
  intro s vs hs hlen hv
  have hle := mul_length_le hs hlen
  refine ⟨fun j hj => lane_packByte hle hv j hj, ?_⟩
  rw [packByte_toNat hle hv, ← Nat.zero_add vs.length]
  exact Nat.mod_eq_zero_of_dvd (pow_dvd_laneSum s 0 vs)

/-- Settles O50: the rows are blocks of `STRIDE` bytes, which is a multiple of 4. -/
theorem packedRowsAreAligned : Obligations.PackedRowsAreAligned := by
  refine fun w h s idx => ⟨pack_length w h s idx, ?_, fun r hr => pack_row idx hr⟩
  rw [pack_length, Nat.mul_mod, stride_mod_four, Nat.mul_zero, Nat.zero_mod]

/-- Settles O51, pixel by pixel. -/
theorem unpackInvertsPack : Obligations.UnpackInvertsPack :=
  fun _ _ _ _ _ _ hs hlen hv => unpack_pack hs hlen hv

/-- Settles O52: a pixel that is not in the last byte of its row finds the same byte, and one that is looks above the bit
padding only. -/
theorem paddingDoesNotMatter : Obligations.PaddingDoesNotMatter := by
  refine fun w h s bs bs' hw hs hfull hlast => unpack_congr fun r c hr hc => ?_
  have hlt := mul_div_eight_lt hs hc
  rw [indexAt, indexAt, pixelByteAt]
  by_cases hm : c * s / 8 + 1 < byteWidth w s
  · rw [hfull r _ hr hm]
  · have hm' : c * s / 8 = byteWidth w s - 1 := by omega
    refine lane_congr (bitPad_le_lane hs hc hm') ?_
    rw [hm']
    exact hlast r hr

end Sys2Proof.Machine
end

section
/-! Runs of one unit: its micro-operations one after another, whatever follows on the agenda (log 2), and a whole transform
from `START` on. Each micro-operation but the last of a transform takes one token or appends one, so that a run needs as
many steps as tokens pass. -/

namespace Sys2Proof.Machine

/-! ### Several steps -/

/-- Steps one after another. -/
theorem run_add {m n : Nat} {s a : State} (h : Host.Core.run Sys2Proof.core m s = .next a) :
    Host.Core.run Sys2Proof.core (m + n) s = Host.Core.run Sys2Proof.core n a := by
  induction m generalizing s with
  | zero =>
    obtain rfl : s = a := Host.Outcome.next.inj h
    rw [Nat.zero_add]
  | succ m ih =>
    rw [Nat.succ_add]
    simp only [Host.Core.run] at h ⊢
    cases hs : Sys2Proof.core.step s with
    | next b => rw [hs] at h; exact ih h
    | fault f => rw [hs] at h; cases h
    | refused r => rw [hs] at h; cases h

theorem run_one {s t : State} (h : step s = .next t) : Host.Core.run Sys2Proof.core 1 s = .next t := by
  simp only [Host.Core.run, Sys2Proof.core, h]

/-- From `s` the next `n` moves of the unit lead to `t`, whatever follows on the agenda. -/
def Takes (u : UnitId) (n : Nat) (s t : State) : Prop :=
  ∀ moves : List Move,
    Host.Core.run Sys2Proof.core n { s with agenda := List.replicate n (.microOp u) ++ moves } =
      .next { t with agenda := moves }

theorem Takes.refl (u : UnitId) (s : State) : Takes u 0 s s := fun _ => rfl

theorem Takes.trans {u : UnitId} {m n : Nat} {s a t : State} (h₁ : Takes u m s a) (h₂ : Takes u n a t) :
    Takes u (m + n) s t := by
  intro moves
  rw [List.replicate_add, List.append_assoc, run_add (h₁ _)]
  exact h₂ moves

/-- No operation looks at the agenda. -/
theorem exec_agenda {i : Instr} {s t : State} (he : exec i s = .next t) (moves : List Move) :
    exec i { s with agenda := moves } = .next { t with agenda := moves } := by
  have h := exec_putUnit { s with agenda := moves } he
  have ht : t.putUnit (unitOf i) { s with agenda := moves } = { t with agenda := moves } := by
    rw [exec_frame he]
    cases unitOf i <;> rfl
  have hs : s.putUnit (unitOf i) { s with agenda := moves } = { s with agenda := moves } := by
    cases unitOf i <;> rfl
  rwa [ht, hs] at h

/-- One step of the unit, which its phase selects. -/
theorem Takes.one {u : UnitId} {i : Instr} {s t : State} (hd : decode (.phase u (s.phaseOf u)) = .ok i)
    (he : exec i s = .next t) : Takes u 1 s t := fun moves =>
  run_one ((step_of_microOp rfl (by rw [← hd]; cases u <;> rfl)).trans (exec_agenda he moves))

/-! ### A whole transform -/

/-- The `START` of a unit. -/
def startOf : UnitId → Instr
  | .PK => .pkStart
  | .UP => .upStart

/-- The write with which a transform begins is the `START` of its unit, since a legal width has room for the word 1. -/
theorem atWidth_startDescriptor {c : Config} (hc : c.legal = true) (unit : Nat) :
    (descriptorOf unit 1 0 1).atWidth c.REGW = descriptorOf unit 1 0 1 :=
  atWidth_of_lt (Nat.one_lt_two_pow (by have := of_decide_eq_true hc; omega))

/-- A transform run by itself: `START`, then the steps of the unit. -/
theorem Takes.transform {u : UnitId} {n : Nat} {s a t : State} (hc : s.cfg.legal = true)
    (hs : exec (startOf u) s = .next a) (h : Takes u n a t) (moves : List Move) :
    Host.Core.run Sys2Proof.core (1 + n) { s with agenda := transformAgenda u n moves } =
      .next { t with agenda := moves } := by
  have hstart : step { s with agenda := transformAgenda u n moves } =
      .next { a with agenda := List.replicate n (.microOp u) ++ moves } := by
    refine (step_of_host rfl ?_).trans (exec_agenda hs _)
    cases u <;> (rw [atWidth_startDescriptor hc]; rfl)
  rw [run_add (run_one hstart)]
  exact h moves

/-! ### Runs of the unpacker -/

/-- From the registers `p` to the registers `q` the unpacker takes the bytes `bs` and gives out the indices `vs`, in as many
steps. -/
def Unpacker.Runs (p : Unpacker) (bs vs : List Byte) (q : Unpacker) : Prop :=
  ∀ (s : State) (rest : List Token), s.up = p → s.inUp.queue = dataTokens bs ++ rest →
    Takes .UP (bs.length + vs.length) s
      { s with up := q, inUp := ⟨s.inUp.passed ++ dataTokens bs, rest⟩,
               outUp := ⟨s.outUp.passed, s.outUp.queue ++ dataTokens vs⟩ }

theorem Unpacker.Runs.refl (p : Unpacker) : p.Runs [] [] p := by
  rintro s rest rfl hq
  obtain rfl : s.inUp.queue = rest := hq
  simpa [dataTokens] using Takes.refl .UP s

theorem Unpacker.Runs.trans {p q r : Unpacker} {bs bs' vs vs' : List Byte} (h₁ : p.Runs bs vs q)
    (h₂ : q.Runs bs' vs' r) : p.Runs (bs ++ bs') (vs ++ vs') r := by
  rintro s rest hp hq
  rw [dataTokens_append, List.append_assoc] at hq
  have h := (h₁ s _ hp hq).trans (h₂ _ rest rfl rfl)
  rw [Nat.add_add_add_comm, ← List.length_append, ← List.length_append] at h
  simpa only [dataTokens_append, List.append_assoc] using h

theorem Unpacker.Runs.fetch {p : Unpacker} (hp : p.PHASE = 1#4) (b : Byte) : p.Runs [b] [] (p.load b) := by
  rintro s rest rfl hq
  have h := Takes.one (u := .UP) (i := .upFetch) (by rw [State.phaseOf_up, hp]; rfl) (execUpFetch_of_D hq)
  simpa [dataTokens] using h

theorem Unpacker.Runs.skip {p : Unpacker} (hp : p.PHASE = 3#4) (b : Byte) : p.Runs [b] [] p.skipByte := by
  rintro s rest rfl hq
  have h := Takes.one (u := .UP) (i := .upSkip) (by rw [State.phaseOf_up, hp]; rfl) (execUpSkip_of_D hq)
  simpa [dataTokens] using h

theorem Unpacker.Runs.extract {p : Unpacker} (hp : p.PHASE = 2#4) (hix : (topIndex p.S p.SHREG).toNat < p.P) :
    p.Runs [] [topIndex p.S p.SHREG] p.advance := by
  rintro s rest rfl hq
  obtain rfl : s.inUp.queue = rest := hq
  have h := Takes.one (u := .UP) (i := .upExtract) (by rw [State.phaseOf_up, hp]; rfl) (execUpExtract_of_lt hix)
  simpa [dataTokens, Channel.push_eq] using h

/-! ### Runs of the packer -/

/-- From the registers `p` to the registers `q` the packer takes the indices `vs` and emits the bytes `bs`, in as many
steps. -/
def Packer.Runs (p : Packer) (vs bs : List Byte) (q : Packer) : Prop :=
  ∀ (s : State) (rest : List Token), s.pk = p → s.inPk.queue = dataTokens vs ++ rest →
    Takes .PK (vs.length + bs.length) s
      { s with pk := q, inPk := ⟨s.inPk.passed ++ dataTokens vs, rest⟩,
               outPk := ⟨s.outPk.passed, s.outPk.queue ++ dataTokens bs⟩ }

theorem Packer.Runs.refl (p : Packer) : p.Runs [] [] p := by
  rintro s rest rfl hq
  obtain rfl : s.inPk.queue = rest := hq
  simpa [dataTokens] using Takes.refl .PK s

theorem Packer.Runs.trans {p q r : Packer} {vs vs' bs bs' : List Byte} (h₁ : p.Runs vs bs q)
    (h₂ : q.Runs vs' bs' r) : p.Runs (vs ++ vs') (bs ++ bs') r := by
  rintro s rest hp hq
  rw [dataTokens_append, List.append_assoc] at hq
  have h := (h₁ s _ hp hq).trans (h₂ _ rest rfl rfl)
  rw [Nat.add_add_add_comm, ← List.length_append, ← List.length_append] at h
  simpa only [dataTokens_append, List.append_assoc] using h

theorem Packer.Runs.accum {p : Packer} (hp : p.PHASE = 1#4) {v : Byte} (hv : v.toNat < 2 ^ p.S.toNat) :
    p.Runs [v] [] (p.accumulate v) := by
  rintro s rest rfl hq
  have h := Takes.one (u := .PK) (i := .pkAccum) (by rw [State.phaseOf_pk, hp]; rfl) (execPkAccum_of_lt hq hv)
  simpa [dataTokens] using h

/-- A micro-operation that emits one byte and leaves the registers `q`. -/
theorem Packer.Runs.emitByte {p q : Packer} {i : Instr} {b : Byte} (hp : decode (.phase .PK p.PHASE) = .ok i)
    (he : ∀ s : State, s.pk = p → exec i s = .next { s with pk := q, outPk := s.outPk.push (.D b) }) :
    p.Runs [] [b] q := by
  rintro s rest rfl hq
  obtain rfl : s.inPk.queue = rest := hq
  simpa [dataTokens, Channel.push_eq] using Takes.one (u := .PK) hp (he s rfl)

theorem Packer.Runs.emit {p : Packer} (hp : p.PHASE = 2#4) :
    p.Runs [] [p.ACC] (if p.COL = p.W then p.clearAcc.rowEnd else { p.clearAcc with PHASE := Phase.accum }) :=
  .emitByte (i := .pkEmit) (by rw [hp]; rfl) (by rintro s rfl; rfl)

theorem Packer.Runs.flush {p : Packer} (hp : p.PHASE = 3#4) :
    p.Runs [] [alignTop p.BITPAD p.ACC] p.clearAcc.rowEnd :=
  .emitByte (i := .pkFlush) (by rw [hp]; rfl) (by rintro s rfl; rfl)

theorem Packer.Runs.pad {p : Packer} (hp : p.PHASE = 4#4) :
    p.Runs [] [0] (if p.PADCNT - 1 = 0#2 then { p with PADCNT := p.PADCNT - 1 }.nextRow
                   else { p with PADCNT := p.PADCNT - 1, PHASE := Phase.pad }) :=
  .emitByte (i := .pkPad) (by rw [hp]; rfl) (by rintro s rfl; rfl)

end Sys2Proof.Machine
end

section
/-! The pixels of an image in row-major order, numbered from 0 on, and the byte of the packed block that holds each. -/

namespace Sys2Proof.Machine

/-- The offset of the byte that holds pixel `q` (R94, R97). -/
def byteOf (w s q : Nat) : Nat := pixelByteAt w s (q / w) (q % w)

/-- From a pixel to the next one: within a byte, to the next byte of the row, or over the padding to the next row. -/
theorem byteOf_succ_cases {w s : Nat} (hw : 1 ≤ w) (hs : s = 1 ∨ s = 4 ∨ s = 8) (q : Nat) :
    (q % w + 1 ≠ w ∧ (q % w + 1) * s % 8 ≠ 0 ∧ (q + 1) / w = q / w ∧ (q + 1) % w = q % w + 1 ∧
      byteOf w s (q + 1) = byteOf w s q) ∨
    (q % w + 1 ≠ w ∧ (q % w + 1) * s % 8 = 0 ∧ (q + 1) / w = q / w ∧ (q + 1) % w = q % w + 1 ∧
      byteOf w s (q + 1) = byteOf w s q + 1) ∨
    (q % w + 1 = w ∧ (q + 1) / w = q / w + 1 ∧ (q + 1) % w = 0 ∧
      byteOf w s (q + 1) = byteOf w s q + 1 + bytePad w s) := by
  have hdm := Nat.div_add_mod q w
  have hlt := Nat.mod_lt q hw
  by_cases hend : q % w + 1 = w
  · have hq : q + 1 = w * (q / w + 1) := by rw [Nat.mul_add]; omega
    have hdiv : (q + 1) / w = q / w + 1 := by rw [hq, Nat.mul_div_cancel_left _ hw]
    have hmod : (q + 1) % w = 0 := by rw [hq, Nat.mul_mod_right]
    refine .inr (.inr ⟨hend, hdiv, hmod, ?_⟩)
    have hlast : q % w * s / 8 + 1 = byteWidth w s := by
      have hwe : w * s = (q % w + 1) * s := by rw [hend]
      rw [byteWidth_eq, hwe]
      rcases hs with rfl | rfl | rfl <;> omega
    rw [byteOf, byteOf, hdiv, hmod, pixelByteAt, pixelByteAt, Nat.add_mul, Nat.zero_mul, stride]
    omega
  · have hq : q + 1 = w * (q / w) + (q % w + 1) := by omega
    have hlt' : q % w + 1 < w := Nat.lt_of_le_of_ne hlt hend
    have hdiv : (q + 1) / w = q / w := by rw [hq, Nat.mul_add_div hw, Nat.div_eq_of_lt hlt', Nat.add_zero]
    have hmod : (q + 1) % w = q % w + 1 := by rw [hq, Nat.mul_add_mod, Nat.mod_eq_of_lt hlt']
    have hbyte : byteOf w s (q + 1) = q / w * stride w s + (q % w + 1) * s / 8 := by rw [byteOf, hdiv, hmod, pixelByteAt]
    rw [hbyte, byteOf, pixelByteAt]
    by_cases h0 : (q % w + 1) * s % 8 = 0
    · refine .inr (.inl ⟨hend, h0, hdiv, hmod, ?_⟩)
      rcases hs with rfl | rfl | rfl <;> omega
    · refine .inl ⟨hend, h0, hdiv, hmod, ?_⟩
      rcases hs with rfl | rfl | rfl <;> omega

theorem byteOf_le_succ {w s : Nat} (hw : 1 ≤ w) (hs : s = 1 ∨ s = 4 ∨ s = 8) (q : Nat) :
    byteOf w s q ≤ byteOf w s (q + 1) := by
  rcases byteOf_succ_cases hw hs q with ⟨-, -, -, -, e⟩ | ⟨-, -, -, -, e⟩ | ⟨-, -, -, e⟩ <;> rw [e] <;> omega

theorem byteOf_zero (w s : Nat) : byteOf w s 0 = 0 := by
  simp [byteOf, pixelByteAt]

/-- The first pixel of a row. -/
theorem byteOf_mul {w : Nat} (hw : 1 ≤ w) (s r : Nat) : byteOf w s (r * w) = r * stride w s := by
  simp [byteOf, pixelByteAt, Nat.mul_div_cancel _ hw]

/-- The bits before a pixel in its byte, and its own bits, have room in the byte. -/
theorem bits_add_le {s : Nat} (hs : s = 1 ∨ s = 4 ∨ s = 8) (c : Nat) : c * s % 8 + s ≤ 8 := by
  rcases hs with rfl | rfl | rfl <;> omega

/-- One more pixel of the same byte. -/
theorem bits_succ {s : Nat} (hs : s = 1 ∨ s = 4 ∨ s = 8) {c : Nat} (h : (c + 1) * s % 8 ≠ 0) :
    (c + 1) * s % 8 = c * s % 8 + s := by
  rcases hs with rfl | rfl | rfl <;> omega

/-- The last pixel of a whole byte. -/
theorem bits_full {s : Nat} (hs : s = 1 ∨ s = 4 ∨ s = 8) {c : Nat} : (c + 1) * s % 8 = 0 ↔ c * s % 8 + s = 8 := by
  rcases hs with rfl | rfl | rfl <;> omega

/-- One padding byte less. -/
theorem padcnt_sub_one {k : BitVec 2} {n : Nat} (h : k.toNat = n + 1) : (k - 1).toNat = n := by
  have hlt := k.isLt
  have h1 : (1 : BitVec 2).toNat = 1 := rfl
  rw [BitVec.toNat_sub, h, h1]
  omega

/-- The indices of a block that stand before pixel `q`, and the index at it. -/
theorem unpack_take_succ {w h s q : Nat} (bs : List Byte) (hq : q < w * h) :
    (unpack w h s bs).take (q + 1) = (unpack w h s bs).take q ++ [indexAt w s bs (q / w) (q % w)] := by
  have hlen : q < (unpack w h s bs).length := by rwa [unpack_eq_map, List.length_map, List.length_range]
  rw [List.take_succ_eq_append_getElem hlen]
  simp [unpack_eq_map]

end Sys2Proof.Machine
end

section
/-! The registers of the unpacker over a transform: between the bytes, before each pixel, and after the last one (R191 to
R194). -/

namespace Sys2Proof.Machine

/-- The unpacker in a transform of this configuration. -/
structure Unpacker.Running (w h d pl : Nat) (p : Unpacker) : Prop where
  inv : UpInv p
  width : p.W = w
  height : p.H = h
  depth : p.S.toNat = d
  palette : p.P = pl

/-- All bytes before pixel `q` are taken but `k` padding bytes, and all indices before it are given out. -/
structure Unpacker.Waiting (w h d pl q k : Nat) (p : Unpacker) : Prop extends Unpacker.Running w h d pl p where
  fetching : k = 0 → p.PHASE = 1#4
  skipping : k ≠ 0 → p.PHASE = 3#4 ∧ p.PADCNT.toNat = k
  row : p.ROW = q / w
  col : p.COL = q % w

/-- The byte `b` of pixel `q` is taken, and all indices before the pixel are given out. -/
structure Unpacker.AtPixel (w h d pl q : Nat) (b : Byte) (p : Unpacker) : Prop extends Unpacker.Running w h d pl p where
  phase : p.PHASE = 2#4
  row : p.ROW = q / w
  col : p.COL = q % w
  shreg : p.SHREG.toNat = b.toNat * 2 ^ (q % w * d % 8) % 2 ^ 8

/-- All indices are given out. -/
structure Unpacker.Finished (w h d pl : Nat) (p : Unpacker) : Prop extends Unpacker.Running w h d pl p where
  phase : p.PHASE = 5#4
  row : p.ROW = h
  col : p.COL = 0

/-- A transform keeps its configuration. -/
theorem Unpacker.Running.next {w h d pl : Nat} {p q : Unpacker} (hp : p.Running w h d pl) (hinv : UpInv q)
    (hl : q.latched = p.latched) (hP : q.P = p.P) : q.Running w h d pl := by
  obtain ⟨hW, hH, hS, -⟩ := (UnitRegs.latched_eq_iff _ _).1 hl
  exact ⟨hinv, hW.trans hp.width, hH.trans hp.height, by rw [hS]; exact hp.depth, hP.trans hp.palette⟩

theorem Unpacker.Running.depth_cases {w h d pl : Nat} {p : Unpacker} (hp : p.Running w h d pl)
    (h1 : 1 ≤ p.PHASE.toNat) (h6 : p.PHASE.toNat ≤ 6) : d = 1 ∨ d = 4 ∨ d = 8 := by
  rw [← hp.depth]
  rcases (hp.inv.unit.active h1 h6).depth with e | e | e <;> rw [e] <;> decide

/-- `START` begins a transform before pixel 0. -/
theorem Unpacker.latch_waiting {p : Unpacker} (hc : p.configLegal = true) :
    p.latch.Waiting p.WIDTH p.HEIGHT p.DEPTH p.PAL_LEN 0 0 where
  inv := ⟨UnitInv.latch hc, by simp, by simp, fun _ => ⟨legal_width hc, by simp⟩, by simp, by simp⟩
  width := rfl
  height := rfl
  depth := UnitRegs.latch_S_toNat hc
  palette := rfl
  fetching _ := rfl
  skipping h := absurd rfl h
  row := (Nat.zero_div _).symm
  col := (Nat.zero_mod _).symm

section
variable {w h d pl q : Nat} {p : Unpacker}

/-- A padding byte is discarded. -/
theorem Unpacker.Waiting.skipByte {k : Nat} (hp : p.Waiting w h d pl q (k + 1)) : p.skipByte.Waiting w h d pl q k := by
  obtain ⟨hphase, hpad⟩ := hp.skipping (Nat.succ_ne_zero k)
  have hsub : (p.PADCNT - 1).toNat = k := padcnt_sub_one hpad
  refine ⟨hp.toRunning.next (hp.inv.skipped hphase) rfl rfl, fun hk => ?_, fun hk => ⟨?_, hsub⟩, hp.row, hp.col⟩
  · exact if_pos (BitVec.eq_of_toNat_eq (y := 0#2) (hsub.trans hk))
  · exact if_neg fun e => hk (hsub.symm.trans (congrArg BitVec.toNat e))

/-- Any padding bytes are discarded, whatever they are. -/
theorem Unpacker.Waiting.skips {k : Nat} (pads : List Byte) (hp : p.Waiting w h d pl q (pads.length + k)) :
    ∃ p', p.Runs pads [] p' ∧ p'.Waiting w h d pl q k := by
  induction pads generalizing p with
  | nil => exact ⟨p, .refl p, by simpa using hp⟩
  | cons b pads ih =>
    rw [List.length_cons, Nat.succ_add] at hp
    obtain ⟨p', hrun, hp'⟩ := ih hp.skipByte
    exact ⟨p', (Unpacker.Runs.skip (hp.skipping (Nat.succ_ne_zero _)).1 b).trans hrun, hp'⟩

/-- The byte of the pixel is taken. -/
theorem Unpacker.Waiting.load (hp : p.Waiting w h d pl q 0) (b : Byte) : (p.load b).AtPixel w h d pl q b where
  toRunning := hp.toRunning.next (hp.inv.load (hp.fetching rfl) b) rfl rfl
  phase := rfl
  row := hp.row
  col := hp.col
  shreg := by
    have hzero := (hp.inv.fetch (hp.fetching rfl)).2
    rw [hp.col, hp.depth] at hzero
    rw [hzero, Nat.pow_zero, Nat.mul_one, Nat.mod_eq_of_lt b.isLt]
    rfl

theorem Unpacker.AtPixel.depth_cases {b : Byte} (hp : p.AtPixel w h d pl q b) : d = 1 ∨ d = 4 ∨ d = 8 :=
  hp.toRunning.depth_cases (by rw [hp.phase]; decide) (by rw [hp.phase]; decide)

/-- The index in the top bits is that of the pixel. -/
theorem Unpacker.AtPixel.topIndex_eq {b : Byte} (hp : p.AtPixel w h d pl q b) :
    topIndex p.S p.SHREG = lane d b (q % w % pixelsPerByte d) := by
  have hd := hp.depth_cases
  have hroom := bits_add_le hd (q % w)
  refine BitVec.eq_of_toNat_eq ?_
  rw [topIndex_toNat, hp.depth, hp.shreg, lane, BitVec.toNat_ofNat, Nat.mul_add, ← mul_mod_eight hd, Nat.mul_one]
  generalize q % w * d % 8 = a at hroom ⊢
  have h8 : 2 ^ 8 = 2 ^ a * 2 ^ (8 - a) := by rw [← Nat.pow_add]; congr 1; omega
  have hd8 : 2 ^ (8 - d) = 2 ^ a * 2 ^ (8 - (a + d)) := by rw [← Nat.pow_add]; congr 1; omega
  have ha : 2 ^ (8 - a) = 2 ^ (8 - (a + d)) * 2 ^ d := by rw [← Nat.pow_add]; congr 1; omega
  have hlt : b.toNat / 2 ^ (8 - (a + d)) % 2 ^ d < 2 ^ 8 :=
    (Nat.mod_lt _ (Nat.two_pow_pos d)).trans_le (Nat.pow_le_pow_right (by decide) (by omega))
  calc b.toNat * 2 ^ a % 2 ^ 8 / 2 ^ (8 - d)
      = 2 ^ a * (b.toNat % 2 ^ (8 - a)) / (2 ^ a * 2 ^ (8 - (a + d))) := by
        rw [hd8, h8, Nat.mul_comm b.toNat, Nat.mul_mod_mul_left]
    _ = b.toNat % (2 ^ (8 - (a + d)) * 2 ^ d) / 2 ^ (8 - (a + d)) := by
        rw [Nat.mul_div_mul_left _ _ (Nat.two_pow_pos a), ha]
    _ = b.toNat / 2 ^ (8 - (a + d)) % 2 ^ d % 2 ^ 8 := by
        rw [Nat.mod_mul_right_div_self, Nat.mod_eq_of_lt hlt]

/-- The index in the top bits, when the byte is that of a block. -/
theorem Unpacker.AtPixel.topIndex_indexAt {bs : List Byte} (hp : p.AtPixel w h d pl q (bs.getD (byteOf w d q) 0)) :
    topIndex p.S p.SHREG = indexAt w d bs (q / w) (q % w) :=
  hp.topIndex_eq

/-- The run of one `EXTRACT` of an index in the palette. -/
theorem Unpacker.AtPixel.extract_runs {bs : List Byte} (hp : p.AtPixel w h d pl q (bs.getD (byteOf w d q) 0))
    (hix : (indexAt w d bs (q / w) (q % w)).toNat < pl) :
    p.Runs [] [indexAt w d bs (q / w) (q % w)] p.advance := by
  rw [← hp.topIndex_indexAt] at hix ⊢
  exact .extract hp.phase (by rwa [hp.palette])

/-- The bits that are used up once the pixel is given out. -/
theorem Unpacker.AtPixel.advance_BITCNT {b : Byte} (hp : p.AtPixel w h d pl q b) :
    p.advance.BITCNT.toNat = q % w * d % 8 + d := by
  have hbit := (hp.inv.extract hp.phase).2.1
  have hroom := bits_add_le hp.depth_cases (q % w)
  rw [hp.col, hp.depth] at hbit
  rw [p.advance_frame]
  show (p.BITCNT + p.S).toNat = _
  rw [BitVec.toNat_add, hbit, hp.depth]
  exact Nat.mod_eq_of_lt (by omega)

/-- After the index, within a byte: the next pixel is in the same byte. -/
theorem Unpacker.AtPixel.advance_within {b : Byte} (hp : p.AtPixel w h d pl q b) (hend : q % w + 1 ≠ w)
    (hbits : (q % w + 1) * d % 8 ≠ 0) (hdiv : (q + 1) / w = q / w) (hmod : (q + 1) % w = q % w + 1) :
    p.advance.AtPixel w h d pl (q + 1) b := by
  have hd := hp.depth_cases
  have hb := hp.advance_BITCNT
  obtain ⟨hcol, hrow, -, -, hmore⟩ := Unpacker.advance_within_row (p := p) (by rw [hp.col, hp.width]; exact hend)
  refine ⟨hp.toRunning.next (hp.inv.advance hp.phase) p.advance_latched.1 p.advance_latched.2, hmore ?_, ?_, ?_, ?_⟩
  · rw [hb]; exact fun h8 => hbits ((bits_full hd).2 h8)
  · rw [hrow, hp.row, hdiv]
  · rw [hcol, hp.col, hmod]
  · rw [p.advance_SHREG, shiftOut_toNat, hp.depth, hp.shreg, hmod, bits_succ hd hbits, Nat.shiftLeft_eq, Nat.pow_add,
      ← Nat.mul_assoc]
    exact Nat.mod_mul_mod _ _ _

/-- After the index, at the end of a byte within a row: the next byte is waited for. -/
theorem Unpacker.AtPixel.advance_byte {b : Byte} (hp : p.AtPixel w h d pl q b) (hend : q % w + 1 ≠ w)
    (hbits : (q % w + 1) * d % 8 = 0) (hdiv : (q + 1) / w = q / w) (hmod : (q + 1) % w = q % w + 1) :
    p.advance.Waiting w h d pl (q + 1) 0 := by
  obtain ⟨hcol, hrow, -, hfull, -⟩ := Unpacker.advance_within_row (p := p) (by rw [hp.col, hp.width]; exact hend)
  have h8 : p.advance.BITCNT.toNat = 8 := hp.advance_BITCNT.trans ((bits_full hp.depth_cases).1 hbits)
  exact ⟨hp.toRunning.next (hp.inv.advance hp.phase) p.advance_latched.1 p.advance_latched.2, fun _ => hfull h8,
    fun h0 => absurd rfl h0, by rw [hrow, hp.row, hdiv], by rw [hcol, hp.col, hmod]⟩

/-- After the index, at the end of a row that is not the last: its padding is waited for. -/
theorem Unpacker.AtPixel.advance_row {b : Byte} (hp : p.AtPixel w h d pl q b) (hend : q % w + 1 = w)
    (hrowNe : q / w + 1 ≠ h) (hdiv : (q + 1) / w = q / w + 1) (hmod : (q + 1) % w = 0) :
    p.advance.Waiting w h d pl (q + 1) (bytePad w d) := by
  have hactive := hp.inv.unit.active (by rw [hp.phase]; decide) (by rw [hp.phase]; decide)
  have hpad : p.BYTEPAD.toNat = bytePad w d := by rw [hactive.geometry.bytepad, hp.width, hp.depth]
  obtain ⟨hcol, hrow, -, hmore⟩ := Unpacker.advance_row_end (p := p) (by rw [hp.col, hp.width]; exact hend)
  obtain ⟨hcnt, hnone, hsome⟩ := hmore (by rw [hrow, hp.row, hp.height]; exact hrowNe)
  refine ⟨hp.toRunning.next (hp.inv.advance hp.phase) p.advance_latched.1 p.advance_latched.2, fun h0 => ?_,
    fun h0 => ⟨?_, ?_⟩, by rw [hrow, hp.row, hdiv], by rw [hcol, hmod]⟩
  · exact hnone (BitVec.eq_of_toNat_eq (hpad.trans h0))
  · exact hsome fun e => h0 (hpad.symm.trans (congrArg BitVec.toNat e))
  · rw [hcnt, hpad]

/-- After the index of the last pixel the transform is over. -/
theorem Unpacker.AtPixel.advance_last {b : Byte} (hp : p.AtPixel w h d pl q b) (hend : q % w + 1 = w)
    (hlast : q / w + 1 = h) : p.advance.Finished w h d pl := by
  obtain ⟨hcol, hrow, hdone, -⟩ := Unpacker.advance_row_end (p := p) (by rw [hp.col, hp.width]; exact hend)
  have hrow' : p.advance.ROW = h := by rw [hrow, hp.row, hlast]
  exact ⟨hp.toRunning.next (hp.inv.advance hp.phase) p.advance_latched.1 p.advance_latched.2,
    (hdone (hrow'.trans hp.height.symm)).2, hrow', hcol⟩

end

/-! ### Up to a pixel -/

/-- The first bytes of a block, with the next one. -/
theorem take_succ_getD {bs : List Byte} {n : Nat} (hn : n < bs.length) : bs.take (n + 1) = bs.take n ++ [bs.getD n 0] := by
  rw [List.take_succ_eq_append_getElem hn, List.getD_eq_getElem _ _ hn]

section
variable {w h d pl : Nat} {bs : List Byte} {p₀ : Unpacker}

/-- From a pixel whose index is in the palette to the wait for the next one, when that is in another byte: some of the
bytes in between are taken. -/
theorem Unpacker.AtPixel.wait {q L : Nat} {p : Unpacker} (hw : 1 ≤ w) (hq : q + 1 < w * h)
    (hp : p.AtPixel w h d pl q (bs.getD (byteOf w d q) 0)) (hix : (indexAt w d bs (q / w) (q % w)).toNat < pl)
    (hlo : byteOf w d q < L) (hhi : L ≤ byteOf w d (q + 1)) (hL : L ≤ bs.length) :
    ∃ p', p.Runs ((bs.take L).drop (byteOf w d q + 1)) [indexAt w d bs (q / w) (q % w)] p' ∧
      p'.Waiting w h d pl (q + 1) (byteOf w d (q + 1) - L) := by
  have hrun := hp.extract_runs hix
  rcases byteOf_succ_cases hw hp.depth_cases q with ⟨-, -, -, -, e⟩ | ⟨hend, hbits, hdiv, hmod, e⟩ |
    ⟨hend, hdiv, hmod, e⟩
  · omega
  · obtain rfl : L = byteOf w d q + 1 := by omega
    refine ⟨p.advance, ?_, ?_⟩
    · rwa [List.drop_eq_nil_of_le (List.length_take_le _ _)]
    · rw [e, Nat.sub_self]; exact hp.advance_byte hend hbits hdiv hmod
  · have hrow : q / w + 1 ≠ h := fun hr => by
      have hlt : (q + 1) / w < h := Nat.div_lt_of_lt_mul hq
      omega
    have hlen : ((bs.take L).drop (byteOf w d q + 1)).length = L - (byteOf w d q + 1) := by
      rw [List.length_drop, List.length_take, Nat.min_eq_left hL]
    have hk : bytePad w d = ((bs.take L).drop (byteOf w d q + 1)).length + (byteOf w d (q + 1) - L) := by omega
    have hwait := hp.advance_row hend hrow hdiv hmod
    rw [hk] at hwait
    obtain ⟨p', hskip, hp'⟩ := hwait.skips
    exact ⟨p', hrun.trans hskip, hp'⟩

/-- The run up to a pixel in a byte that is supplied, all indices before it being in the palette. -/
theorem Unpacker.Waiting.reach (hw : 1 ≤ w) (hd : d = 1 ∨ d = 4 ∨ d = 8) (hp₀ : p₀.Waiting w h d pl 0 0) {q : Nat}
    (hq : q < w * h) (hgood : ∀ k, k < q → (indexAt w d bs (k / w) (k % w)).toNat < pl)
    (hbs : byteOf w d q < bs.length) :
    ∃ p, p₀.Runs (bs.take (byteOf w d q + 1)) ((unpack w h d bs).take q) p ∧
      p.AtPixel w h d pl q (bs.getD (byteOf w d q) 0) := by
  induction q with
  | zero =>
    refine ⟨_, ?_, hp₀.load _⟩
    rw [take_succ_getD hbs, byteOf_zero]
    exact .fetch (hp₀.fetching rfl) _
  | succ q ih =>
    have hle := byteOf_le_succ hw hd q
    obtain ⟨p, hrun, hp⟩ := ih (by omega) (fun k hk => hgood k (by omega)) (by omega)
    have hix := hgood q (Nat.lt_succ_self q)
    rw [unpack_take_succ bs (by omega)]
    rcases Nat.eq_or_lt_of_le hle with e | hlt
    · rcases byteOf_succ_cases hw hd q with ⟨hend, hbits, hdiv, hmod, -⟩ | ⟨-, -, -, -, e'⟩ | ⟨-, -, -, e'⟩
      · refine ⟨p.advance, ?_, e ▸ hp.advance_within hend hbits hdiv hmod⟩
        rw [← e]
        simpa using hrun.trans (hp.extract_runs hix)
      · omega
      · omega
    · obtain ⟨p', hstep, hp'⟩ := hp.wait hw hq hix hlt le_rfl hbs.le
      rw [Nat.sub_self] at hp'
      refine ⟨_, ?_, hp'.load _⟩
      have hall := (hrun.trans hstep).trans (.fetch (hp'.fetching rfl) (bs.getD (byteOf w d (q + 1)) 0))
      have htake : bs.take (byteOf w d q + 1) ++ (bs.take (byteOf w d (q + 1))).drop (byteOf w d q + 1) =
          bs.take (byteOf w d (q + 1)) := by
        have h := List.take_append_drop (byteOf w d q + 1) (bs.take (byteOf w d (q + 1)))
        rwa [List.take_take, Nat.min_eq_left hlt] at h
      rw [take_succ_getD hbs]
      rwa [htake, List.append_nil] at hall

/-- The run up to the wait for a pixel, all bytes supplied being taken and all indices held in them given out. -/
theorem Unpacker.Waiting.reach_wait (hw : 1 ≤ w) (hd : d = 1 ∨ d = 4 ∨ d = 8) (hp₀ : p₀.Waiting w h d pl 0 0) {q : Nat}
    (hq : q < w * h) (hgood : ∀ k, k < q → (indexAt w d bs (k / w) (k % w)).toNat < pl)
    (hlo : ∀ k, k < q → byteOf w d k < bs.length) (hhi : bs.length ≤ byteOf w d q) :
    ∃ p, p₀.Runs bs ((unpack w h d bs).take q) p ∧ p.Waiting w h d pl q (byteOf w d q - bs.length) := by
  match q with
  | 0 =>
    rw [byteOf_zero, Nat.le_zero] at hhi
    obtain rfl := List.eq_nil_of_length_eq_zero hhi
    exact ⟨p₀, .refl p₀, by simpa [byteOf_zero] using hp₀⟩
  | q + 1 =>
    have hlo' := hlo q (Nat.lt_succ_self q)
    obtain ⟨p, hrun, hp⟩ := hp₀.reach hw hd (q := q) (by omega) (fun k hk => hgood k (by omega)) hlo'
    obtain ⟨p', hstep, hp'⟩ := hp.wait hw hq (hgood q (Nat.lt_succ_self q)) hlo' hhi le_rfl
    refine ⟨p', ?_, hp'⟩
    rw [unpack_take_succ bs (by omega)]
    have hall := hrun.trans hstep
    rwa [List.take_length, List.take_append_drop] at hall

end

end Sys2Proof.Machine
end

section
/-! How a transform of the unpacker ends, and how many bytes and pixels it has passed by then (R194, R195, R198). -/

namespace Sys2Proof.Machine

/-! ### The end of a transform -/

/-- From the registers `p`, with `rest` standing in the input channel, the unpacker closes its frame with this code in `k`
steps, and takes nothing. -/
def Unpacker.Closes (p : Unpacker) (rest : List Token) (k : Nat) (code : BitVec 4) (p' : Unpacker) : Prop :=
  ∀ s : State, s.up = p → s.inUp.queue = rest →
    Takes .UP k s { s with up := p', outUp := s.outUp.push (.END code) }

theorem Unpacker.closes_okterm {p : Unpacker} (hp : p.PHASE = 5#4) (rest : List Token) :
    p.Closes rest 1 0 { p with PHASE := 6#4 } := by
  rintro s rfl -
  exact .one (i := .upOkterm) (by rw [State.phaseOf_up, hp]; rfl) rfl

/-- Fault entry, then `FAILTERM`. -/
theorem Unpacker.closes_fault {p : Unpacker} {rest : List Token} {i : Instr} {code : BitVec 4}
    (hd : decode (.phase .UP p.PHASE) = .ok i)
    (he : ∀ s : State, s.up = p → s.inUp.queue = rest → exec i s = .next { s with up := p.raiseFault code }) :
    p.Closes rest 2 code { p.raiseFault code with PHASE := 8#4 } := by
  rintro s rfl hq
  exact (Takes.one (u := .UP) hd (he s rfl hq)).trans (.one (i := .upFailterm) rfl rfl)

theorem Unpacker.closes_decode {p : Unpacker} (hp : p.PHASE = 2#4) (hix : p.P ≤ (topIndex p.S p.SHREG).toNat)
    (rest : List Token) : p.Closes rest 2 E_DECODE { p.raiseFault E_DECODE with PHASE := 8#4 } :=
  closes_fault (i := .upExtract) (by rw [hp]; rfl) (by rintro s rfl -; exact execUpExtract_of_le hix)

theorem Unpacker.closes_trunc {p : Unpacker} (hp : p.PHASE = 1#4 ∨ p.PHASE = 3#4) (c : BitVec 4) (rest : List Token) :
    p.Closes (.END c :: rest) 2 E_TRUNC { p.raiseFault E_TRUNC with PHASE := 8#4 } := by
  rcases hp with hp | hp
  · exact closes_fault (i := .upFetch) (by rw [hp]; rfl) (by rintro s rfl hq; exact execUpFetch_of_END hq)
  · exact closes_fault (i := .upSkip) (by rw [hp]; rfl) (by rintro s rfl hq; exact execUpSkip_of_END hq)

/-- A transform of the unpacker: the latch of `START`, a run, and the end. -/
theorem Unpacker.Runs.transform {s : State} {bs vs : List Byte} {rest : List Token} {p p' : Unpacker} {k : Nat}
    {code : BitVec 4} (hcfg : s.cfg.legal = true) (ha : s.up.PHASE = 0#4 ∨ s.up.PHASE = 6#4)
    (hc : s.up.configLegal = true) (hrun : s.up.latch.Runs bs vs p) (hend : p.Closes rest k code p')
    (hq : s.inUp.queue = dataTokens bs ++ rest) (moves : List Move) :
    Host.Core.run Sys2Proof.core (1 + (bs.length + vs.length + k))
        { s with agenda := transformAgenda .UP (bs.length + vs.length + k) moves } =
      .next { s with up := p', inUp := ⟨s.inUp.passed ++ dataTokens bs, rest⟩,
                     outUp := ⟨s.outUp.passed, s.outUp.queue ++ frame vs code⟩, agenda := moves } := by
  have hstart : exec (startOf .UP) s = .next { s with up := s.up.latch } := by
    show Host.Outcome.next { s with up := s.up.start } = _
    rw [Unpacker.start_eq_latch (s.up.startAccepted_iff.2 ha) hc]
  have htakes := (hrun { s with up := s.up.latch } rest rfl hq).trans (hend _ rfl rfl)
  simpa [Channel.push_eq, frame] using Takes.transform hcfg hstart htakes moves

/-! ### How far the bytes reach -/

theorem pixelByteAt_lt {w d r c : Nat} (hd : d = 1 ∨ d = 4 ∨ d = 8) (hc : c < w) :
    pixelByteAt w d r c < r * stride w d + byteWidth w d :=
  Nat.add_lt_add_left (mul_div_eight_lt hd hc) _

theorem row_end_le {w d r r' : Nat} (h : r < r') : r * stride w d + stride w d ≤ r' * stride w d := by
  rw [← Nat.succ_mul]
  exact Nat.mul_le_mul_right _ h

/-- Every pixel of the image stands in the bytes that an unpacking takes. -/
theorem pixelByteAt_lt_bytesNeeded {w h d r c : Nat} (hd : d = 1 ∨ d = 4 ∨ d = 8) (hr : r < h) (hc : c < w) :
    pixelByteAt w d r c < bytesNeeded w h d := by
  have hlt := pixelByteAt_lt (r := r) hd hc
  have hle : r * stride w d ≤ (h - 1) * stride w d := Nat.mul_le_mul_right _ (by omega)
  unfold bytesNeeded
  omega

/-- The last byte that an unpacking takes is that of the last pixel. -/
theorem byteOf_last {w h d q : Nat} (hw : 1 ≤ w) (hd : d = 1 ∨ d = 4 ∨ d = 8) (hq : q + 1 = w * h) :
    q % w + 1 = w ∧ q / w + 1 = h ∧ byteOf w d q + 1 = bytesNeeded w h d := by
  have hdiv : (q + 1) / w = h := by rw [hq, Nat.mul_div_cancel_left _ hw]
  have hmod : (q + 1) % w = 0 := by rw [hq, Nat.mul_mod_right]
  rcases byteOf_succ_cases hw hd q with ⟨-, -, -, hm, -⟩ | ⟨-, -, -, hm, -⟩ | ⟨hend, hr, -, e⟩
  · omega
  · omega
  · rw [hdiv] at hr
    refine ⟨hend, hr.symm, ?_⟩
    rw [byteOf, pixelByteAt, hdiv, hmod, Nat.zero_mul, hr, Nat.add_mul, stride] at e
    rw [bytesNeeded, hr, Nat.add_sub_cancel]
    unfold stride
    omega

/-- The pixels of earlier rows stand in earlier bytes. -/
theorem byteOf_lt_of_row_lt {w d r k : Nat} (hw : 1 ≤ w) (hd : d = 1 ∨ d = 4 ∨ d = 8) (hk : k / w < r) :
    byteOf w d k < r * stride w d := by
  have h1 := pixelByteAt_lt (r := k / w) hd (Nat.mod_lt k hw)
  have h2 := row_end_le (w := w) (d := d) hk
  have h3 : byteWidth w d ≤ stride w d := Nat.le_add_right _ _
  unfold byteOf
  omega

/-- The pixels held up to the padding of row `r` are those of the rows up to it. -/
theorem pixels_held_full_row {w h d r m : Nat} (hw : 1 ≤ w) (hd : d = 1 ∨ d = 4 ∨ d = 8) (hr : r + 1 < h)
    (hm : m < stride w d) (hmb : byteWidth w d ≤ m) :
    (r + 1) * w < w * h ∧ (∀ k, k < (r + 1) * w → byteOf w d k < r * stride w d + m) ∧
      r * stride w d + m ≤ byteOf w d ((r + 1) * w) := by
  refine ⟨by rw [Nat.mul_comm]; exact Nat.mul_lt_mul_of_pos_left hr hw, fun k hk => ?_, ?_⟩
  · have hrow : k / w ≤ r := Nat.le_of_lt_succ (Nat.div_lt_of_lt_mul (by rwa [Nat.mul_comm]))
    have hk' := pixelByteAt_lt (r := k / w) hd (Nat.mod_lt k hw)
    have hle : k / w * stride w d ≤ r * stride w d := Nat.mul_le_mul_right _ hrow
    unfold byteOf
    omega
  · rw [byteOf_mul hw, Nat.succ_mul]
    omega

/-- The pixels held in the first `m` bytes of row `r` fill these bytes. -/
theorem pixels_held_within_row {w h d r m : Nat} (hw : 1 ≤ w) (hd : d = 1 ∨ d = 4 ∨ d = 8) (hr : r < h)
    (hmb : m < byteWidth w d) :
    m * pixelsPerByte d < w ∧ r * w + m * pixelsPerByte d < w * h ∧
      (∀ k, k < r * w + m * pixelsPerByte d → byteOf w d k < r * stride w d + m) ∧
      r * stride w d + m ≤ byteOf w d (r * w + m * pixelsPerByte d) := by
  obtain ⟨hpart, hbyte⟩ : m * pixelsPerByte d < w ∧ m * pixelsPerByte d * d / 8 = m := by
    have h8 := eight_mul_byteWidth w d
    have hlt := bitPad_lt w d
    rcases hd with rfl | rfl | rfl <;> simp only [pixelsPerByte] <;> omega
  have hrow : r * w + w ≤ w * h := by
    rw [← Nat.succ_mul, Nat.mul_comm]
    exact Nat.mul_le_mul_left w hr
  have hdiv : (r * w + m * pixelsPerByte d) / w = r := by
    rw [Nat.mul_comm r, Nat.mul_add_div hw, Nat.div_eq_of_lt hpart, Nat.add_zero]
  have hmod : (r * w + m * pixelsPerByte d) % w = m * pixelsPerByte d := by
    rw [Nat.mul_comm r, Nat.mul_add_mod, Nat.mod_eq_of_lt hpart]
  refine ⟨hpart, by omega, fun k hk => ?_, by rw [byteOf, pixelByteAt, hdiv, hmod, hbyte]⟩
  rcases Nat.lt_or_ge (k / w) r with hlt | hge
  · exact (byteOf_lt_of_row_lt hw hd hlt).trans_le (Nat.le_add_right _ _)
  · have hkr : k / w = r := Nat.le_antisymm (by rw [← hdiv]; exact Nat.div_le_div_right hk.le) hge
    have hkm : k % w < m * pixelsPerByte d := by
      have hdm := Nat.div_add_mod' k w
      rw [hkr] at hdm
      omega
    have hlane : k % w * d / 8 < m := by
      rcases hd with rfl | rfl | rfl <;> simp only [pixelsPerByte] at hkm <;> omega
    rw [byteOf, pixelByteAt, hkr]
    omega

/-- The pixels held in the first `L` bytes are those before pixel `q` (R198 (c)). -/
theorem pixels_held {w h d q L : Nat} (hw : 1 ≤ w) (hh : 1 ≤ h) (hd : d = 1 ∨ d = 4 ∨ d = 8)
    (hL : L < bytesNeeded w h d) (hq : q = L / stride w d * w + min w (L % stride w d * pixelsPerByte d)) :
    q < w * h ∧ (∀ k, k < q → byteOf w d k < L) ∧ L ≤ byteOf w d q := by
  have hdm := Nat.div_add_mod' L (stride w d)
  have hm : L % stride w d < stride w d :=
    Nat.mod_lt L (Nat.lt_of_lt_of_le (byteWidth_pos hw hd) (Nat.le_add_right _ _))
  generalize L / stride w d = r at hdm hq
  generalize L % stride w d = m at hdm hq hm
  unfold bytesNeeded at hL
  rcases Nat.lt_or_ge m (byteWidth w d) with hmb | hmb
  · have hr : r < h := by
      by_contra hge
      have := row_end_le (w := w) (d := d) (r := h - 1) (r' := r) (by omega)
      have : byteWidth w d ≤ stride w d := Nat.le_add_right _ _
      omega
    obtain ⟨hpart, hheld⟩ := pixels_held_within_row hw hd hr hmb
    rwa [hq, Nat.min_eq_right hpart.le, ← hdm]
  · have hr : r + 1 < h := by
      by_contra hge
      have : (h - 1) * stride w d ≤ r * stride w d := Nat.mul_le_mul_right _ (by omega)
      omega
    have hfull : w ≤ m * pixelsPerByte d := by
      have h8 := eight_mul_byteWidth w d
      rcases hd with rfl | rfl | rfl <;> simp only [pixelsPerByte] <;> omega
    rw [hq, Nat.min_eq_left hfull, ← Nat.succ_mul, ← hdm]
    exact pixels_held_full_row hw hd hr hm hmb

/-! ### The bytes of a packing that an unpacking takes (R200) -/

theorem pack_length_eq {w h : Nat} (d : Nat) (idx : List Byte) (hh : 1 ≤ h) :
    (pack w h d idx).length = bytesNeeded w h d + bytePad w d := by
  obtain ⟨h', rfl⟩ := Nat.exists_eq_add_of_le' hh
  rw [pack_length, bytesNeeded, Nat.add_sub_cancel, Nat.succ_mul, stride]
  omega

/-- What is left of a packing is the padding of its last row. -/
theorem pack_drop_bytesNeeded {w h : Nat} (d : Nat) (idx : List Byte) (hh : 1 ≤ h) :
    (pack w h d idx).drop (bytesNeeded w h d) = List.replicate (bytePad w d) 0 := by
  obtain ⟨h', rfl⟩ := Nat.exists_eq_add_of_le' hh
  have hlen := pack_length w h' d idx
  rw [pack] at hlen ⊢
  rw [flatMap_range_succ, bytesNeeded, Nat.add_sub_cancel, ← hlen, ← List.drop_drop, List.drop_left, packRow]
  exact List.drop_left' (by rw [List.length_map, List.length_range])

/-- Unpacking looks at the bytes it takes only. -/
theorem unpack_take_bytesNeeded {w h d : Nat} (hd : d = 1 ∨ d = 4 ∨ d = 8) (bs : List Byte) :
    unpack w h d (bs.take (bytesNeeded w h d)) = unpack w h d bs := by
  refine unpack_congr fun r c hr hc => ?_
  have hlt := pixelByteAt_lt_bytesNeeded hd hr hc
  rw [indexAt, indexAt, List.getD_eq_getElem?_getD, List.getElem?_take_of_lt hlt, ← List.getD_eq_getElem?_getD]

theorem unpack_length (w h d : Nat) (bs : List Byte) : (unpack w h d bs).length = w * h := by
  rw [unpack_eq_map, List.length_map, List.length_range]

/-- An unpacking takes one step for each byte and each index, and one to close the frame. -/
theorem unpackSteps_eq {w h : Nat} (d : Nat) (hh : 1 ≤ h) : unpackSteps w h d = bytesNeeded w h d + w * h + 1 := by
  obtain ⟨h', rfl⟩ := Nat.exists_eq_add_of_le' hh
  rw [unpackSteps, bytesNeeded, Nat.add_sub_cancel, stride, Nat.mul_add h', Nat.succ_mul h' (byteWidth w d)]
  omega

end Sys2Proof.Machine
end

section
/-! The statements about whole transforms of the unpacker (42_unpacker). -/

namespace Sys2Proof.Machine

/-- Settles O54: the run reaches the last pixel with the last byte that is needed, and ends after its index. -/
theorem unpackerComputesUnpack : Obligations.UnpackerComputesUnpack := by
  rintro s w h d bs rest moves hcfg ha rfl rfl rfl hw hh hd hlen hgood hq
  have hc := s.up.configLegal_iff_one_le.2 ⟨hd, hw, hh⟩
  have hpos : 0 < s.up.WIDTH * s.up.HEIGHT := Nat.mul_pos hw hh
  obtain ⟨q, hq1⟩ : ∃ q, q + 1 = s.up.WIDTH * s.up.HEIGHT := ⟨_, Nat.succ_pred_eq_of_pos hpos⟩
  obtain ⟨hend, hlast, hneed⟩ := byteOf_last hw hd hq1
  have hix : ∀ k, k < s.up.WIDTH * s.up.HEIGHT →
      (indexAt s.up.WIDTH s.up.DEPTH bs (k / s.up.WIDTH) (k % s.up.WIDTH)).toNat < s.up.PAL_LEN := fun k hk =>
    hgood _ (by rw [unpack_eq_map]; exact List.mem_map.2 ⟨k, List.mem_range.2 hk, rfl⟩)
  obtain ⟨p, hrun, hp⟩ := (Unpacker.latch_waiting hc).reach (q := q) hw hd (by omega) (fun k hk => hix k (by omega))
    (by omega)
  have hfin := hp.advance_last hend hlast
  have hall := hrun.trans (hp.extract_runs (hix q (by omega)))
  have htake : (unpack s.up.WIDTH s.up.HEIGHT s.up.DEPTH bs).take (s.up.WIDTH * s.up.HEIGHT) =
      unpack s.up.WIDTH s.up.HEIGHT s.up.DEPTH bs := List.take_of_length_le (unpack_length _ _ _ _).le
  rw [← unpack_take_succ bs (by omega), hq1, htake, List.append_nil, hneed, ← hlen, List.take_length] at hall
  have ht := hall.transform hcfg ha hc (Unpacker.closes_okterm hfin.phase rest) hq moves
  rw [unpack_length, hlen, ← unpackSteps_eq _ hh] at ht
  exact ⟨_, ht, rfl, hfin.inv.unit.errcode_zero (by rw [hfin.phase]; decide), hfin.row, hfin.col⟩

/-- Settles O55: the run reaches the bad pixel, whose index is not given out. -/
theorem unpackerStopsAtTheFirstBadIndex : Obligations.UnpackerStopsAtTheFirstBadIndex := by
  rintro s w h d q bs rest hcfg ha rfl rfl rfl hw hh hd hqlt hbad hgood hlen hq
  have hc := s.up.configLegal_iff_one_le.2 ⟨hd, hw, hh⟩
  have hlen' : bs.length = byteOf s.up.WIDTH s.up.DEPTH q + 1 := hlen
  obtain ⟨p, hrun, hp⟩ := (Unpacker.latch_waiting hc).reach hw hd hqlt hgood (by omega)
  rw [← hlen', List.take_length] at hrun
  have hix : p.P ≤ (topIndex p.S p.SHREG).toNat := by rwa [hp.palette, hp.topIndex_indexAt]
  exact ⟨_, fun moves => ⟨_, hrun.transform hcfg ha hc (Unpacker.closes_decode hp.phase hix rest) hq moves,
    rfl, rfl, hp.row, hp.col⟩⟩

/-- Settles O56: the run takes every byte and gives out every index in them, and then finds the end token. -/
theorem unpackerReportsTruncation : Obligations.UnpackerReportsTruncation := by
  rintro s w h d q bs c rest hcfg ha rfl rfl rfl hw hh hd hlen hheld hgood hq
  have hc := s.up.configLegal_iff_one_le.2 ⟨hd, hw, hh⟩
  obtain ⟨hqlt, hlo, hhi⟩ := pixels_held hw hh hd hlen hheld
  obtain ⟨p, hrun, hp⟩ := (Unpacker.latch_waiting hc).reach_wait hw hd hqlt hgood hlo hhi
  have hphase : p.PHASE = 1#4 ∨ p.PHASE = 3#4 := by
    rcases Nat.eq_zero_or_pos (byteOf s.up.WIDTH s.up.DEPTH q - bs.length) with h0 | h0
    · exact .inl (hp.fetching h0)
    · exact .inr (hp.skipping (Nat.ne_of_gt h0)).1
  exact ⟨_, fun moves => ⟨_, hrun.transform hcfg ha hc (Unpacker.closes_trunc hphase c rest) hq moves,
    rfl, rfl, hp.row, hp.col⟩⟩

/-- Settles O57: the unpacker computes `Unpack`, which inverts `Pack`, and leaves what it does not need. -/
theorem roundTripThroughTheUnpacker : Obligations.RoundTripThroughTheUnpacker := by
  intro s w h d idx rest moves hcfg ha hsw hsh hsd hw hh hd hlen hv hpal hq
  have hunpack : unpack w h d ((pack w h d idx).take (bytesNeeded w h d)) = idx := by
    rw [unpack_take_bytesNeeded hd, unpack_pack hd hlen hv]
  have htaken : ((pack w h d idx).take (bytesNeeded w h d)).length = bytesNeeded w h d := by
    rw [List.length_take, pack_length_eq d idx hh]
    omega
  have hqueue : s.inUp.queue = dataTokens ((pack w h d idx).take (bytesNeeded w h d)) ++
      (dataTokens (List.replicate (bytePad w d) 0) ++ .END 0 :: rest) := by
    rw [hq, ← pack_drop_bytesNeeded d idx hh, ← List.append_assoc, ← dataTokens_append, List.take_append_drop, frame,
      List.append_assoc]
    rfl
  have h := unpackerComputesUnpack s w h d _ _ moves hcfg ha hsw hsh hsd hw hh hd htaken (by rwa [hunpack]) hqueue
  rwa [hunpack] at h

end Sys2Proof.Machine
end

section
/-! The bytes of a packed block, as the pixels of the image fill them one after another (R170). -/

namespace Sys2Proof.Machine

/-- The pixels before pixel `q` that share its byte. -/
def partialByte (w d q : Nat) (idx : List Byte) : List Byte :=
  (idx.drop (q - q % w % pixelsPerByte d)).take (q % w % pixelsPerByte d)

theorem partialByte_of_first {w d q : Nat} (idx : List Byte) (h : q % w % pixelsPerByte d = 0) :
    partialByte w d q idx = [] := by
  rw [partialByte, h, List.take_zero]

/-- The pixels of a byte up to pixel `q` and with it. -/
theorem partialByte_append {w d q : Nat} {idx : List Byte} (hq : q < idx.length) :
    partialByte w d q idx ++ [idx[q]] =
      (idx.drop (q - q % w % pixelsPerByte d)).take (q % w % pixelsPerByte d + 1) := by
  have hle : q % w % pixelsPerByte d ≤ q := (Nat.mod_le _ _).trans (Nat.mod_le _ _)
  have hlt : q % w % pixelsPerByte d < (idx.drop (q - q % w % pixelsPerByte d)).length := by
    rw [List.length_drop]; omega
  rw [List.take_succ_eq_append_getElem hlt, partialByte]
  congr 2
  rw [List.getElem_drop]
  simp only [Nat.sub_add_cancel hle]

theorem partialByte_length {w d q : Nat} {idx : List Byte} (hq : q ≤ idx.length) :
    (partialByte w d q idx).length = q % w % pixelsPerByte d := by
  have hle : q % w % pixelsPerByte d ≤ q := (Nat.mod_le _ _).trans (Nat.mod_le _ _)
  rw [partialByte, List.length_take, List.length_drop]
  omega

theorem mem_of_mem_partialByte {w d q : Nat} {idx : List Byte} {v : Byte} (h : v ∈ partialByte w d q idx) : v ∈ idx :=
  List.mem_of_mem_drop (List.mem_of_mem_take h)

/-- The next pixel is in the same byte. -/
theorem partialByte_succ {w d q : Nat} {idx : List Byte} (hd : d = 1 ∨ d = 4 ∨ d = 8) (hq : q < idx.length)
    (hmod : (q + 1) % w = q % w + 1) (hbits : (q % w + 1) * d % 8 ≠ 0) :
    partialByte w d (q + 1) idx = partialByte w d q idx ++ [idx[q]] := by
  have hlane : (q % w + 1) % pixelsPerByte d = q % w % pixelsPerByte d + 1 := by
    rcases hd with rfl | rfl | rfl <;> simp only [pixelsPerByte] <;> omega
  rw [partialByte_append hq, partialByte, hmod, hlane, Nat.add_sub_add_right]

/-- At the end of a byte its pixels are those that share it in the row. -/
theorem rowChunk_eq {w d q : Nat} {idx : List Byte} (hw : 1 ≤ w) (hd : d = 1 ∨ d = 4 ∨ d = 8) (hq : q < idx.length)
    (hlast : q % w + 1 = w ∨ (q % w + 1) * d % 8 = 0) :
    rowChunk d (q % w * d / 8) ((idx.drop (q / w * w)).take w) = partialByte w d q idx ++ [idx[q]] := by
  have hdm := Nat.div_add_mod' q w
  have hlt := Nat.mod_lt q hw
  have hlane := Nat.div_add_mod' (q % w) (pixelsPerByte d)
  have hmin : min (pixelsPerByte d) (w - q % w / pixelsPerByte d * pixelsPerByte d) = q % w % pixelsPerByte d + 1 := by
    rcases hd with rfl | rfl | rfl <;> simp only [pixelsPerByte] at hlane ⊢ <;> omega
  have hoff : q / w * w + q % w / pixelsPerByte d * pixelsPerByte d = q - q % w % pixelsPerByte d := by omega
  rw [partialByte_append hq, rowChunk, mul_div_eight hd, List.drop_take, List.drop_drop, List.take_take, hmin, hoff]

/-- The byte of a packed block that pixel `q` completes. -/
theorem pack_getD_byteOf {w h d q : Nat} {idx : List Byte} (hw : 1 ≤ w) (hd : d = 1 ∨ d = 4 ∨ d = 8)
    (hlen : idx.length = w * h) (hq : q < idx.length) (hlast : q % w + 1 = w ∨ (q % w + 1) * d % 8 = 0) :
    (pack w h d idx).getD (byteOf w d q) 0 = packByte d (partialByte w d q idx ++ [idx[q]]) := by
  rw [← rowChunk_eq hw hd hq hlast]
  exact pack_getD idx (Nat.div_lt_of_lt_mul (hlen ▸ hq)) (mul_div_eight_lt hd (Nat.mod_lt q hw))

/-- The bytes of a packed block over the padding of a row. -/
theorem pack_take_padding {w h d r : Nat} (idx : List Byte) (hr : r < h) :
    (pack w h d idx).take (r * stride w d + byteWidth w d + bytePad w d) =
      (pack w h d idx).take (r * stride w d + byteWidth w d) ++ List.replicate (bytePad w d) 0 := by
  have hrow := congrArg (List.drop (byteWidth w d)) (pack_row (w := w) (s := d) idx hr)
  rw [List.drop_take, List.drop_drop, stride, Nat.add_sub_cancel_left, packRow,
    List.drop_left' (by rw [List.length_map, List.length_range])] at hrow
  rw [List.take_add, ← hrow]
  rfl

theorem byteOf_lt_length {w h d q : Nat} (idx : List Byte) (hw : 1 ≤ w) (hd : d = 1 ∨ d = 4 ∨ d = 8) (hq : q < w * h) :
    byteOf w d q < (pack w h d idx).length := by
  have h1 := pixelByteAt_lt (r := q / w) hd (Nat.mod_lt q hw)
  have h2 := row_end_le (w := w) (d := d) (Nat.div_lt_of_lt_mul hq)
  have h3 : byteWidth w d ≤ stride w d := Nat.le_add_right _ _
  rw [pack_length]
  unfold byteOf
  omega

end Sys2Proof.Machine
end

section
/-! The registers of the packer over a transform: before each pixel, with a byte that is complete, in the padding, and after
a row (R161 to R165). -/

namespace Sys2Proof.Machine

/-- The packer in a transform of this configuration. -/
structure Packer.Running (w h d : Nat) (p : Packer) : Prop where
  inv : PkInv p
  width : p.W = w
  height : p.H = h
  depth : p.S.toNat = d

/-- All indices before pixel `q` are taken, and all bytes that they complete are emitted; the accumulator holds those that
share the byte of the pixel. -/
structure Packer.Ready (w h d q : Nat) (idx : List Byte) (p : Packer) : Prop extends Packer.Running w h d p where
  accumulating : q < w * h → p.PHASE = 1#4
  finished : q = w * h → p.PHASE = 5#4
  row : p.ROW = q / w
  col : p.COL = q % w
  acc : p.ACC.toNat * 2 ^ (8 - q % w * d % 8) = laneSum d 0 (partialByte w d q idx)

/-- `k` padding bytes of row `r` are still to be emitted. -/
structure Packer.Padding (w h d r k : Nat) (p : Packer) : Prop extends Packer.Running w h d p where
  phase : p.PHASE = 4#4
  padcnt : p.PADCNT.toNat = k
  row : p.ROW = r

/-- `r` rows are complete. -/
structure Packer.RowsDone (w h d r : Nat) (p : Packer) : Prop extends Packer.Running w h d p where
  accumulating : r ≠ h → p.PHASE = 1#4
  finished : r = h → p.PHASE = 5#4
  row : p.ROW = r
  col : p.COL = 0
  acc : p.ACC = 0

/-- A transform keeps its configuration. -/
theorem Packer.Running.next {w h d : Nat} {p q : Packer} (hp : p.Running w h d) (hinv : PkInv q)
    (hl : q.latched = p.latched) : q.Running w h d := by
  obtain ⟨hW, hH, hS, -⟩ := (UnitRegs.latched_eq_iff _ _).1 hl
  exact ⟨hinv, hW.trans hp.width, hH.trans hp.height, by rw [hS]; exact hp.depth⟩

/-- `START` begins a transform before pixel 0. -/
theorem Packer.latch_ready {p : Packer} (hc : p.configLegal = true) (idx : List Byte) :
    p.latch.Ready p.WIDTH p.HEIGHT p.DEPTH 0 idx where
  inv := ⟨UnitInv.latch hc, by simp, fun _ => ⟨by simp, legal_width hc⟩, by simp, by simp, by simp, by simp, by simp⟩
  width := rfl
  height := rfl
  depth := UnitRegs.latch_S_toNat hc
  accumulating _ := rfl
  finished h0 := absurd h0 (Nat.mul_pos (legal_width hc) (legal_height hc)).ne
  row := (Nat.zero_div _).symm
  col := (Nat.zero_mod _).symm
  acc := by
    rw [partialByte_of_first idx (by rw [Nat.zero_mod, Nat.zero_mod])]
    exact Nat.zero_mul _

section
variable {w h d q : Nat} {p : Packer} {idx : List Byte}

/-! ### The end of a row -/

/-- After a row is counted. -/
theorem Packer.Running.nextRow {r : Nat} {p₁ : Packer} (hp : p.Running w h d) (hl : p₁.latched = p.latched)
    (hinv : PkInv p₁.nextRow) (hrow : p₁.ROW = r) (hacc : p₁.ACC = 0) : p₁.nextRow.RowsDone w h d (r + 1) := by
  have hrun : p₁.nextRow.Running w h d := hp.next hinv hl
  have hheight : p₁.H = h := hrun.height
  exact ⟨hrun, fun hne => by rw [Packer.nextRow_of_ne (by rw [hrow, hheight]; exact hne)],
    fun he => by rw [Packer.nextRow_of_eq (by rw [hrow, hheight]; exact he)], congrArg (· + 1) hrow, rfl, hacc⟩

/-- The padding bytes of a row are emitted. -/
theorem Packer.Padding.runs {r k : Nat} (hp : p.Padding w h d r (k + 1)) :
    ∃ p', p.Runs [] (List.replicate (k + 1) 0) p' ∧ p'.RowsDone w h d (r + 1) := by
  have hrun := Packer.Runs.pad hp.phase
  have hinv := hp.inv.padded hp.phase
  induction k generalizing p with
  | zero =>
    have hzero : p.PADCNT - 1 = 0#2 := sub_eq_zero.2 (BitVec.eq_of_toNat_eq (y := 1#2) hp.padcnt)
    rw [if_pos hzero] at hrun hinv
    exact ⟨_, hrun, hp.toRunning.nextRow (p₁ := { p with PADCNT := p.PADCNT - 1 }) rfl hinv hp.row (hp.inv.empty (.inr (.inl hp.phase))).2⟩
  | succ k ih =>
    have hsub : (p.PADCNT - 1).toNat = k + 1 := padcnt_sub_one hp.padcnt
    have hne : p.PADCNT - 1 ≠ 0#2 := fun e => absurd (hsub.symm.trans (congrArg BitVec.toNat e)) (Nat.succ_ne_zero k)
    rw [if_neg hne] at hrun hinv
    have hp' : Packer.Padding w h d r (k + 1) { p with PADCNT := p.PADCNT - 1, PHASE := Phase.pad } :=
      ⟨hp.toRunning.next hinv rfl, rfl, hsub, hp.row⟩
    obtain ⟨p', hrun', hdone⟩ := ih hp' (Packer.Runs.pad hp'.phase) (hp'.inv.padded hp'.phase)
    exact ⟨p', hrun.trans hrun', hdone⟩

/-- The end of a row, padding and all. -/
theorem Packer.Running.rowEnd {r : Nat} (hp : p.Running w h d) (h1 : 1 ≤ p.PHASE.toNat) (h6 : p.PHASE.toNat ≤ 6)
    (hinv : PkInv p.clearAcc.rowEnd) (hrow : p.ROW = r) :
    ∃ p', p.clearAcc.rowEnd.Runs [] (List.replicate (bytePad w d) 0) p' ∧ p'.RowsDone w h d (r + 1) := by
  have hpad : p.BYTEPAD.toNat = bytePad w d := by
    rw [(hp.inv.unit.active h1 h6).geometry.bytepad, hp.width, hp.depth]
  rcases Nat.eq_zero_or_pos (bytePad w d) with h0 | hpos
  · have hb : ¬ 0 < p.BYTEPAD.toNat := by omega
    have e : p.clearAcc.rowEnd = { p.clearAcc with PADCNT := p.BYTEPAD }.nextRow := if_neg hb
    rw [e] at hinv ⊢
    rw [h0]
    exact ⟨_, .refl _, hp.nextRow rfl hinv hrow rfl⟩
  · have e : p.clearAcc.rowEnd = { p.clearAcc with PADCNT := p.BYTEPAD, PHASE := Phase.pad } :=
      if_pos (show 0 < p.BYTEPAD.toNat by omega)
    obtain ⟨k, hk⟩ := Nat.exists_eq_add_of_le' hpos
    rw [e] at hinv ⊢
    rw [hk] at hpad ⊢
    exact Packer.Padding.runs ⟨hp.next hinv rfl, rfl, hpad, hrow⟩

/-! ### A complete byte -/

/-- The byte in the accumulator is emitted, by `EMIT` when it is full and by `FLUSH` at the end of a row (R162, R163). -/
theorem Packer.Running.emits {chunk : List Byte} (hp : p.Running w h d) (hphase : p.PHASE = 2#4 ∨ p.PHASE = 3#4)
    (hacc : p.ACC.toNat * 2 ^ (8 - p.BITCNT.toNat) = laneSum d 0 chunk) (hlen : d * chunk.length ≤ 8)
    (hv : ∀ v ∈ chunk, v.toNat < 2 ^ d) :
    ∃ p', p.Runs [] [packByte d chunk] p' ∧ PkInv p' ∧ (p.COL = p.W → p' = p.clearAcc.rowEnd) ∧
      (p.COL ≠ p.W → p' = { p.clearAcc with PHASE := Phase.accum }) := by
  have hbyte := packByte_toNat hlen hv
  rcases hphase with hph | hph
  · have hrun := Packer.Runs.emit hph
    have hB : p.ACC = packByte d chunk := by
      refine BitVec.eq_of_toNat_eq ?_
      rw [hbyte, ← hacc, (hp.inv.emit hph).1]
      exact (Nat.mul_one _).symm
    rw [hB] at hrun
    exact ⟨_, hrun, hp.inv.emitted hph, fun hc => if_pos hc, fun hc => if_neg hc⟩
  · obtain ⟨-, -, hcol, hpad⟩ := hp.inv.flush hph
    have hrun := Packer.Runs.flush hph
    have hB : alignTop p.BITPAD p.ACC = packByte d chunk := by
      refine BitVec.eq_of_toNat_eq ?_
      rw [alignTop_toNat, Nat.shiftLeft_eq, ← hpad, hacc, ← hbyte]
      exact Nat.mod_eq_of_lt (packByte d chunk).isLt
    rw [hB] at hrun
    exact ⟨_, hrun, hp.inv.rowEnd (by rw [hph]; decide) hcol, fun _ => rfl, fun hc => absurd hcol hc⟩

/-! ### One index -/

theorem Packer.Ready.depth_cases (hp : p.Ready w h d q idx) (hq : q < w * h) : d = 1 ∨ d = 4 ∨ d = 8 := by
  have hph := hp.accumulating hq
  rw [← hp.depth]
  rcases (hp.inv.unit.active (by rw [hph]; decide) (by rw [hph]; decide)).depth with e | e | e <;> rw [e] <;> decide

/-- The registers after the index of pixel `q` was taken: the accumulator holds it below the earlier ones. -/
theorem Packer.Ready.accumulate (hp : p.Ready w h d q idx) (hlen : idx.length = w * h) (hq : q < idx.length)
    (hv : idx[q].toNat < 2 ^ d) :
    (p.accumulate idx[q]).Running w h d ∧ (p.accumulate idx[q]).BITCNT.toNat = q % w * d % 8 + d ∧
    (p.accumulate idx[q]).ACC.toNat * 2 ^ (8 - (q % w * d % 8 + d)) =
      laneSum d 0 (partialByte w d q idx ++ [idx[q]]) := by
  have hd := hp.depth_cases (hlen ▸ hq)
  have hph := hp.accumulating (hlen ▸ hq)
  have hroom := bits_add_le hd (q % w)
  obtain ⟨-, hle, hadd⟩ := hp.inv.accum_room hph
  have hbit := (hp.inv.accum hph).1
  rw [hp.col, hp.depth] at hbit
  rw [hbit, hp.depth] at hle hadd
  have hv' : idx[q].toNat < 2 ^ p.S.toNat := by rwa [hp.depth]
  refine ⟨hp.toRunning.next (hp.inv.accumulate hph hv') rfl, hadd, ?_⟩
  have hacc : (p.accumulate idx[q]).ACC.toNat = p.ACC.toNat * 2 ^ d + idx[q].toNat := by
    rw [← hp.depth]
    exact assemble_toNat hp.inv.acc_lt (by rwa [hbit, hp.depth]) hv'
  have hexp : 2 ^ (8 - q % w * d % 8) = 2 ^ d * 2 ^ (8 - (q % w * d % 8 + d)) := by
    rw [← Nat.pow_add]; congr 1; omega
  have hlane : d * (0 + (partialByte w d q idx).length + 1) = q % w * d % 8 + d := by
    rw [partialByte_length hq.le, mul_mod_eight hd, Nat.zero_add, Nat.mul_succ]
  rw [laneSum_append, hlane, ← hp.acc, hacc, hexp, Nat.add_mul, Nat.mul_assoc]

theorem Packer.Ready.accumulate_COL (hp : p.Ready w h d q idx) (v : Byte) : (p.accumulate v).COL = q % w + 1 :=
  congrArg (· + 1) hp.col

/-- The run of one `ACCUM`. -/
theorem Packer.Ready.accum_runs (hp : p.Ready w h d q idx) (hlen : idx.length = w * h) (hq : q < idx.length)
    (hv : idx[q].toNat < 2 ^ d) : p.Runs [idx[q]] [] (p.accumulate idx[q]) :=
  .accum (hp.accumulating (hlen ▸ hq)) (by rwa [hp.depth])

/-- The index of a pixel within a byte: it stays in the accumulator. -/
theorem Packer.Ready.accumulate_within (hp : p.Ready w h d q idx) (hlen : idx.length = w * h) (hq : q < idx.length)
    (hv : idx[q].toNat < 2 ^ d) (hend : q % w + 1 ≠ w) (hbits : (q % w + 1) * d % 8 ≠ 0)
    (hdiv : (q + 1) / w = q / w) (hmod : (q + 1) % w = q % w + 1) :
    (p.accumulate idx[q]).Ready w h d (q + 1) idx := by
  have hd := hp.depth_cases (hlen ▸ hq)
  have hcol := hp.accumulate_COL idx[q]
  obtain ⟨hrun, hbit, hacc⟩ := hp.accumulate hlen hq hv
  have h8 : (p.accumulate idx[q]).BITCNT.toNat ≠ 8 := fun e => hbits ((bits_full hd).2 (hbit.symm.trans e))
  refine ⟨hrun, fun _ => ?_, fun hfin => ?_, hp.row.trans hdiv.symm, hcol.trans hmod.symm, ?_⟩
  · exact Packer.accumulate_PHASE_more h8 fun hc => hend (by rw [← hcol, hc.2, hp.width])
  · rw [hfin, Nat.mul_mod_right] at hmod; omega
  · rw [hmod, bits_succ hd hbits, hacc, partialByte_succ hd hq hmod hbits]

/-- The index of the last pixel of a byte: `EMIT` or `FLUSH` comes next. -/
theorem Packer.Ready.accumulate_complete (hp : p.Ready w h d q idx) (hlen : idx.length = w * h) (hq : q < idx.length)
    (hv : idx[q].toNat < 2 ^ d) (hlast : q % w + 1 = w ∨ (q % w + 1) * d % 8 = 0) :
    (p.accumulate idx[q]).PHASE = 2#4 ∨ (p.accumulate idx[q]).PHASE = 3#4 := by
  have hd := hp.depth_cases (hlen ▸ hq)
  have hroom := bits_add_le hd (q % w)
  obtain ⟨-, hbit, -⟩ := hp.accumulate hlen hq hv
  by_cases h8 : (p.accumulate idx[q]).BITCNT.toNat = 8
  · exact .inl (Packer.accumulate_PHASE_full h8)
  · have hend : q % w + 1 = w := hlast.resolve_right fun h0 => h8 (hbit.trans ((bits_full hd).1 h0))
    exact .inr (Packer.accumulate_PHASE_rowEnd ⟨by omega, by rw [hp.accumulate_COL, hend, hp.width]⟩)

/-- The index of the last pixel of a byte is taken and the byte is emitted; the row goes on or ends. -/
theorem Packer.Ready.complete (hw : 1 ≤ w) (hp : p.Ready w h d q idx) (hlen : idx.length = w * h) (hq : q < idx.length)
    (hv : ∀ v ∈ idx, v.toNat < 2 ^ d) (hlast : q % w + 1 = w ∨ (q % w + 1) * d % 8 = 0) :
    ∃ p', p.Runs [idx[q]] [(pack w h d idx).getD (byteOf w d q) 0] p' ∧ PkInv p' ∧
      (q % w + 1 = w → p' = (p.accumulate idx[q]).clearAcc.rowEnd) ∧
      (q % w + 1 ≠ w → p' = { (p.accumulate idx[q]).clearAcc with PHASE := Phase.accum }) := by
  have hd := hp.depth_cases (hlen ▸ hq)
  have hvq : idx[q].toNat < 2 ^ d := hv _ (List.getElem_mem hq)
  obtain ⟨hrun, hbit, hacc⟩ := hp.accumulate hlen hq hvq
  have hmem : ∀ v ∈ partialByte w d q idx ++ [idx[q]], v.toNat < 2 ^ d := fun v hvm =>
    (List.mem_append.1 hvm).elim (fun hm => hv v (mem_of_mem_partialByte hm))
      fun hm => by rw [List.mem_singleton.1 hm]; exact hvq
  have hchunk : d * (partialByte w d q idx ++ [idx[q]]).length ≤ 8 := by
    rw [List.length_append, partialByte_length hq.le, List.length_singleton, Nat.mul_succ, ← mul_mod_eight hd]
    exact bits_add_le hd _
  obtain ⟨p', hemit, hinv, hrow, hmore⟩ :=
    hrun.emits (hp.accumulate_complete hlen hq hvq hlast) (by rw [hbit]; exact hacc) hchunk hmem
  rw [hp.accumulate_COL, hrun.width] at hrow hmore
  rw [pack_getD_byteOf hw hd hlen hq hlast]
  exact ⟨p', (hp.accum_runs hlen hq hvq).trans hemit, hinv, hrow, hmore⟩

/-- Within a row the byte that starts with the next pixel is empty. -/
theorem Packer.Ready.emitted (hp : p.Ready w h d q idx) (hlen : idx.length = w * h) (hq : q < idx.length)
    (hinv : PkInv { (p.accumulate idx[q]).clearAcc with PHASE := Phase.accum }) (hbits : (q % w + 1) * d % 8 = 0)
    (hdiv : (q + 1) / w = q / w) (hmod : (q + 1) % w = q % w + 1) :
    Packer.Ready w h d (q + 1) idx { (p.accumulate idx[q]).clearAcc with PHASE := Phase.accum } := by
  have hd := hp.depth_cases (hlen ▸ hq)
  have hfirst : (q + 1) % w % pixelsPerByte d = 0 := by
    have h8 := mul_mod_eight hd ((q + 1) % w)
    rw [hmod, hbits] at h8
    rw [hmod]
    rcases hd with rfl | rfl | rfl <;> omega
  refine ⟨hp.toRunning.next hinv rfl, fun _ => rfl, fun hfin => ?_, hp.row.trans hdiv.symm,
    (hp.accumulate_COL idx[q]).trans hmod.symm, ?_⟩
  · rw [hfin, Nat.mul_mod_right] at hmod; omega
  · rw [partialByte_of_first idx hfirst]
    exact Nat.zero_mul _

/-- After a row the next one begins, or the transform is over. -/
theorem Packer.RowsDone.ready (hw : 1 ≤ w) (hp : p.RowsDone w h d (q / w + 1)) (hdiv : (q + 1) / w = q / w + 1)
    (hmod : (q + 1) % w = 0) : p.Ready w h d (q + 1) idx := by
  refine ⟨hp.toRunning, fun hlt => hp.accumulating ?_, fun he => hp.finished ?_, hp.row.trans hdiv.symm,
    hp.col.trans hmod.symm, ?_⟩
  · rw [← hdiv]; exact (Nat.div_lt_of_lt_mul hlt).ne
  · rw [← hdiv, he, Nat.mul_div_cancel_left _ hw]
  · rw [hp.acc, partialByte_of_first idx (by rw [hmod, Nat.zero_mod])]
    exact Nat.zero_mul _

/-- The last byte of a row is the one before its padding. -/
theorem byteOf_row_last (hdiv : (q + 1) / w = q / w + 1) (hmod : (q + 1) % w = 0)
    (e : byteOf w d (q + 1) = byteOf w d q + 1 + bytePad w d) :
    byteOf w d q + 1 = q / w * stride w d + byteWidth w d := by
  have hnext : byteOf w d (q + 1) = q / w * stride w d + stride w d := by
    rw [byteOf, pixelByteAt, hdiv, hmod, Nat.zero_mul, Nat.succ_mul]
    rfl
  unfold stride at hnext ⊢
  omega

/-- From a pixel to the next one: its index is taken, and the bytes that it completes are emitted. -/
theorem Packer.Ready.step (hw : 1 ≤ w) (hp : p.Ready w h d q idx) (hlen : idx.length = w * h) (hq : q < idx.length)
    (hv : ∀ v ∈ idx, v.toNat < 2 ^ d) :
    ∃ bytes p', p.Runs [idx[q]] bytes p' ∧ p'.Ready w h d (q + 1) idx ∧
      (pack w h d idx).take (byteOf w d (q + 1)) = (pack w h d idx).take (byteOf w d q) ++ bytes := by
  have hqw : q < w * h := hlen ▸ hq
  have hd := hp.depth_cases hqw
  have hvq : idx[q].toNat < 2 ^ d := hv _ (List.getElem_mem hq)
  have hnext := take_succ_getD (byteOf_lt_length idx hw hd hqw)
  rcases byteOf_succ_cases hw hd q with ⟨hend, hbits, hdiv, hmod, e⟩ | ⟨hend, hbits, hdiv, hmod, e⟩ |
    ⟨hend, hdiv, hmod, e⟩
  · exact ⟨[], _, hp.accum_runs hlen hq hvq, hp.accumulate_within hlen hq hvq hend hbits hdiv hmod,
      by rw [e, List.append_nil]⟩
  · obtain ⟨p', hrun, hinv, -, hmore⟩ := hp.complete hw hlen hq hv (.inr hbits)
    obtain rfl := hmore hend
    exact ⟨_, _, hrun, hp.emitted hlen hq hinv hbits hdiv hmod, by rw [e, hnext]⟩
  · obtain ⟨p', hrun, hinv, hrowEnd, -⟩ := hp.complete hw hlen hq hv (.inl hend)
    obtain rfl := hrowEnd hend
    obtain ⟨hp₁, -, -⟩ := hp.accumulate hlen hq hvq
    have hphase := hp.accumulate_complete hlen hq hvq (.inl hend)
    obtain ⟨p', hpads, hdone⟩ := hp₁.rowEnd (by rcases hphase with e | e <;> rw [e] <;> decide)
      (by rcases hphase with e | e <;> rw [e] <;> decide) hinv hp.row
    refine ⟨_, p', by simpa using hrun.trans hpads, hdone.ready hw hdiv hmod, ?_⟩
    rw [e, byteOf_row_last hdiv hmod e, pack_take_padding idx (Nat.div_lt_of_lt_mul hqw),
      ← byteOf_row_last hdiv hmod e, hnext, List.append_assoc]
    rfl

/-- The run up to a pixel, or to the end of the image. -/
theorem Packer.Ready.reach (hw : 1 ≤ w) (hp : p.Ready w h d 0 idx) (hlen : idx.length = w * h)
    (hv : ∀ v ∈ idx, v.toNat < 2 ^ d) (hq : q ≤ w * h) :
    ∃ p', p.Runs (idx.take q) ((pack w h d idx).take (byteOf w d q)) p' ∧ p'.Ready w h d q idx := by
  induction q with
  | zero => exact ⟨p, by simpa [byteOf_zero] using Packer.Runs.refl p, hp⟩
  | succ q ih =>
    obtain ⟨p₁, hrun, hp₁⟩ := ih (Nat.le_of_succ_le hq)
    have hq' : q < idx.length := hlen ▸ hq
    obtain ⟨bytes, p', hstep, hp', htake⟩ := hp₁.step hw hlen hq' hv
    refine ⟨p', ?_, hp'⟩
    rw [htake, List.take_succ_eq_append_getElem hq']
    exact hrun.trans hstep

end

/-! ### The end of a transform -/

/-- A transform of the packer: the latch of `START`, a run, and `OKTERM`. -/
theorem Packer.Runs.transform {s : State} {vs bs : List Byte} {rest : List Token} {p : Packer}
    (hcfg : s.cfg.legal = true) (ha : s.pk.PHASE = 0#4 ∨ s.pk.PHASE = 6#4) (hc : s.pk.configLegal = true)
    (hrun : s.pk.latch.Runs vs bs p) (hp : p.PHASE = 5#4) (hq : s.inPk.queue = dataTokens vs ++ rest)
    (moves : List Move) :
    Host.Core.run Sys2Proof.core (1 + (vs.length + bs.length + 1))
        { s with agenda := transformAgenda .PK (vs.length + bs.length + 1) moves } =
      .next { s with pk := { p with PHASE := 6#4 }, inPk := ⟨s.inPk.passed ++ dataTokens vs, rest⟩,
                     outPk := ⟨s.outPk.passed, s.outPk.queue ++ frame bs 0⟩, agenda := moves } := by
  have hstart : exec (startOf .PK) s = .next { s with pk := s.pk.latch } := by
    show Host.Outcome.next { s with pk := s.pk.start } = _
    rw [Packer.start_eq_latch (s.pk.startAccepted_iff.2 ha) hc]
  have htakes := (hrun { s with pk := s.pk.latch } rest rfl hq).trans
    (.one (i := .pkOkterm) (by rw [State.phaseOf_pk]; exact congrArg (fun c => decode (.phase .PK c)) hp) rfl)
  simpa [Channel.push_eq, frame] using Takes.transform hcfg hstart htakes moves

/-- A packing takes one step for each index and each byte, and one to close the frame. -/
theorem packSteps_eq (w h d : Nat) : packSteps w h d = w * h + h * stride w d + 1 := by
  rw [packSteps, stride, Nat.mul_add]
  omega

end Sys2Proof.Machine
end

section
/-! The statement about whole transforms of the packer (41_packer). -/

namespace Sys2Proof.Machine

/-- Settles O53: the run passes the pixels one by one, and at the end of the image all bytes are emitted. -/
theorem packerComputesPack : Obligations.PackerComputesPack := by
  rintro s w h d idx rest moves hcfg ha rfl rfl rfl hw hh hd hlen hv hq
  have hc := s.pk.configLegal_iff_one_le.2 ⟨hd, hw, hh⟩
  obtain ⟨p, hrun, hp⟩ := (Packer.latch_ready hc idx).reach hw hlen hv le_rfl
  have hphase := hp.finished rfl
  have hbytes := pack_length s.pk.WIDTH s.pk.HEIGHT s.pk.DEPTH idx
  have hlast : byteOf s.pk.WIDTH s.pk.DEPTH (s.pk.WIDTH * s.pk.HEIGHT) = s.pk.HEIGHT * stride s.pk.WIDTH s.pk.DEPTH := by
    rw [Nat.mul_comm, byteOf_mul hw]
  rw [hlast, ← hbytes, ← hlen, List.take_length, List.take_length] at hrun
  have ht := hrun.transform hcfg ha hc hphase hq moves
  rw [hlen, hbytes, ← packSteps_eq] at ht
  exact ⟨_, ht, rfl, hp.inv.unit.errcode_zero (by rw [hphase]; decide),
    hp.row.trans (Nat.mul_div_cancel_left _ hw), hp.col.trans (Nat.mul_mod_right _ _)⟩

end Sys2Proof.Machine
end
